-- ==== Sys2Proof/Word.lean ====
section
/-! DEFINITION. The word types: 64-bit containers for XLEN-bit values, bytes, register numbers. -/

namespace Sys2Proof

/-- An XLEN-bit value (00_scope.md R13) in a 64-bit container. With XLEN = 32 the upper 32 bits are 0
(DESIGN CHOICE, log 6). -/
abbrev Word := BitVec 64

/-- One byte of memory (20_memory.md R50). -/
abbrev Byte := BitVec 8

/-- A full 5-bit register number x0 .. x31 (30_encoding.md R88). -/
abbrev RegIdx := BitVec 5

/-- The size of an instruction in bytes: 2 or 4 (30_encoding.md R69). -/
inductive InsnSize where
  | two
  | four
  deriving DecidableEq, Repr

/-- The raw instruction as fetched: its size and its bits, a 16-bit instruction zero-extended
(20_memory.md R61, 45_trace_commit.md R229). -/
structure RawInsn where
  bits : BitVec 32
  size : InsnSize
  deriving DecidableEq, Repr

end Sys2Proof
end

