-- ==== Sys2Proof/Config.lean ====
section
/-! DEFINITION. The static configuration and the implementation parameters (00_scope.md R8, R9). -/

namespace Sys2Proof

/-- XLEN, the register width: 32 or 64 (00_scope.md R9). -/
inductive XLen where
  | rv32
  | rv64
  deriving DecidableEq, Repr

/-- MISALIGNED_DATA, what a misaligned data access does (20_memory.md R54). -/
inductive MisalignedPolicy where
  | fault
  | split
  deriving DecidableEq, Repr

/-- A window of accesses that MEM_ADMITS refuses: those of `nbytes` bytes at an address `lo ≤ addr ≤ hi`
(20_memory.md R59; a list of windows is MEM_ADMITS as plain data: DESIGN CHOICE, log 4). -/
structure RefusedWindow where
  lo : Nat
  hi : Nat
  nbytes : Nat
  deriving DecidableEq, Repr

/-- `cfg` and the parameters of 00_scope.md R9. Fixed before the first step; no step changes it (R8, 70 R256). -/
structure Config where
  /-- XLEN -/
  xlen : XLen
  /-- C_ENABLED -/
  cEnabled : Bool
  /-- RESET_PC -/
  resetPc : Word
  /-- JALR_CLEAR_LSB -/
  jalrClearLsb : Bool
  /-- STRICT_SYSTEM -/
  strictSystem : Bool
  /-- MISALIGNED_DATA -/
  misalignedData : MisalignedPolicy
  /-- MEM_ADMITS, as the accesses it refuses -/
  refusedWindows : List RefusedWindow
  /-- END_PC, read by the host's run only (70_reset_and_hazards.md R257) -/
  endPc : Option Word
  deriving DecidableEq, Repr

/-- The configuration `State.reset` starts from: R9's defaults where it gives them, and for the OPEN
parameters RV64IC, `split`, every access admitted, no END_PC (DESIGN CHOICE, log 2, 4, 5, 18). -/
def Config.default : Config :=
  { xlen := .rv64
    cEnabled := true
    resetPc := 0
    jalrClearLsb := true
    strictSystem := false
    misalignedData := .split
    refusedWindows := []
    endPc := none }

end Sys2Proof
end

