-- ==== Sys2Proof/Machine/Arith.lean ====
section
/-! DEFINITION. XLEN-bit values and arithmetic (00_scope.md R13; 10_state.md R20 to R25; 40_integer_alu.md R107 to
R109). An XLEN-bit vector lies in the low XLEN bits of a Word, zeros above (log 6). -/

namespace Sys2Proof

/-- The width XLEN in bits (00_scope.md R9). -/
def XLen.bits : XLen → Nat
  | .rv32 => 32
  | .rv64 => 64

/-- `wrap`: the low XLEN bits (00_scope.md R13, 10_state.md R21). -/
def XLen.wrap : XLen → Word → Word
  | .rv32, v => (v.setWidth 32).setWidth 64
  | .rv64, v => v

/-- `sext_N`: the N-bit field sign-extended to XLEN (00_scope.md R13). -/
def XLen.sext (x : XLen) {n : Nat} (v : BitVec n) : Word := x.wrap (v.signExtend 64)

/-- `zext_N`: the N-bit field zero-extended to XLEN (00_scope.md R13). -/
def XLen.zext (x : XLen) {n : Nat} (v : BitVec n) : Word := x.wrap (v.setWidth 64)

/-- `as_signed`: the XLEN-bit vector as a two's-complement integer (00_scope.md R13, 10_state.md R20). -/
def XLen.asSigned : XLen → Word → Int
  | .rv32, v => (v.setWidth 32).toInt
  | .rv64, v => v.toInt

/-- `as_unsigned`: the XLEN-bit vector as a natural number (00_scope.md R13, 10_state.md R23). -/
def XLen.asUnsigned (x : XLen) (v : Word) : Nat := (x.wrap v).toNat

/-- `v[31:0]`, what a W form reads (40_integer_alu.md R109). -/
def low32 (v : Word) : BitVec 32 := v.setWidth 32

/-- The amount of a register shift: x[rs2][4:0] on RV32, x[rs2][5:0] on RV64 (40_integer_alu.md R108). -/
def XLen.shiftAmount : XLen → Word → Nat
  | .rv32, v => (v.extractLsb' 0 5).toNat
  | .rv64, v => (v.extractLsb' 0 6).toNat

/-- The amount of a W register shift: x[rs2][4:0] (40_integer_alu.md R108). -/
def shiftAmountW (v : Word) : Nat := (v.extractLsb' 0 5).toNat

/-- `x << s`: bits shifted past XLEN−1 are lost (40_integer_alu.md R116, R121). -/
def XLen.sll (x : XLen) (a : Word) (s : Nat) : Word := x.wrap (a <<< s)

/-- `as_unsigned(x) >> s`: zeros enter at bit XLEN−1 (40_integer_alu.md R117, R125; 10_state.md R22). -/
def XLen.srl (x : XLen) (a : Word) (s : Nat) : Word := x.wrap a >>> s

/-- `as_signed(x) >> s`: copies of bit XLEN−1 enter at the top (40_integer_alu.md R118, R126). -/
def XLen.sra : XLen → Word → Nat → Word
  | .rv32, a, s => ((a.setWidth 32).sshiftRight s).setWidth 64
  | .rv64, a, s => a.sshiftRight s

/-- A comparison's result: exactly 0 or 1, zero-extended (40_integer_alu.md R111, R112). -/
def boolWord (b : Bool) : Word := if b then 1 else 0

end Sys2Proof
end

