-- ==== Sys2Proof/Machine/Flags.lean ====
section
/-! DEFINITION. The hardware has no flags (10_state.md R39): a comparison goes into a register (the SLT family) or decides
a branch inside one step. These are the comparisons (00_scope.md R13, 40_integer_alu.md R107, 41_control_transfer.md
R148 to R153). -/

namespace Sys2Proof.Machine

/-- `==`, of bit patterns (BEQ). -/
def condEq (x : XLen) (a b : Word) : Bool := x.wrap a == x.wrap b
/-- `!=` (BNE). -/
def condNe (x : XLen) (a b : Word) : Bool := x.wrap a != x.wrap b
/-- `<s` (SLT, SLTI, BLT). -/
def condLt (x : XLen) (a b : Word) : Bool := decide (x.asSigned a < x.asSigned b)
/-- `>=` signed (BGE). -/
def condGe (x : XLen) (a b : Word) : Bool := decide (x.asSigned a ≥ x.asSigned b)
/-- `<u` (SLTU, SLTIU, BLTU). -/
def condLtu (x : XLen) (a b : Word) : Bool := decide (x.asUnsigned a < x.asUnsigned b)
/-- `>=` unsigned (BGEU). -/
def condGeu (x : XLen) (a b : Word) : Bool := decide (x.asUnsigned a ≥ x.asUnsigned b)

end Sys2Proof.Machine
end

