-- ==== Sys2Proof/Machine/Immediate.lean ====
section
/-! DEFINITION. The immediate extractor's value type, its range check and its sign-extension unit (30_encoding.md R73 to R78,
R81). The decoder (Decode.lean) builds every Immediate with `extract`; the executor's operands (Operands.lean) are the
operands of these Immediates. -/

namespace Sys2Proof.Machine

/-- The error of `set` (30_encoding.md R74). -/
inductive ImmediateError where
  | invalidImmediate
  deriving DecidableEq, Repr

/-- An Immediate (30_encoding.md R73). `bits` is a natural number where R73 has a u8 (DESIGN CHOICE, log 21). -/
structure Immediate where
  bits : Nat
  signed : Bool
  lsb0 : Bool
  value : Int
  deriving DecidableEq, Repr

/-- `max`, rounded down to even if lsb0 (30_encoding.md R73). R73's 2^(bits−1) is no integer where bits is 0; a signed
Immediate of no bits takes it as 1, so its max is 0 (DESIGN CHOICE, log 22). -/
def Immediate.max (im : Immediate) : Int :=
  let m : Int := if im.signed then 2 ^ (im.bits - 1) - 1 else 2 ^ im.bits - 1
  if im.lsb0 then m - m % 2 else m

/-- `min` (30_encoding.md R73). R73's 2^(bits−1) is no integer where bits is 0; a signed Immediate of no bits takes it
as 1, so its min is −1 (DESIGN CHOICE, log 22). -/
def Immediate.min (im : Immediate) : Int := if im.signed then -(2 ^ (im.bits - 1)) else 0

/-- `set(value)`: the checks, then the value is stored (30_encoding.md R74). -/
def Immediate.set (im : Immediate) (v : Int) : Except ImmediateError Immediate :=
  if (im.lsb0 = true ∧ v % 2 ≠ 0) ∨ (im.signed = false ∧ v < 0) ∨ v < im.min ∨ im.max < v then
    .error .invalidImmediate
  else .ok { im with value := v }

/-- The integer `set_from_bits` reads from raw bits (30_encoding.md R75). Where bits is 0 a signed Immediate takes R75's
2^(bits−1) as 1 (DESIGN CHOICE, log 22). -/
def Immediate.rawValue (im : Immediate) (raw : Nat) : Int :=
  if im.signed then
    let sign := raw &&& 2 ^ (im.bits - 1)
    (Int.ofNat (raw - sign)) - Int.ofNat sign
  else Int.ofNat raw

/-- `set_from_bits(raw)` (30_encoding.md R75). -/
def Immediate.setFromBits (im : Immediate) (raw : Nat) : Except ImmediateError Immediate := im.set (im.rawValue raw)

/-- `left_shift(n)`: a new Immediate, flags kept (30_encoding.md R76). R73 makes bits a u8 and R76 does not say what
bits + n above 255 gives; here it never overflows (DESIGN CHOICE, log 21). -/
def Immediate.leftShift (im : Immediate) (n : Nat) : Immediate :=
  { im with bits := im.bits + n, value := im.value * 2 ^ n }

/-- The sign-extension unit: the XLEN-bit operand of an Immediate (30_encoding.md R81). -/
def Immediate.operand (x : XLen) (im : Immediate) : Word := x.wrap (BitVec.ofInt 64 im.value)

/-- An Immediate of a format before its value is set. -/
def Immediate.blank (bits : Nat) (signed lsb0 : Bool) : Immediate := ⟨bits, signed, lsb0, 0⟩

/-- The extractor: from an instruction's assembled bit groups, by `set_from_bits`, an Immediate exactly as wide as the
field (00_scope.md R7; 30_encoding.md R78). -/
def Immediate.extract (signed lsb0 : Bool) {n : Nat} (field : BitVec n) : Except ImmediateError Immediate :=
  (Immediate.blank n signed lsb0).setFromBits field.toNat

/-- The Immediate a decoded instruction carries for a field: the one `extract` gives, whose check the decoder has made
(30_encoding.md R78, R88). -/
def Immediate.ofField (signed lsb0 : Bool) {n : Nat} (field : BitVec n) : Immediate :=
  { Immediate.blank n signed lsb0 with value := (Immediate.blank n signed lsb0).rawValue field.toNat }

end Sys2Proof.Machine
end

