-- ==== Sys2Proof/Syntax.lean ====
section
/-! DEFINITION. The decoded instructions: one constructor per row of spec/opcode_table.json, with the operands
30_encoding.md R88 says a decoded Instruction carries. Register numbers are full 5-bit numbers (R83); immediates
are the two's-complement or unsigned fields of R79 and R84, as wide as their Immediate, low zero bits included. -/

namespace Sys2Proof

inductive Instr where
  -- Upper-immediate operations (40_integer_alu.md R129, R130)
  | lui (rd : RegIdx) (imm20 : BitVec 20)
  | auipc (rd : RegIdx) (imm20 : BitVec 20)
  -- Jumps (41_control_transfer.md R146, R147)
  | jal (rd : RegIdx) (imm : BitVec 21)
  | jalr (rd rs1 : RegIdx) (imm : BitVec 12)
  -- Conditional branches (41_control_transfer.md R148 to R153)
  | beq (rs1 rs2 : RegIdx) (imm : BitVec 13)
  | bne (rs1 rs2 : RegIdx) (imm : BitVec 13)
  | blt (rs1 rs2 : RegIdx) (imm : BitVec 13)
  | bge (rs1 rs2 : RegIdx) (imm : BitVec 13)
  | bltu (rs1 rs2 : RegIdx) (imm : BitVec 13)
  | bgeu (rs1 rs2 : RegIdx) (imm : BitVec 13)
  -- Loads (42_load_store.md R159 to R165)
  | lb (rd rs1 : RegIdx) (imm : BitVec 12)
  | lh (rd rs1 : RegIdx) (imm : BitVec 12)
  | lw (rd rs1 : RegIdx) (imm : BitVec 12)
  | ld (rd rs1 : RegIdx) (imm : BitVec 12)
  | lbu (rd rs1 : RegIdx) (imm : BitVec 12)
  | lhu (rd rs1 : RegIdx) (imm : BitVec 12)
  | lwu (rd rs1 : RegIdx) (imm : BitVec 12)
  -- Stores (42_load_store.md R166 to R169)
  | sb (rs1 rs2 : RegIdx) (imm : BitVec 12)
  | sh (rs1 rs2 : RegIdx) (imm : BitVec 12)
  | sw (rs1 rs2 : RegIdx) (imm : BitVec 12)
  | sd (rs1 rs2 : RegIdx) (imm : BitVec 12)
  -- Register-immediate operations (40_integer_alu.md R110 to R115)
  | addi (rd rs1 : RegIdx) (imm : BitVec 12)
  | slti (rd rs1 : RegIdx) (imm : BitVec 12)
  | sltiu (rd rs1 : RegIdx) (imm : BitVec 12)
  | xori (rd rs1 : RegIdx) (imm : BitVec 12)
  | ori (rd rs1 : RegIdx) (imm : BitVec 12)
  | andi (rd rs1 : RegIdx) (imm : BitVec 12)
  -- Immediate shifts, one constructor per row: RV32 (5-bit shamt) and RV64 (6-bit shamt) (40_integer_alu.md R116 to R118)
  | slli32 (rd rs1 : RegIdx) (shamt : BitVec 5)
  | slli64 (rd rs1 : RegIdx) (shamt : BitVec 6)
  | srli32 (rd rs1 : RegIdx) (shamt : BitVec 5)
  | srli64 (rd rs1 : RegIdx) (shamt : BitVec 6)
  | srai32 (rd rs1 : RegIdx) (shamt : BitVec 5)
  | srai64 (rd rs1 : RegIdx) (shamt : BitVec 6)
  -- Register-register operations (40_integer_alu.md R119 to R128)
  | add (rd rs1 rs2 : RegIdx)
  | sub (rd rs1 rs2 : RegIdx)
  | sll (rd rs1 rs2 : RegIdx)
  | slt (rd rs1 rs2 : RegIdx)
  | sltu (rd rs1 rs2 : RegIdx)
  | xor (rd rs1 rs2 : RegIdx)
  | srl (rd rs1 rs2 : RegIdx)
  | sra (rd rs1 rs2 : RegIdx)
  | or (rd rs1 rs2 : RegIdx)
  | and (rd rs1 rs2 : RegIdx)
  -- System, CSR and fence stubs (43_system.md R174 to R183)
  | fence (fm pred succ : BitVec 4) (rs1 rd : RegIdx)
  | ecall
  | ebreak
  | csrrw (rd rs1 : RegIdx) (csr : BitVec 12)
  | csrrs (rd rs1 : RegIdx) (csr : BitVec 12)
  | csrrc (rd rs1 : RegIdx) (csr : BitVec 12)
  | csrrwi (rd : RegIdx) (uimm : BitVec 5) (csr : BitVec 12)
  | csrrsi (rd : RegIdx) (uimm : BitVec 5) (csr : BitVec 12)
  | csrrci (rd : RegIdx) (uimm : BitVec 5) (csr : BitVec 12)
  -- RV64 W forms (40_integer_alu.md R131 to R139)
  | addiw (rd rs1 : RegIdx) (imm : BitVec 12)
  | slliw (rd rs1 : RegIdx) (shamt : BitVec 5)
  | srliw (rd rs1 : RegIdx) (shamt : BitVec 5)
  | sraiw (rd rs1 : RegIdx) (shamt : BitVec 5)
  | addw (rd rs1 rs2 : RegIdx)
  | subw (rd rs1 rs2 : RegIdx)
  | sllw (rd rs1 rs2 : RegIdx)
  | srlw (rd rs1 rs2 : RegIdx)
  | sraw (rd rs1 rs2 : RegIdx)
  -- Compressed, quadrant 0 (44_compressed.md R188 to R192)
  | cAddi4spn (rd : RegIdx) (nzuimm : BitVec 10)
  | cLw (rd rs1 : RegIdx) (uimm : BitVec 7)
  | cLd (rd rs1 : RegIdx) (uimm : BitVec 8)
  | cSw (rs1 rs2 : RegIdx) (uimm : BitVec 7)
  | cSd (rs1 rs2 : RegIdx) (uimm : BitVec 8)
  -- Compressed, quadrant 1 (44_compressed.md R193 to R211)
  | cNop (imm : BitVec 6)
  | cAddi (rd : RegIdx) (imm : BitVec 6)
  | cJal (imm : BitVec 12)
  | cAddiw (rd : RegIdx) (imm : BitVec 6)
  | cLi (rd : RegIdx) (imm : BitVec 6)
  | cAddi16sp (nzimm : BitVec 10)
  | cLui (rd : RegIdx) (nzimm : BitVec 6)
  | cSrli (rd : RegIdx) (shamt : BitVec 6)
  | cSrai (rd : RegIdx) (shamt : BitVec 6)
  | cAndi (rd : RegIdx) (imm : BitVec 6)
  | cSub (rd rs2 : RegIdx)
  | cXor (rd rs2 : RegIdx)
  | cOr (rd rs2 : RegIdx)
  | cAnd (rd rs2 : RegIdx)
  | cSubw (rd rs2 : RegIdx)
  | cAddw (rd rs2 : RegIdx)
  | cJ (imm : BitVec 12)
  | cBeqz (rs1 : RegIdx) (imm : BitVec 9)
  | cBnez (rs1 : RegIdx) (imm : BitVec 9)
  -- Compressed, quadrant 2 (44_compressed.md R212 to R221)
  | cSlli (rd : RegIdx) (shamt : BitVec 6)
  | cLwsp (rd : RegIdx) (uimm : BitVec 8)
  | cLdsp (rd : RegIdx) (uimm : BitVec 9)
  | cJr (rs1 : RegIdx)
  | cMv (rd rs2 : RegIdx)
  | cEbreak
  | cJalr (rs1 : RegIdx)
  | cAdd (rd rs2 : RegIdx)
  | cSwsp (rs2 : RegIdx) (uimm : BitVec 8)
  | cSdsp (rs2 : RegIdx) (uimm : BitVec 9)
  deriving DecidableEq, Repr

end Sys2Proof
end

