-- ==== Sys2Proof/WellFormed.lean ====
section
/-! DEFINITION. Which instructions the decoder may produce under a configuration: the ISA gate of each table row
(30_encoding.md R85, R86) and the constraints on its fields (R83, R84; opcode_table.json). -/

namespace Sys2Proof

/-- The ISA gates of the decode table (30_encoding.md R86). -/
inductive Gate where
  | base
  | base32
  | base64
  | compressed
  | compressed32
  | compressed64
  deriving DecidableEq, Repr

/-- `gate_enabled` (30_encoding.md R86). -/
def Gate.enabled : Gate → Config → Bool
  | .base, _ => true
  | .base32, c => c.xlen == .rv32
  | .base64, c => c.xlen == .rv64
  | .compressed, c => c.cEnabled
  | .compressed32, c => c.cEnabled && c.xlen == .rv32
  | .compressed64, c => c.cEnabled && c.xlen == .rv64

/-- The `isa` column of the instruction's row in opcode_table.json. -/
def Instr.gate : Instr → Gate
  | .lui .. | .auipc .. | .jal .. | .jalr .. => .base
  | .beq .. | .bne .. | .blt .. | .bge .. | .bltu .. | .bgeu .. => .base
  | .lb .. | .lh .. | .lw .. | .lbu .. | .lhu .. => .base
  | .ld .. | .lwu .. => .base64
  | .sb .. | .sh .. | .sw .. => .base
  | .sd .. => .base64
  | .addi .. | .slti .. | .sltiu .. | .xori .. | .ori .. | .andi .. => .base
  | .slli32 .. | .srli32 .. | .srai32 .. => .base32
  | .slli64 .. | .srli64 .. | .srai64 .. => .base64
  | .add .. | .sub .. | .sll .. | .slt .. | .sltu .. => .base
  | .xor .. | .srl .. | .sra .. | .or .. | .and .. => .base
  | .fence .. | .ecall | .ebreak => .base
  | .csrrw .. | .csrrs .. | .csrrc .. | .csrrwi .. | .csrrsi .. | .csrrci .. => .base
  | .addiw .. | .slliw .. | .srliw .. | .sraiw .. => .base64
  | .addw .. | .subw .. | .sllw .. | .srlw .. | .sraw .. => .base64
  | .cAddi4spn .. | .cLw .. | .cSw .. => .compressed
  | .cLd .. | .cSd .. => .compressed64
  | .cNop .. | .cAddi .. => .compressed
  | .cJal .. => .compressed32
  | .cAddiw .. => .compressed64
  | .cLi .. | .cAddi16sp .. | .cLui .. | .cSrli .. | .cSrai .. | .cAndi .. => .compressed
  | .cSub .. | .cXor .. | .cOr .. | .cAnd .. => .compressed
  | .cSubw .. | .cAddw .. => .compressed64
  | .cJ .. | .cBeqz .. | .cBnez .. | .cSlli .. | .cLwsp .. => .compressed
  | .cLdsp .. => .compressed64
  | .cJr .. | .cMv .. | .cEbreak | .cJalr .. | .cAdd .. | .cSwsp .. => .compressed
  | .cSdsp .. => .compressed64

/-- A register a 3-bit compressed field can name: x8 .. x15 (30_encoding.md R83). -/
def isCReg (r : RegIdx) : Bool := 8 ≤ r.toNat && r.toNat < 16

/-- The low zero bits an Immediate is built with (30_encoding.md R79, R84): its value is a multiple of `k`. -/
def multipleOf (k : Nat) {n : Nat} (v : BitVec n) : Bool := v.toNat % k == 0

/-- The constraint `RV32: inst[12] == 0` of the compressed shifts (30_encoding.md R99). -/
def shamtFits (x : XLen) (shamt : BitVec 6) : Bool := x == .rv64 || shamt.toNat < 32

/-- The constraints on the instruction's own fields (opcode_table.json; 30_encoding.md R83, R84, R98, R99). -/
def Instr.fieldsOk (x : XLen) : Instr → Bool
  | .jal _ imm => multipleOf 2 imm
  | .beq _ _ imm | .bne _ _ imm | .blt _ _ imm => multipleOf 2 imm
  | .bge _ _ imm | .bltu _ _ imm | .bgeu _ _ imm => multipleOf 2 imm
  | .cAddi4spn rd nzuimm => isCReg rd && multipleOf 4 nzuimm && nzuimm != 0
  | .cLw rd rs1 uimm => isCReg rd && isCReg rs1 && multipleOf 4 uimm
  | .cLd rd rs1 uimm => isCReg rd && isCReg rs1 && multipleOf 8 uimm
  | .cSw rs1 rs2 uimm => isCReg rs1 && isCReg rs2 && multipleOf 4 uimm
  | .cSd rs1 rs2 uimm => isCReg rs1 && isCReg rs2 && multipleOf 8 uimm
  | .cAddi rd _ => rd != 0
  | .cJal imm => multipleOf 2 imm
  | .cAddiw rd _ => rd != 0
  | .cAddi16sp nzimm => multipleOf 16 nzimm && nzimm != 0
  | .cLui rd nzimm => rd != 2 && nzimm != 0
  | .cSrli rd shamt | .cSrai rd shamt => isCReg rd && shamtFits x shamt
  | .cAndi rd _ => isCReg rd
  | .cSub rd rs2 | .cXor rd rs2 | .cOr rd rs2 | .cAnd rd rs2 => isCReg rd && isCReg rs2
  | .cSubw rd rs2 | .cAddw rd rs2 => isCReg rd && isCReg rs2
  | .cJ imm => multipleOf 2 imm
  | .cBeqz rs1 imm | .cBnez rs1 imm => isCReg rs1 && multipleOf 2 imm
  | .cSlli _ shamt => shamtFits x shamt
  | .cLwsp rd uimm => rd != 0 && multipleOf 4 uimm
  | .cLdsp rd uimm => rd != 0 && multipleOf 8 uimm
  | .cJr rs1 | .cJalr rs1 => rs1 != 0
  | .cMv _ rs2 | .cAdd _ rs2 => rs2 != 0
  | .cSwsp _ uimm => multipleOf 4 uimm
  | .cSdsp _ uimm => multipleOf 8 uimm
  | .lui .. | .auipc .. | .jalr .. => true
  | .lb .. | .lh .. | .lw .. | .ld .. | .lbu .. | .lhu .. | .lwu .. => true
  | .sb .. | .sh .. | .sw .. | .sd .. => true
  | .addi .. | .slti .. | .sltiu .. | .xori .. | .ori .. | .andi .. => true
  | .slli32 .. | .slli64 .. | .srli32 .. | .srli64 .. | .srai32 .. | .srai64 .. => true
  | .add .. | .sub .. | .sll .. | .slt .. | .sltu .. => true
  | .xor .. | .srl .. | .sra .. | .or .. | .and .. => true
  | .fence .. | .ecall | .ebreak => true
  | .csrrw .. | .csrrs .. | .csrrc .. | .csrrwi .. | .csrrsi .. | .csrrci .. => true
  | .addiw .. | .slliw .. | .srliw .. | .sraiw .. => true
  | .addw .. | .subw .. | .sllw .. | .srlw .. | .sraw .. => true
  | .cNop .. | .cLi .. | .cEbreak => true

/-- An instruction the decoder may produce under `c`: its row's gate is enabled and its constraints hold
(30_encoding.md R85). -/
def Instr.wellFormed (c : Config) (i : Instr) : Bool := i.gate.enabled c && i.fieldsOk c.xlen

end Sys2Proof
end

