-- ==== Sys2Proof/Decode.lean ====
section
/-! DEFINITION. The decoder (30_encoding.md), and after it the encoder written from the same tables. -/

namespace Sys2Proof

/-- Why decode gives no instruction: no row of the table matches the word under the configuration (60_exceptions.md
R239); an Immediate's range check fails (R241: it never does); or a byte list ends inside the instruction (no step can
meet this). -/
inductive DecodeError where
  | invalidEncoding
  | invalidImmediate
  | truncated
  deriving DecidableEq, Repr

/-- What the immediate extractor answers. -/
abbrev Extracted := Except Machine.ImmediateError Machine.Immediate

/-- `v[i]` as one bit (00_scope.md R12). -/
abbrev bitAt {n : Nat} (v : BitVec n) (i : Nat) : BitVec 1 := v.extractLsb' i 1

/-! ### Fields of a 32-bit instruction (30_encoding.md R70) -/

def opcodeOf (w : BitVec 32) : BitVec 7 := w.extractLsb 6 0
def rdOf (w : BitVec 32) : RegIdx := w.extractLsb 11 7
def funct3Of (w : BitVec 32) : BitVec 3 := w.extractLsb 14 12
def rs1Of (w : BitVec 32) : RegIdx := w.extractLsb 19 15
def rs2Of (w : BitVec 32) : RegIdx := w.extractLsb 24 20
def funct7Of (w : BitVec 32) : BitVec 7 := w.extractLsb 31 25
/-- funct6 of the RV64 immediate shifts (R71). -/
def funct6Of (w : BitVec 32) : BitVec 6 := w.extractLsb 31 26

/-! ### Immediates of the base formats (30_encoding.md R71, R79) -/

def immI (w : BitVec 32) : BitVec 12 := w.extractLsb 31 20
def immS (w : BitVec 32) : BitVec 12 := w.extractLsb 31 25 ++ w.extractLsb 11 7
def immB (w : BitVec 32) : BitVec 13 :=
  bitAt w 31 ++ bitAt w 7 ++ w.extractLsb 30 25 ++ w.extractLsb 11 8 ++ 0#1
def immU (w : BitVec 32) : BitVec 20 := w.extractLsb 31 12
def immJ (w : BitVec 32) : BitVec 21 :=
  bitAt w 31 ++ w.extractLsb 19 12 ++ bitAt w 20 ++ w.extractLsb 30 21 ++ 0#1
def shamt5 (w : BitVec 32) : BitVec 5 := w.extractLsb 24 20
def shamt6 (w : BitVec 32) : BitVec 6 := w.extractLsb 25 20

/-- An instruction of an RV64-only row (gate RV64I or C,RV64), as the gate lets it through (30_encoding.md R86). -/
def onlyRv64 : XLen → Instr → Option Instr
  | .rv64, i => some i
  | .rv32, _ => none

/-! ### The major opcodes (30_encoding.md R92, R93) -/

def decodeLoad (x : XLen) (w : BitVec 32) : Option Instr :=
  match funct3Of w with
  | 0b000#3 => some (.lb (rdOf w) (rs1Of w) (immI w))
  | 0b001#3 => some (.lh (rdOf w) (rs1Of w) (immI w))
  | 0b010#3 => some (.lw (rdOf w) (rs1Of w) (immI w))
  | 0b011#3 => onlyRv64 x (.ld (rdOf w) (rs1Of w) (immI w))
  | 0b100#3 => some (.lbu (rdOf w) (rs1Of w) (immI w))
  | 0b101#3 => some (.lhu (rdOf w) (rs1Of w) (immI w))
  | 0b110#3 => onlyRv64 x (.lwu (rdOf w) (rs1Of w) (immI w))
  | _ => none

def decodeStore (x : XLen) (w : BitVec 32) : Option Instr :=
  match funct3Of w with
  | 0b000#3 => some (.sb (rs1Of w) (rs2Of w) (immS w))
  | 0b001#3 => some (.sh (rs1Of w) (rs2Of w) (immS w))
  | 0b010#3 => some (.sw (rs1Of w) (rs2Of w) (immS w))
  | 0b011#3 => onlyRv64 x (.sd (rs1Of w) (rs2Of w) (immS w))
  | _ => none

def decodeMiscMem (w : BitVec 32) : Option Instr :=
  match funct3Of w with
  | 0b000#3 =>
    some (.fence (w.extractLsb 31 28) (w.extractLsb 27 24) (w.extractLsb 23 20) (rs1Of w) (rdOf w))
  | _ => none

/-- The immediate shifts of OP-IMM: a 5-bit shamt and funct7 on RV32, a 6-bit shamt and funct6 on RV64 (R71). -/
def decodeOpImmShift (x : XLen) (w : BitVec 32) : Option Instr :=
  match x with
  | .rv32 =>
    match funct3Of w, funct7Of w with
    | 0b001#3, 0b0000000#7 => some (.slli32 (rdOf w) (rs1Of w) (shamt5 w))
    | 0b101#3, 0b0000000#7 => some (.srli32 (rdOf w) (rs1Of w) (shamt5 w))
    | 0b101#3, 0b0100000#7 => some (.srai32 (rdOf w) (rs1Of w) (shamt5 w))
    | _, _ => none
  | .rv64 =>
    match funct3Of w, funct6Of w with
    | 0b001#3, 0b000000#6 => some (.slli64 (rdOf w) (rs1Of w) (shamt6 w))
    | 0b101#3, 0b000000#6 => some (.srli64 (rdOf w) (rs1Of w) (shamt6 w))
    | 0b101#3, 0b010000#6 => some (.srai64 (rdOf w) (rs1Of w) (shamt6 w))
    | _, _ => none

def decodeOpImm (x : XLen) (w : BitVec 32) : Option Instr :=
  match funct3Of w with
  | 0b000#3 => some (.addi (rdOf w) (rs1Of w) (immI w))
  | 0b010#3 => some (.slti (rdOf w) (rs1Of w) (immI w))
  | 0b011#3 => some (.sltiu (rdOf w) (rs1Of w) (immI w))
  | 0b100#3 => some (.xori (rdOf w) (rs1Of w) (immI w))
  | 0b110#3 => some (.ori (rdOf w) (rs1Of w) (immI w))
  | 0b111#3 => some (.andi (rdOf w) (rs1Of w) (immI w))
  | _ => decodeOpImmShift x w

def decodeOp (w : BitVec 32) : Option Instr :=
  match funct7Of w, funct3Of w with
  | 0b0000000#7, 0b000#3 => some (.add (rdOf w) (rs1Of w) (rs2Of w))
  | 0b0100000#7, 0b000#3 => some (.sub (rdOf w) (rs1Of w) (rs2Of w))
  | 0b0000000#7, 0b001#3 => some (.sll (rdOf w) (rs1Of w) (rs2Of w))
  | 0b0000000#7, 0b010#3 => some (.slt (rdOf w) (rs1Of w) (rs2Of w))
  | 0b0000000#7, 0b011#3 => some (.sltu (rdOf w) (rs1Of w) (rs2Of w))
  | 0b0000000#7, 0b100#3 => some (.xor (rdOf w) (rs1Of w) (rs2Of w))
  | 0b0000000#7, 0b101#3 => some (.srl (rdOf w) (rs1Of w) (rs2Of w))
  | 0b0100000#7, 0b101#3 => some (.sra (rdOf w) (rs1Of w) (rs2Of w))
  | 0b0000000#7, 0b110#3 => some (.or (rdOf w) (rs1Of w) (rs2Of w))
  | 0b0000000#7, 0b111#3 => some (.and (rdOf w) (rs1Of w) (rs2Of w))
  | _, _ => none

def decodeOpImm32 (w : BitVec 32) : Option Instr :=
  match funct3Of w, funct7Of w with
  | 0b000#3, _ => some (.addiw (rdOf w) (rs1Of w) (immI w))
  | 0b001#3, 0b0000000#7 => some (.slliw (rdOf w) (rs1Of w) (shamt5 w))
  | 0b101#3, 0b0000000#7 => some (.srliw (rdOf w) (rs1Of w) (shamt5 w))
  | 0b101#3, 0b0100000#7 => some (.sraiw (rdOf w) (rs1Of w) (shamt5 w))
  | _, _ => none

def decodeOp32 (w : BitVec 32) : Option Instr :=
  match funct7Of w, funct3Of w with
  | 0b0000000#7, 0b000#3 => some (.addw (rdOf w) (rs1Of w) (rs2Of w))
  | 0b0100000#7, 0b000#3 => some (.subw (rdOf w) (rs1Of w) (rs2Of w))
  | 0b0000000#7, 0b001#3 => some (.sllw (rdOf w) (rs1Of w) (rs2Of w))
  | 0b0000000#7, 0b101#3 => some (.srlw (rdOf w) (rs1Of w) (rs2Of w))
  | 0b0100000#7, 0b101#3 => some (.sraw (rdOf w) (rs1Of w) (rs2Of w))
  | _, _ => none

def decodeBranch (w : BitVec 32) : Option Instr :=
  match funct3Of w with
  | 0b000#3 => some (.beq (rs1Of w) (rs2Of w) (immB w))
  | 0b001#3 => some (.bne (rs1Of w) (rs2Of w) (immB w))
  | 0b100#3 => some (.blt (rs1Of w) (rs2Of w) (immB w))
  | 0b101#3 => some (.bge (rs1Of w) (rs2Of w) (immB w))
  | 0b110#3 => some (.bltu (rs1Of w) (rs2Of w) (immB w))
  | 0b111#3 => some (.bgeu (rs1Of w) (rs2Of w) (immB w))
  | _ => none

/-- SYSTEM: the six CSR stubs by funct3; with funct3 = 000 only the whole words of ECALL and EBREAK (R72, R104). -/
def decodeSystem (w : BitVec 32) : Option Instr :=
  match funct3Of w with
  | 0b000#3 =>
    if w = 0x00000073#32 then some .ecall
    else if w = 0x00100073#32 then some .ebreak
    else none
  | 0b001#3 => some (.csrrw (rdOf w) (rs1Of w) (immI w))
  | 0b010#3 => some (.csrrs (rdOf w) (rs1Of w) (immI w))
  | 0b011#3 => some (.csrrc (rdOf w) (rs1Of w) (immI w))
  | 0b101#3 => some (.csrrwi (rdOf w) (rs1Of w) (immI w))
  | 0b110#3 => some (.csrrsi (rdOf w) (rs1Of w) (immI w))
  | 0b111#3 => some (.csrrci (rdOf w) (rs1Of w) (immI w))
  | _ => none

/-- The 32-bit instructions (30_encoding.md R92). -/
def decode32 (x : XLen) (w : BitVec 32) : Option Instr :=
  match opcodeOf w with
  | 0b0000011#7 => decodeLoad x w
  | 0b0001111#7 => decodeMiscMem w
  | 0b0010011#7 => decodeOpImm x w
  | 0b0010111#7 => some (.auipc (rdOf w) (immU w))
  | 0b0011011#7 => (decodeOpImm32 w).bind (onlyRv64 x)
  | 0b0100011#7 => decodeStore x w
  | 0b0110011#7 => decodeOp w
  | 0b0110111#7 => some (.lui (rdOf w) (immU w))
  | 0b0111011#7 => (decodeOp32 w).bind (onlyRv64 x)
  | 0b1100011#7 => decodeBranch w
  | 0b1100111#7 => if funct3Of w = 0b000#3 then some (.jalr (rdOf w) (rs1Of w) (immI w)) else none
  | 0b1101111#7 => some (.jal (rdOf w) (immJ w))
  | 0b1110011#7 => decodeSystem w
  | _ => none

/-! ### Fields of a 16-bit instruction (30_encoding.md R82, R83) -/

def quadrantOf (h : BitVec 16) : BitVec 2 := h.extractLsb 1 0
def cFunct3Of (h : BitVec 16) : BitVec 3 := h.extractLsb 15 13
/-- inst[11:7], the 5-bit rd/rs1 field. -/
def cRdOf (h : BitVec 16) : RegIdx := h.extractLsb 11 7
/-- inst[6:2], the 5-bit rs2 field. -/
def cRs2Of (h : BitVec 16) : RegIdx := h.extractLsb 6 2
/-- The GPR a 3-bit compressed field names: 8 + field (R83). -/
def cReg (f : BitVec 3) : RegIdx := 0b01#2 ++ f
/-- inst[9:7] as x8 .. x15: rs1′ and rd′/rs1′. -/
def cRs1'Of (h : BitVec 16) : RegIdx := cReg (h.extractLsb 9 7)
/-- inst[4:2] as x8 .. x15: rd′ and rs2′. -/
def cRd'Of (h : BitVec 16) : RegIdx := cReg (h.extractLsb 4 2)

/-! ### Immediates of the compressed formats (30_encoding.md R84) -/

def immAddi4spn (h : BitVec 16) : BitVec 10 :=
  h.extractLsb 10 7 ++ h.extractLsb 12 11 ++ bitAt h 5 ++ bitAt h 6 ++ 0b00#2
def immClw (h : BitVec 16) : BitVec 7 := bitAt h 5 ++ h.extractLsb 12 10 ++ bitAt h 6 ++ 0b00#2
def immCld (h : BitVec 16) : BitVec 8 := h.extractLsb 6 5 ++ h.extractLsb 12 10 ++ 0b000#3
/-- inst[12] ‖ inst[6:2]: the 6-bit immediate, C.LUI's field and the compressed shamt. -/
def immCi (h : BitVec 16) : BitVec 6 := bitAt h 12 ++ h.extractLsb 6 2
def immAddi16sp (h : BitVec 16) : BitVec 10 :=
  bitAt h 12 ++ h.extractLsb 4 3 ++ bitAt h 5 ++ bitAt h 2 ++ bitAt h 6 ++ 0b0000#4
def immLwsp (h : BitVec 16) : BitVec 8 := h.extractLsb 3 2 ++ bitAt h 12 ++ h.extractLsb 6 4 ++ 0b00#2
def immLdsp (h : BitVec 16) : BitVec 9 := h.extractLsb 4 2 ++ bitAt h 12 ++ h.extractLsb 6 5 ++ 0b000#3
def immSwsp (h : BitVec 16) : BitVec 8 := h.extractLsb 8 7 ++ h.extractLsb 12 9 ++ 0b00#2
def immSdsp (h : BitVec 16) : BitVec 9 := h.extractLsb 9 7 ++ h.extractLsb 12 10 ++ 0b000#3
def immCj (h : BitVec 16) : BitVec 12 :=
  bitAt h 12 ++ bitAt h 8 ++ h.extractLsb 10 9 ++ bitAt h 6 ++ bitAt h 7 ++ bitAt h 2 ++ bitAt h 11
    ++ h.extractLsb 5 3 ++ 0#1
def immCb (h : BitVec 16) : BitVec 9 :=
  bitAt h 12 ++ h.extractLsb 6 5 ++ bitAt h 2 ++ h.extractLsb 11 10 ++ h.extractLsb 4 3 ++ 0#1

/-- An instruction whose constraint (opcode_table.json) holds. -/
def provided (p : Bool) (i : Instr) : Option Instr := if p then some i else none

/-- Quadrant 0 (30_encoding.md R94). -/
def decodeQ0 (x : XLen) (h : BitVec 16) : Option Instr :=
  match cFunct3Of h with
  | 0b000#3 => provided (immAddi4spn h != 0) (.cAddi4spn (cRd'Of h) (immAddi4spn h))
  | 0b010#3 => some (.cLw (cRd'Of h) (cRs1'Of h) (immClw h))
  | 0b011#3 => onlyRv64 x (.cLd (cRd'Of h) (cRs1'Of h) (immCld h))
  | 0b110#3 => some (.cSw (cRs1'Of h) (cRd'Of h) (immClw h))
  | 0b111#3 => onlyRv64 x (.cSd (cRs1'Of h) (cRd'Of h) (immCld h))
  | _ => none

/-- The CA group of quadrant 1 funct3 100, by inst[12] and inst[6:5] (R95). -/
def decodeCa (x : XLen) (h : BitVec 16) : Option Instr :=
  match bitAt h 12, h.extractLsb' 5 2 with
  | 0#1, 0b00#2 => some (.cSub (cRs1'Of h) (cRd'Of h))
  | 0#1, 0b01#2 => some (.cXor (cRs1'Of h) (cRd'Of h))
  | 0#1, 0b10#2 => some (.cOr (cRs1'Of h) (cRd'Of h))
  | 0#1, 0b11#2 => some (.cAnd (cRs1'Of h) (cRd'Of h))
  | 1#1, 0b00#2 => onlyRv64 x (.cSubw (cRs1'Of h) (cRd'Of h))
  | 1#1, 0b01#2 => onlyRv64 x (.cAddw (cRs1'Of h) (cRd'Of h))
  | _, _ => none

/-- Quadrant 1 funct3 100, by inst[11:10] (R95). -/
def decodeMiscAlu (x : XLen) (h : BitVec 16) : Option Instr :=
  match h.extractLsb' 10 2 with
  | 0b00#2 => provided (shamtFits x (immCi h)) (.cSrli (cRs1'Of h) (immCi h))
  | 0b01#2 => provided (shamtFits x (immCi h)) (.cSrai (cRs1'Of h) (immCi h))
  | 0b10#2 => some (.cAndi (cRs1'Of h) (immCi h))
  | _ => decodeCa x h

/-- Quadrant 1 (30_encoding.md R95). -/
def decodeQ1 (x : XLen) (h : BitVec 16) : Option Instr :=
  match cFunct3Of h with
  | 0b000#3 => if cRdOf h = 0 then some (.cNop (immCi h)) else some (.cAddi (cRdOf h) (immCi h))
  | 0b001#3 =>
    match x with
    | .rv32 => some (.cJal (immCj h))
    | .rv64 => provided (cRdOf h != 0) (.cAddiw (cRdOf h) (immCi h))
  | 0b010#3 => some (.cLi (cRdOf h) (immCi h))
  | 0b011#3 =>
    if cRdOf h = 2 then provided (immAddi16sp h != 0) (.cAddi16sp (immAddi16sp h))
    else provided (immCi h != 0) (.cLui (cRdOf h) (immCi h))
  | 0b100#3 => decodeMiscAlu x h
  | 0b101#3 => some (.cJ (immCj h))
  | 0b110#3 => some (.cBeqz (cRs1'Of h) (immCb h))
  | _ => some (.cBnez (cRs1'Of h) (immCb h))

/-- Quadrant 2 funct3 100, by inst[12], rs1 and rs2 (R96). -/
def decodeCr (h : BitVec 16) : Option Instr :=
  if bitAt h 12 = 0 then
    if cRs2Of h = 0 then provided (cRdOf h != 0) (.cJr (cRdOf h)) else some (.cMv (cRdOf h) (cRs2Of h))
  else if cRs2Of h = 0 then
    if cRdOf h = 0 then some .cEbreak else some (.cJalr (cRdOf h))
  else some (.cAdd (cRdOf h) (cRs2Of h))

/-- Quadrant 2 (30_encoding.md R96). -/
def decodeQ2 (x : XLen) (h : BitVec 16) : Option Instr :=
  match cFunct3Of h with
  | 0b000#3 => provided (shamtFits x (immCi h)) (.cSlli (cRdOf h) (immCi h))
  | 0b010#3 => provided (cRdOf h != 0) (.cLwsp (cRdOf h) (immLwsp h))
  | 0b011#3 => (provided (cRdOf h != 0) (.cLdsp (cRdOf h) (immLdsp h))).bind (onlyRv64 x)
  | 0b100#3 => decodeCr h
  | 0b110#3 => some (.cSwsp (cRs2Of h) (immSwsp h))
  | 0b111#3 => onlyRv64 x (.cSdsp (cRs2Of h) (immSdsp h))
  | _ => none

/-- The 16-bit instructions, by quadrant (30_encoding.md R94 to R96). -/
def decode16 (x : XLen) (h : BitVec 16) : Option Instr :=
  match quadrantOf h with
  | 0b00#2 => decodeQ0 x h
  | 0b01#2 => decodeQ1 x h
  | 0b10#2 => decodeQ2 x h
  | _ => none

/-- The rows of the table that match `inst` under `cfg` (30_encoding.md R86): the 48-bit and longer formats match
none (R69), and a 16-bit word matches none when C is disabled. -/
def decodeRow (c : Config) (inst : BitVec 32) : Option Instr :=
  if inst.extractLsb' 0 2 = 0b11#2 then
    if inst.extractLsb' 2 3 = 0b111#3 then none else decode32 c.xlen inst
  else if c.cEnabled then decode16 c.xlen (inst.extractLsb' 0 16)
  else none

/-! ### The immediate extractor (00_scope.md R7; 30_encoding.md R78, R79, R84): bit groups to an Immediate -/

def extractI (w : BitVec 32) : Extracted := Machine.Immediate.extract true false (immI w)
def extractS (w : BitVec 32) : Extracted := Machine.Immediate.extract true false (immS w)
def extractB (w : BitVec 32) : Extracted := Machine.Immediate.extract true true (immB w)
/-- `left_shift(12)` of the 20-bit field. -/
def extractU (w : BitVec 32) : Extracted :=
  (Machine.Immediate.extract false false (immU w)).map (fun im => im.leftShift 12)
def extractJ (w : BitVec 32) : Extracted := Machine.Immediate.extract true true (immJ w)
def extractShamt5 (w : BitVec 32) : Extracted := Machine.Immediate.extract false false (shamt5 w)
def extractShamt6 (w : BitVec 32) : Extracted := Machine.Immediate.extract false false (shamt6 w)
/-- The uimm of CSRRWI, CSRRSI and CSRRCI; the stubs do not use it. -/
def extractUimm (w : BitVec 32) : Extracted := Machine.Immediate.extract false false (rs1Of w)
def extractAddi4spn (h : BitVec 16) : Extracted := Machine.Immediate.extract false true (immAddi4spn h)
def extractClw (h : BitVec 16) : Extracted := Machine.Immediate.extract false true (immClw h)
def extractCld (h : BitVec 16) : Extracted := Machine.Immediate.extract false true (immCld h)
def extractCi (h : BitVec 16) : Extracted := Machine.Immediate.extract true false (immCi h)
def extractAddi16sp (h : BitVec 16) : Extracted := Machine.Immediate.extract true true (immAddi16sp h)
/-- `left_shift(12)` of the 6-bit field. -/
def extractClui (h : BitVec 16) : Extracted :=
  (Machine.Immediate.extract true false (immCi h)).map (fun im => im.leftShift 12)
def extractCshamt (h : BitVec 16) : Extracted := Machine.Immediate.extract false false (immCi h)
def extractLwsp (h : BitVec 16) : Extracted := Machine.Immediate.extract false true (immLwsp h)
def extractLdsp (h : BitVec 16) : Extracted := Machine.Immediate.extract false true (immLdsp h)
def extractSwsp (h : BitVec 16) : Extracted := Machine.Immediate.extract false true (immSwsp h)
def extractSdsp (h : BitVec 16) : Extracted := Machine.Immediate.extract false true (immSdsp h)
def extractCj (h : BitVec 16) : Extracted := Machine.Immediate.extract true true (immCj h)
def extractCb (h : BitVec 16) : Extracted := Machine.Immediate.extract true true (immCb h)

/-- The Immediate extracted for the variant decoded from `inst`; none for a variant that has no Immediate
(30_encoding.md R79, R84, R88). -/
def extractImmediate (inst : BitVec 32) (i : Instr) : Option Extracted :=
  let h := inst.extractLsb' 0 16
  match i with
  | .lui .. | .auipc .. => some (extractU inst)
  | .jal .. => some (extractJ inst)
  | .beq .. | .bne .. | .blt .. | .bge .. | .bltu .. | .bgeu .. => some (extractB inst)
  | .jalr .. | .lb .. | .lh .. | .lw .. | .ld .. | .lbu .. | .lhu .. | .lwu .. => some (extractI inst)
  | .addi .. | .slti .. | .sltiu .. | .xori .. | .ori .. | .andi .. | .addiw .. => some (extractI inst)
  | .sb .. | .sh .. | .sw .. | .sd .. => some (extractS inst)
  | .slli32 .. | .srli32 .. | .srai32 .. | .slliw .. | .srliw .. | .sraiw .. => some (extractShamt5 inst)
  | .slli64 .. | .srli64 .. | .srai64 .. => some (extractShamt6 inst)
  | .csrrwi .. | .csrrsi .. | .csrrci .. => some (extractUimm inst)
  | .cAddi4spn .. => some (extractAddi4spn h)
  | .cLw .. | .cSw .. => some (extractClw h)
  | .cLd .. | .cSd .. => some (extractCld h)
  | .cNop .. | .cAddi .. | .cAddiw .. | .cLi .. | .cAndi .. => some (extractCi h)
  | .cAddi16sp .. => some (extractAddi16sp h)
  | .cLui .. => some (extractClui h)
  | .cSlli .. | .cSrli .. | .cSrai .. => some (extractCshamt h)
  | .cLwsp .. => some (extractLwsp h)
  | .cLdsp .. => some (extractLdsp h)
  | .cSwsp .. => some (extractSwsp h)
  | .cSdsp .. => some (extractSdsp h)
  | .cJ .. | .cJal .. => some (extractCj h)
  | .cBeqz .. | .cBnez .. => some (extractCb h)
  | .add .. | .sub .. | .sll .. | .slt .. | .sltu .. | .xor .. | .srl .. | .sra .. | .or .. | .and .. => none
  | .addw .. | .subw .. | .sllw .. | .srlw .. | .sraw .. => none
  | .fence .. | .ecall | .ebreak | .csrrw .. | .csrrs .. | .csrrc .. => none
  | .cSub .. | .cXor .. | .cOr .. | .cAnd .. | .cSubw .. | .cAddw .. => none
  | .cJr .. | .cMv .. | .cEbreak | .cJalr .. | .cAdd .. => none

/-- `Decode(inst, cfg)`, total on every 32-bit input (30_encoding.md R86, R89): the row, and its Immediate extracted, whose
failure would be InvalidImmediate (R78, 60_exceptions.md R241). -/
def decode (c : Config) (inst : BitVec 32) : Except DecodeError Instr :=
  match decodeRow c inst with
  | none => .error .invalidEncoding
  | some i =>
    match extractImmediate inst i with
    | some (.error .invalidImmediate) => .error .invalidImmediate
    | some (.ok _) => .ok i
    | none => .ok i

/-- The size a decoded Instruction carries (30_encoding.md R88). -/
def Instr.size (i : Instr) : InsnSize :=
  match i.gate with
  | .base | .base32 | .base64 => .four
  | .compressed | .compressed32 | .compressed64 => .two

/-! ### Bytes -/

/-- The instruction at the head of a byte list, read as fetch reads memory (20_memory.md R50, R61), with the rest. -/
def rawOfBytes (c : Config) : List Byte → Option (RawInsn × List Byte)
  | b0 :: b1 :: rest =>
    if c.cEnabled && b0.extractLsb' 0 2 != 0b11#2 then
      some (⟨(b1 ++ b0).setWidth 32, .two⟩, rest)
    else
      match rest with
      | b2 :: b3 :: rest' => some (⟨b3 ++ b2 ++ b1 ++ b0, .four⟩, rest')
      | _ => none
  | _ => none

/-- The decoder on bytes, total: the instruction at their head, and the rest. -/
def decodeBytes (c : Config) (bs : List Byte) : Except DecodeError (Instr × List Byte) :=
  match rawOfBytes c bs with
  | none => .error .truncated
  | some (raw, rest) =>
    match decode c raw.bits with
    | .ok i => .ok (i, rest)
    | .error e => .error e

/-- The bytes of an instruction whose low `nbits` bits are `w` and whose other bits, up to 32, are 0: little-endian,
the first at the lowest address (20_memory.md R50). -/
def tableBytes (nbits w : Nat) : List Byte :=
  let v := w % 2 ^ nbits
  [BitVec.ofNat 8 v, BitVec.ofNat 8 (v / 2 ^ 8), BitVec.ofNat 8 (v / 2 ^ 16), BitVec.ofNat 8 (v / 2 ^ 24)]

/-- Whether the bytes are an instruction under a configuration. -/
def decodesUnder (bs : List Byte) (c : Config) : Bool := (decodeBytes c bs).toOption.isSome

/-- A configuration under which the bytes are an instruction: `c` itself, else `c` with C enabled and XLEN 64,
else with C enabled and XLEN 32, else `c` (rows gated by `cfg` exist in some configurations only, 30_encoding.md
R86; log 13). -/
def configFor (c : Config) (bs : List Byte) : Config :=
  ([c, { c with xlen := .rv64, cEnabled := true }, { c with xlen := .rv32, cEnabled := true }].find?
    (decodesUnder bs)).getD c

/-- The instruction the decoder reads from a word numbered as spec/opcode_table.json numbers it, under the
configuration of `State.reset`, or, for a row that it gates off, under one that has the row (log 13). -/
def decodeTableWord (nbits w : Nat) : Option Instr :=
  ((decodeBytes (configFor Config.default (tableBytes nbits w)) (tableBytes nbits w)).toOption).map (·.1)

/-! ### The encoder (30_encoding.md R70, R71, R72, R82, R84, R91; opcode_table.json) -/

def encR (f7 : BitVec 7) (rs2 rs1 : RegIdx) (f3 : BitVec 3) (rd : RegIdx) (op : BitVec 7) : BitVec 32 :=
  f7 ++ rs2 ++ rs1 ++ f3 ++ rd ++ op
def encI (imm : BitVec 12) (rs1 : RegIdx) (f3 : BitVec 3) (rd : RegIdx) (op : BitVec 7) : BitVec 32 :=
  imm ++ rs1 ++ f3 ++ rd ++ op
/-- The RV64 immediate shifts: funct6 and a 6-bit shamt. -/
def encShift6 (f6 : BitVec 6) (shamt : BitVec 6) (rs1 : RegIdx) (f3 : BitVec 3) (rd : RegIdx) (op : BitVec 7) :
    BitVec 32 := f6 ++ shamt ++ rs1 ++ f3 ++ rd ++ op
def encS (imm : BitVec 12) (rs2 rs1 : RegIdx) (f3 : BitVec 3) (op : BitVec 7) : BitVec 32 :=
  imm.extractLsb 11 5 ++ rs2 ++ rs1 ++ f3 ++ imm.extractLsb 4 0 ++ op
def encB (imm : BitVec 13) (rs2 rs1 : RegIdx) (f3 : BitVec 3) (op : BitVec 7) : BitVec 32 :=
  bitAt imm 12 ++ imm.extractLsb 10 5 ++ rs2 ++ rs1 ++ f3 ++ imm.extractLsb 4 1 ++ bitAt imm 11 ++ op
def encU (imm20 : BitVec 20) (rd : RegIdx) (op : BitVec 7) : BitVec 32 := imm20 ++ rd ++ op
def encJ (imm : BitVec 21) (rd : RegIdx) (op : BitVec 7) : BitVec 32 :=
  bitAt imm 20 ++ imm.extractLsb 10 1 ++ bitAt imm 11 ++ imm.extractLsb 19 12 ++ rd ++ op

/-- The 3-bit field of x8 .. x15 (R83). -/
def cField (r : RegIdx) : BitVec 3 := r.extractLsb' 0 3

def encCr (f4 : BitVec 4) (rd rs2 : RegIdx) : BitVec 16 := f4 ++ rd ++ rs2 ++ 0b10#2
def encCi (f3 : BitVec 3) (imm : BitVec 6) (rd : RegIdx) (op : BitVec 2) : BitVec 16 :=
  f3 ++ bitAt imm 5 ++ rd ++ imm.extractLsb 4 0 ++ op
def encCiw (imm : BitVec 10) (rd : RegIdx) : BitVec 16 :=
  0b000#3 ++ imm.extractLsb 5 4 ++ imm.extractLsb 9 6 ++ bitAt imm 2 ++ bitAt imm 3 ++ cField rd ++ 0b00#2
/-- CL and CS with a word displacement. -/
def encClw (f3 : BitVec 3) (imm : BitVec 7) (rs1 r : RegIdx) : BitVec 16 :=
  f3 ++ imm.extractLsb 5 3 ++ cField rs1 ++ bitAt imm 2 ++ bitAt imm 6 ++ cField r ++ 0b00#2
/-- CL and CS with a doubleword displacement. -/
def encCld (f3 : BitVec 3) (imm : BitVec 8) (rs1 r : RegIdx) : BitVec 16 :=
  f3 ++ imm.extractLsb 5 3 ++ cField rs1 ++ imm.extractLsb 7 6 ++ cField r ++ 0b00#2
def encAddi16sp (imm : BitVec 10) : BitVec 16 :=
  0b011#3 ++ bitAt imm 9 ++ 0b00010#5 ++ bitAt imm 4 ++ bitAt imm 6 ++ imm.extractLsb 8 7 ++ bitAt imm 5 ++ 0b01#2
/-- CB in its shift and ANDI form. -/
def encCbAlu (f2 : BitVec 2) (imm : BitVec 6) (rd : RegIdx) : BitVec 16 :=
  0b100#3 ++ bitAt imm 5 ++ f2 ++ cField rd ++ imm.extractLsb 4 0 ++ 0b01#2
def encCa (f6 : BitVec 6) (rd : RegIdx) (f2 : BitVec 2) (rs2 : RegIdx) : BitVec 16 :=
  f6 ++ cField rd ++ f2 ++ cField rs2 ++ 0b01#2
def encCj (f3 : BitVec 3) (imm : BitVec 12) : BitVec 16 :=
  f3 ++ bitAt imm 11 ++ bitAt imm 4 ++ imm.extractLsb 9 8 ++ bitAt imm 10 ++ bitAt imm 6 ++ bitAt imm 7
    ++ imm.extractLsb 3 1 ++ bitAt imm 5 ++ 0b01#2
def encCb (f3 : BitVec 3) (imm : BitVec 9) (rs1 : RegIdx) : BitVec 16 :=
  f3 ++ bitAt imm 8 ++ imm.extractLsb 4 3 ++ cField rs1 ++ imm.extractLsb 7 6 ++ imm.extractLsb 2 1 ++ bitAt imm 5
    ++ 0b01#2
def encLwsp (imm : BitVec 8) (rd : RegIdx) : BitVec 16 :=
  0b010#3 ++ bitAt imm 5 ++ rd ++ imm.extractLsb 4 2 ++ imm.extractLsb 7 6 ++ 0b10#2
def encLdsp (imm : BitVec 9) (rd : RegIdx) : BitVec 16 :=
  0b011#3 ++ bitAt imm 5 ++ rd ++ imm.extractLsb 4 3 ++ imm.extractLsb 8 6 ++ 0b10#2
def encSwsp (imm : BitVec 8) (rs2 : RegIdx) : BitVec 16 :=
  0b110#3 ++ imm.extractLsb 5 2 ++ imm.extractLsb 7 6 ++ rs2 ++ 0b10#2
def encSdsp (imm : BitVec 9) (rs2 : RegIdx) : BitVec 16 :=
  0b111#3 ++ imm.extractLsb 5 3 ++ imm.extractLsb 8 6 ++ rs2 ++ 0b10#2

/-- A 32-bit instruction's raw form. -/
def rawWord (w : BitVec 32) : RawInsn := ⟨w, .four⟩
/-- A 16-bit instruction's raw form, zero-extended. -/
def rawHalf (h : BitVec 16) : RawInsn := ⟨h.setWidth 32, .two⟩

/-- The words of a well-formed instruction. -/
def encode : Instr → RawInsn
  | .lui rd imm => rawWord (encU imm rd 0b0110111)
  | .auipc rd imm => rawWord (encU imm rd 0b0010111)
  | .jal rd imm => rawWord (encJ imm rd 0b1101111)
  | .jalr rd rs1 imm => rawWord (encI imm rs1 0b000 rd 0b1100111)
  | .beq rs1 rs2 imm => rawWord (encB imm rs2 rs1 0b000 0b1100011)
  | .bne rs1 rs2 imm => rawWord (encB imm rs2 rs1 0b001 0b1100011)
  | .blt rs1 rs2 imm => rawWord (encB imm rs2 rs1 0b100 0b1100011)
  | .bge rs1 rs2 imm => rawWord (encB imm rs2 rs1 0b101 0b1100011)
  | .bltu rs1 rs2 imm => rawWord (encB imm rs2 rs1 0b110 0b1100011)
  | .bgeu rs1 rs2 imm => rawWord (encB imm rs2 rs1 0b111 0b1100011)
  | .lb rd rs1 imm => rawWord (encI imm rs1 0b000 rd 0b0000011)
  | .lh rd rs1 imm => rawWord (encI imm rs1 0b001 rd 0b0000011)
  | .lw rd rs1 imm => rawWord (encI imm rs1 0b010 rd 0b0000011)
  | .ld rd rs1 imm => rawWord (encI imm rs1 0b011 rd 0b0000011)
  | .lbu rd rs1 imm => rawWord (encI imm rs1 0b100 rd 0b0000011)
  | .lhu rd rs1 imm => rawWord (encI imm rs1 0b101 rd 0b0000011)
  | .lwu rd rs1 imm => rawWord (encI imm rs1 0b110 rd 0b0000011)
  | .sb rs1 rs2 imm => rawWord (encS imm rs2 rs1 0b000 0b0100011)
  | .sh rs1 rs2 imm => rawWord (encS imm rs2 rs1 0b001 0b0100011)
  | .sw rs1 rs2 imm => rawWord (encS imm rs2 rs1 0b010 0b0100011)
  | .sd rs1 rs2 imm => rawWord (encS imm rs2 rs1 0b011 0b0100011)
  | .addi rd rs1 imm => rawWord (encI imm rs1 0b000 rd 0b0010011)
  | .slti rd rs1 imm => rawWord (encI imm rs1 0b010 rd 0b0010011)
  | .sltiu rd rs1 imm => rawWord (encI imm rs1 0b011 rd 0b0010011)
  | .xori rd rs1 imm => rawWord (encI imm rs1 0b100 rd 0b0010011)
  | .ori rd rs1 imm => rawWord (encI imm rs1 0b110 rd 0b0010011)
  | .andi rd rs1 imm => rawWord (encI imm rs1 0b111 rd 0b0010011)
  | .slli32 rd rs1 sh => rawWord (encR 0b0000000 sh rs1 0b001 rd 0b0010011)
  | .slli64 rd rs1 sh => rawWord (encShift6 0b000000 sh rs1 0b001 rd 0b0010011)
  | .srli32 rd rs1 sh => rawWord (encR 0b0000000 sh rs1 0b101 rd 0b0010011)
  | .srli64 rd rs1 sh => rawWord (encShift6 0b000000 sh rs1 0b101 rd 0b0010011)
  | .srai32 rd rs1 sh => rawWord (encR 0b0100000 sh rs1 0b101 rd 0b0010011)
  | .srai64 rd rs1 sh => rawWord (encShift6 0b010000 sh rs1 0b101 rd 0b0010011)
  | .add rd rs1 rs2 => rawWord (encR 0b0000000 rs2 rs1 0b000 rd 0b0110011)
  | .sub rd rs1 rs2 => rawWord (encR 0b0100000 rs2 rs1 0b000 rd 0b0110011)
  | .sll rd rs1 rs2 => rawWord (encR 0b0000000 rs2 rs1 0b001 rd 0b0110011)
  | .slt rd rs1 rs2 => rawWord (encR 0b0000000 rs2 rs1 0b010 rd 0b0110011)
  | .sltu rd rs1 rs2 => rawWord (encR 0b0000000 rs2 rs1 0b011 rd 0b0110011)
  | .xor rd rs1 rs2 => rawWord (encR 0b0000000 rs2 rs1 0b100 rd 0b0110011)
  | .srl rd rs1 rs2 => rawWord (encR 0b0000000 rs2 rs1 0b101 rd 0b0110011)
  | .sra rd rs1 rs2 => rawWord (encR 0b0100000 rs2 rs1 0b101 rd 0b0110011)
  | .or rd rs1 rs2 => rawWord (encR 0b0000000 rs2 rs1 0b110 rd 0b0110011)
  | .and rd rs1 rs2 => rawWord (encR 0b0000000 rs2 rs1 0b111 rd 0b0110011)
  | .fence fm pred succ rs1 rd => rawWord (encI (fm ++ pred ++ succ) rs1 0b000 rd 0b0001111)
  | .ecall => rawWord 0x00000073
  | .ebreak => rawWord 0x00100073
  | .csrrw rd rs1 csr => rawWord (encI csr rs1 0b001 rd 0b1110011)
  | .csrrs rd rs1 csr => rawWord (encI csr rs1 0b010 rd 0b1110011)
  | .csrrc rd rs1 csr => rawWord (encI csr rs1 0b011 rd 0b1110011)
  | .csrrwi rd uimm csr => rawWord (encI csr uimm 0b101 rd 0b1110011)
  | .csrrsi rd uimm csr => rawWord (encI csr uimm 0b110 rd 0b1110011)
  | .csrrci rd uimm csr => rawWord (encI csr uimm 0b111 rd 0b1110011)
  | .addiw rd rs1 imm => rawWord (encI imm rs1 0b000 rd 0b0011011)
  | .slliw rd rs1 sh => rawWord (encR 0b0000000 sh rs1 0b001 rd 0b0011011)
  | .srliw rd rs1 sh => rawWord (encR 0b0000000 sh rs1 0b101 rd 0b0011011)
  | .sraiw rd rs1 sh => rawWord (encR 0b0100000 sh rs1 0b101 rd 0b0011011)
  | .addw rd rs1 rs2 => rawWord (encR 0b0000000 rs2 rs1 0b000 rd 0b0111011)
  | .subw rd rs1 rs2 => rawWord (encR 0b0100000 rs2 rs1 0b000 rd 0b0111011)
  | .sllw rd rs1 rs2 => rawWord (encR 0b0000000 rs2 rs1 0b001 rd 0b0111011)
  | .srlw rd rs1 rs2 => rawWord (encR 0b0000000 rs2 rs1 0b101 rd 0b0111011)
  | .sraw rd rs1 rs2 => rawWord (encR 0b0100000 rs2 rs1 0b101 rd 0b0111011)
  | .cAddi4spn rd imm => rawHalf (encCiw imm rd)
  | .cLw rd rs1 imm => rawHalf (encClw 0b010 imm rs1 rd)
  | .cLd rd rs1 imm => rawHalf (encCld 0b011 imm rs1 rd)
  | .cSw rs1 rs2 imm => rawHalf (encClw 0b110 imm rs1 rs2)
  | .cSd rs1 rs2 imm => rawHalf (encCld 0b111 imm rs1 rs2)
  | .cNop imm => rawHalf (encCi 0b000 imm 0 0b01)
  | .cAddi rd imm => rawHalf (encCi 0b000 imm rd 0b01)
  | .cJal imm => rawHalf (encCj 0b001 imm)
  | .cAddiw rd imm => rawHalf (encCi 0b001 imm rd 0b01)
  | .cLi rd imm => rawHalf (encCi 0b010 imm rd 0b01)
  | .cAddi16sp imm => rawHalf (encAddi16sp imm)
  | .cLui rd imm => rawHalf (encCi 0b011 imm rd 0b01)
  | .cSrli rd sh => rawHalf (encCbAlu 0b00 sh rd)
  | .cSrai rd sh => rawHalf (encCbAlu 0b01 sh rd)
  | .cAndi rd imm => rawHalf (encCbAlu 0b10 imm rd)
  | .cSub rd rs2 => rawHalf (encCa 0b100011 rd 0b00 rs2)
  | .cXor rd rs2 => rawHalf (encCa 0b100011 rd 0b01 rs2)
  | .cOr rd rs2 => rawHalf (encCa 0b100011 rd 0b10 rs2)
  | .cAnd rd rs2 => rawHalf (encCa 0b100011 rd 0b11 rs2)
  | .cSubw rd rs2 => rawHalf (encCa 0b100111 rd 0b00 rs2)
  | .cAddw rd rs2 => rawHalf (encCa 0b100111 rd 0b01 rs2)
  | .cJ imm => rawHalf (encCj 0b101 imm)
  | .cBeqz rs1 imm => rawHalf (encCb 0b110 imm rs1)
  | .cBnez rs1 imm => rawHalf (encCb 0b111 imm rs1)
  | .cSlli rd sh => rawHalf (encCi 0b000 sh rd 0b10)
  | .cLwsp rd imm => rawHalf (encLwsp imm rd)
  | .cLdsp rd imm => rawHalf (encLdsp imm rd)
  | .cJr rs1 => rawHalf (encCr 0b1000 rs1 0)
  | .cMv rd rs2 => rawHalf (encCr 0b1000 rd rs2)
  | .cEbreak => rawHalf 0x9002
  | .cJalr rs1 => rawHalf (encCr 0b1001 rs1 0)
  | .cAdd rd rs2 => rawHalf (encCr 0b1001 rd rs2)
  | .cSwsp rs2 imm => rawHalf (encSwsp imm rs2)
  | .cSdsp rs2 imm => rawHalf (encSdsp imm rs2)

end Sys2Proof
end

