-- ==== Sys2Proof/Machine/Memory.lean ====
section
/-! DEFINITION. Memory: one byte-addressed space of 2^XLEN bytes (20_memory.md R42, R50, R59), held as the list of its
nonzero bytes in rising order of address. An unlisted byte reads 0 (log 3). -/

namespace Sys2Proof.Machine

/-- The nonzero bytes of memory, addresses strictly rising. -/
abbrev Memory := List Host.Cell

/-- `mem[a]` (20_memory.md R50). -/
def Memory.read : Memory → Nat → Byte
  | [], _ => 0
  | (k, b) :: m, a => if k = a then b else Memory.read m a

/-- A byte entered at its place in the rising order. -/
def Memory.insert : Memory → Nat → Byte → Memory
  | [], a, b => [(a, b)]
  | (k, c) :: m, a, b => if a < k then (a, b) :: (k, c) :: m else (k, c) :: Memory.insert m a b

/-- `mem[a]` set to `b`; writing 0, which an unlisted byte reads as, removes the entry. -/
def Memory.write (m : Memory) (a : Nat) (b : Byte) : Memory :=
  let m' := m.filter (fun c => c.1 != a)
  if b = 0 then m' else Memory.insert m' a b

/-- The canonical form: addresses strictly rising, and no entry equal to what an unlisted byte reads as. -/
def Memory.wf : Memory → Bool
  | [] => true
  | [(_, b)] => b != 0
  | (a, b) :: (a', b') :: m => b != 0 && decide (a < a') && Memory.wf ((a', b') :: m)

/-- The canonical memory of any list of bytes; of two entries for one address the later wins. -/
def Memory.ofCells (cells : List Host.Cell) : Memory :=
  cells.foldl (fun m c => m.write c.1 c.2) []

/-- `value(a, n)`: n bytes from a on, little-endian, addresses modulo 2^XLEN (20_memory.md R50). -/
def Memory.value (x : XLen) (m : Memory) (a : Nat) : Nat → Nat
  | 0 => 0
  | n + 1 => (m.read (a % 2 ^ x.bits)).toNat + 256 * Memory.value x m (a + 1) n

/-- `load_byte`, `load_half`, `load_word`, `load_double` for n = 1, 2, 4, 8: an 8n-bit unsigned value
(20_memory.md R48, R49). -/
def Memory.load (x : XLen) (m : Memory) (a : Word) (n : Nat) : Word := BitVec.ofNat 64 (m.value x a.toNat n)

/-- The low n bytes of `v` at a, a + 1, …, little-endian, addresses modulo 2^XLEN (20_memory.md R50). -/
def Memory.storeFrom (x : XLen) (m : Memory) (a : Nat) (v : Word) : Nat → Memory
  | 0 => m
  | n + 1 => Memory.storeFrom x (m.write (a % 2 ^ x.bits) (v.setWidth 8)) (a + 1) (v >>> 8) n

/-- `store_byte`, `store_half`, `store_word`, `store_double` for n = 1, 2, 4, 8 (20_memory.md R48, R49). -/
def Memory.store (x : XLen) (m : Memory) (a : Word) (n : Nat) (v : Word) : Memory := m.storeFrom x a.toNat v n

/-- A list of bytes stored at a, a + 1, …, addresses modulo 2^XLEN. -/
def Memory.storeBytes (x : XLen) (m : Memory) (a : Nat) : List Byte → Memory
  | [] => m
  | b :: bs => Memory.storeBytes x (m.write (a % 2 ^ x.bits) b) (a + 1) bs

end Sys2Proof.Machine
end

