-- ==== Sys2Proof/Machine/Params.lean ====
section
/-! DEFINITION. What the configuration means: IALIGN, the admission predicate, validity (00_scope.md R8 to R11). -/

namespace Sys2Proof

/-- IALIGN/8, the instruction-address alignment in bytes: 2 with C, else 4 (00_scope.md R11). -/
def Config.ialignBytes (c : Config) : Nat := if c.cEnabled then 2 else 4

/-- Whether a window refuses an access of `n` bytes at `addr`. -/
def RefusedWindow.refuses (r : RefusedWindow) (addr n : Nat) : Bool :=
  decide (r.lo ≤ addr) && decide (addr ≤ r.hi) && r.nbytes == n

/-- `MEM_ADMITS(addr, n)` (20_memory.md R59), as plain data (log 4). -/
def Config.memAdmits (c : Config) (addr : Word) (n : Nat) : Bool :=
  !c.refusedWindows.any (fun r => r.refuses addr.toNat n)

/-- A valid configuration: XLEN is 32 or 64 (by its type), RESET_PC is a multiple of IALIGN/8 (00_scope.md R10) and
an XLEN-bit value (10_state.md R35; log 8). -/
def Config.valid (c : Config) : Bool :=
  c.resetPc.toNat % c.ialignBytes == 0 && c.xlen.wrap c.resetPc == c.resetPc

end Sys2Proof
end

