-- ==== Sys2Proof/Machine/State.lean ====
section
/-! DEFINITION. The state of the block (10_state.md), the records it emits (45_trace_commit.md), its fault causes
(60_exceptions.md) and its reset (70_reset_and_hazards.md). Plain data. -/

namespace Sys2Proof.Machine

/-- What kind of access MEM_ADMITS refused (60_exceptions.md R238, cause 6). -/
inductive AccessKind where
  | fetch
  | load
  | store
  deriving DecidableEq, Repr

/-- The six fault causes, with the argument each carries (60_exceptions.md R238). -/
inductive Cause where
  /-- Decode: no row of the table matches (R239). -/
  | invalidEncoding
  /-- A system or CSR stub under STRICT_SYSTEM (R240). -/
  | unsupportedOperation
  /-- Unreachable in this block (R241; log 19). -/
  | invalidImmediate
  /-- A control transfer made to a target that is not IALIGN-aligned (41_control_transfer.md R143). -/
  | misalignedTarget (target : Word)
  /-- A load or store at a misaligned address under MISALIGNED_DATA = fault (20_memory.md R51, R52). -/
  | misalignedAccess (ea : Word)
  /-- An access MEM_ADMITS refuses (20_memory.md R51, R52, R61). -/
  | accessFault (kind : AccessKind) (addr : Word)
  deriving DecidableEq, Repr

/-- The halt state (10_state.md R45): `word` is absent when the fetch itself faulted. -/
inductive HaltState where
  | running
  | halted (cause : Cause) (pc : Word) (word : Option RawInsn)
  deriving DecidableEq, Repr

/-- One record of the pending log, and one register-write event of the trace (10_state.md R29, 45 R227). -/
structure RegWrite where
  index : RegIdx
  value : Word
  deriving DecidableEq, Repr

/-- Load or store (45_trace_commit.md R228). -/
inductive MemKind where
  | load
  | store
  deriving DecidableEq, Repr

/-- The granularity of a data access: byte, half, word or double (42_load_store.md R156). -/
inductive Granularity where
  | byte
  | half
  | word
  | double
  deriving DecidableEq, Repr

/-- The memory event of a step; `data` is the 8n-bit unsigned value moved (45_trace_commit.md R228). -/
structure MemEvent where
  kind : MemKind
  granularity : Granularity
  address : Word
  data : Word
  deriving DecidableEq, Repr

/-- The trace record (45_trace_commit.md R226). -/
structure TraceRecord where
  regWrites : List RegWrite
  mem : Option MemEvent
  pcBefore : Word
  pcAfter : Word
  deriving DecidableEq, Repr

/-- The RVFI record, exactly the eleven fields of 45_trace_commit.md R229. -/
structure RvfiRecord where
  valid : Bool
  order : BitVec 64
  insn : BitVec 32
  rs1Addr : RegIdx
  rs1Rdata : Word
  rs2Addr : RegIdx
  rs2Rdata : Word
  rdAddr : RegIdx
  rdWdata : Word
  pcRdata : Word
  pcWdata : Word
  deriving DecidableEq, Repr

/-- The pair of records a retired step emits (45_trace_commit.md R236). -/
structure Emission where
  record : TraceRecord
  rvfi : RvfiRecord
  deriving DecidableEq, Repr

/-- A source register as the executor read it: its number and the value read (45_trace_commit.md R231). -/
structure ReadCapture where
  index : RegIdx
  value : Word
  deriving DecidableEq, Repr

/-- What exists only within a step (10_state.md R43): the fetched instruction, the pending log, the captures of the
source reads, the memory event, and the target the executor set, if it set one (10_state.md R36). -/
structure Stage where
  fetched : Option RawInsn
  log : List RegWrite
  rs1 : Option ReadCapture
  rs2 : Option ReadCapture
  memEvent : Option MemEvent
  target : Option Word
  deriving DecidableEq, Repr

/-- Between two steps: nothing fetched, the log empty, no captures, no target (10_state.md R43, R47). -/
def Stage.idle : Stage :=
  { fetched := none, log := [], rs1 := none, rs2 := none, memEvent := none, target := none }

/-- The state: the configuration (fixed), x0 .. x31, pc, memory, the order counter, the halt state, the state within
a step, and what the trace port has emitted since reset, oldest first (10_state.md R26 to R47). -/
structure State where
  cfg : Config
  regs : Vector Word 32
  pc : Word
  mem : Memory
  order : BitVec 64
  halt : HaltState
  stage : Stage
  trace : List Emission
  deriving DecidableEq, Repr

/-- Why the machine is stuck. -/
inductive Fault where
  /-- Raised by `step` in the halted state, where no step is enabled until reset (60_exceptions.md R243, 93 U15).
  Safe: nothing is claimed to follow. -/
  | noStepEnabled
  deriving DecidableEq, Repr

/-- Why the model gives no meaning. -/
inductive Refusal where
  /-- An instruction that has no meaning yet, by its mnemonic; raised by no arm of this model. Safe. -/
  | notModelled (mnemonic : String)
  /-- Raised by `step` and `State.hostReset` under an invalid configuration: the block is not started
  (00_scope.md R10, 93 U14). Safe. -/
  | invalidConfiguration
  deriving DecidableEq, Repr

/-- The reset state under a configuration and MEM_INIT (10_state.md R47, 70_reset_and_hazards.md R253). -/
def State.resetWith (c : Config) (memInit : List Host.Cell) : State :=
  { cfg := c
    regs := Vector.replicate 32 0
    pc := c.resetPc
    mem := Memory.ofCells memInit
    order := 0
    halt := .running
    stage := Stage.idle
    trace := [] }

/-- The machine right after reset, under `Config.default` and with no byte of MEM_INIT listed (log 2, 3). -/
def State.reset : State := State.resetWith Config.default []

end Sys2Proof.Machine
end

