-- ==== Sys2Proof/Machine/Ops.lean ====
section
/-! DEFINITION. The named operations of a step: register file, captures, memory interface, fetch, taking a fault,
records, commit (10_state.md, 20_memory.md, 45_trace_commit.md, 60_exceptions.md). -/

namespace Sys2Proof.Machine

/-- What `exec` and a meaning answer. -/
abbrev Result := Host.Outcome State Fault Refusal

/-- XLEN of the machine. -/
abbrev State.xlen (s : State) : XLen := s.cfg.xlen

/-- The size in bytes (30_encoding.md R69). -/
def sizeBytes : InsnSize → Word
  | .two => 2
  | .four => 4

/-- n, the bytes a granularity moves (42_load_store.md R156). -/
def Granularity.bytes : Granularity → Nat
  | .byte => 1
  | .half => 2
  | .word => 4
  | .double => 8

/-- The code of a fault cause (60_exceptions.md R238). -/
def Cause.code : Cause → Nat
  | .invalidEncoding => 1
  | .unsupportedOperation => 2
  | .invalidImmediate => 3
  | .misalignedTarget _ => 4
  | .misalignedAccess _ => 5
  | .accessFault _ _ => 6

/-! ### The register file (10_state.md R26 to R33) -/

/-- `x[r]`: x0 reads 0; every other register its last-committed value (10_state.md R27, R28). -/
def State.x (s : State) (r : RegIdx) : Word := if r = 0#5 then 0#64 else s.xlen.wrap s.regs[r.toNat]

/-- `x[r] <- v`: nothing for x0, else `(r, v)` appended to the pending log (10_state.md R27, R29). -/
def State.writeReg (s : State) (r : RegIdx) (v : Word) : State :=
  if r = 0#5 then s
  else { s with stage := { s.stage with log := s.stage.log ++ [⟨r, s.xlen.wrap v⟩] } }

/-- One pending record applied to the live array; x0 is immutable (10_state.md R26, R31). -/
def applyWrite (regs : Vector Word 32) (w : RegWrite) : Vector Word 32 :=
  if w.index = 0#5 then regs else regs.set w.index.toNat w.value

/-- `commit()` on the array: the pending records in log order (10_state.md R31). -/
def commitLog (regs : Vector Word 32) (log : List RegWrite) : Vector Word 32 := log.foldl applyWrite regs

/-! ### What the executor leaves for the emitter (10_state.md R43) -/

/-- The step reads x[r] as rs1 (45_trace_commit.md R231). -/
def State.captureRs1 (s : State) (r : RegIdx) : State :=
  { s with stage := { s.stage with rs1 := some ⟨r, s.x r⟩ } }

/-- The step reads x[r] as rs2 (45_trace_commit.md R231). -/
def State.captureRs2 (s : State) (r : RegIdx) : State :=
  { s with stage := { s.stage with rs2 := some ⟨r, s.x r⟩ } }

/-- `record_mem(kind, gran, addr, data)` (45_trace_commit.md R228). -/
def State.recordMem (s : State) (k : MemKind) (g : Granularity) (addr data : Word) : State :=
  { s with stage := { s.stage with memEvent := some ⟨k, g, addr, data⟩ } }

/-- `pc <- target`: the executor reports a target explicitly (10_state.md R36). -/
def State.setTarget (s : State) (target : Word) : State :=
  { s with stage := { s.stage with target := some target } }

/-! ### Memory (20_memory.md R50 to R54) -/

/-- The checks of MemRead and MemWrite, in their order: alignment, then admission (20_memory.md R51, R52;
42_load_store.md R157). -/
def State.accessCheck (s : State) (k : AccessKind) (addr : Word) (g : Granularity) : Option Cause :=
  if s.cfg.misalignedData = .fault ∧ addr.toNat % g.bytes ≠ 0 then some (.misalignedAccess addr)
  else if s.cfg.memAdmits addr g.bytes then none
  else some (.accessFault k addr)

/-- `MemRead(addr, n)` (20_memory.md R51). -/
def State.memRead (s : State) (addr : Word) (g : Granularity) : Except Cause Word :=
  match s.accessCheck .load addr g with
  | some c => .error c
  | none => .ok (s.mem.load s.xlen addr g.bytes)

/-- `MemWrite(addr, n, v)` (20_memory.md R52). -/
def State.memWrite (s : State) (addr : Word) (g : Granularity) (v : Word) : Except Cause State :=
  match s.accessCheck .store addr g with
  | some c => .error c
  | none => .ok { s with mem := s.mem.store s.xlen addr g.bytes v }

/-- `Fetch(pc)` (20_memory.md R61). -/
def State.fetch (s : State) : Except Cause RawInsn :=
  let hiAddr := s.xlen.wrap (s.pc + 2)
  if s.cfg.cEnabled then
    if s.cfg.memAdmits s.pc 2 then
      let lo : BitVec 16 := (s.mem.load s.xlen s.pc 2).setWidth 16
      if lo.extractLsb' 0 2 = 0b11#2 then
        if s.cfg.memAdmits hiAddr 2 then
          let hi : BitVec 16 := (s.mem.load s.xlen hiAddr 2).setWidth 16
          .ok ⟨hi ++ lo, .four⟩
        else .error (.accessFault .fetch hiAddr)
      else .ok ⟨lo.setWidth 32, .two⟩
    else .error (.accessFault .fetch s.pc)
  else if s.cfg.memAdmits s.pc 4 then .ok ⟨(s.mem.load s.xlen s.pc 4).setWidth 32, .four⟩
  else .error (.accessFault .fetch s.pc)

/-! ### Taking a fault (60_exceptions.md R243) -/

/-- A fault ends the step: the log and the captures are discarded, no register, memory, pc or order changes, nothing
is emitted, and the halt state becomes `halted(cause, pc, word)` (60_exceptions.md R243). There is no trap and no
return from one (R244). -/
def State.haltWith (s : State) (c : Cause) (word : Option RawInsn) : State :=
  { s with stage := Stage.idle, halt := .halted c s.pc word }

/-- The cause of a decode that gives no instruction (60_exceptions.md R239, R241); a step never meets `truncated`. -/
def decodeCause : DecodeError → Cause
  | .invalidEncoding => .invalidEncoding
  | .invalidImmediate => .invalidImmediate
  | .truncated => .invalidEncoding

/-- A fault raised by execute: the word is the one this step fetched (60_exceptions.md R238). -/
def State.raise (s : State) (c : Cause) : State := s.haltWith c s.stage.fetched

/-! ### Records, commit and the end of a retired step (45_trace_commit.md R223 to R235) -/

/-- `next_pc`: the target the executor set, else pc + size (10_state.md R36, R37). -/
def State.nextPc (s : State) (size : InsnSize) : Word :=
  match s.stage.target with
  | some t => t
  | none => s.xlen.wrap (s.pc + sizeBytes size)

/-- The trace record: the pending log, the memory event, pc before and after (45_trace_commit.md R226, R227). -/
def State.traceRecord (s : State) (nextPc : Word) : TraceRecord :=
  { regWrites := s.stage.log, mem := s.stage.memEvent, pcBefore := s.pc, pcAfter := nextPc }

/-- The RVFI record; an unused address or data field is 0 (45_trace_commit.md R229 to R232). -/
def State.rvfiRecord (s : State) (nextPc : Word) : RvfiRecord :=
  let rs1 := s.stage.rs1.getD ⟨0, 0⟩
  let rs2 := s.stage.rs2.getD ⟨0, 0⟩
  let rd := s.stage.log.getLast?.getD ⟨0, 0⟩
  { valid := true
    order := s.order
    insn := (s.stage.fetched.map RawInsn.bits).getD 0
    rs1Addr := rs1.index
    rs1Rdata := rs1.value
    rs2Addr := rs2.index
    rs2Rdata := rs2.value
    rdAddr := rd.index
    rdWdata := rd.value
    pcRdata := s.pc
    pcWdata := nextPc }

/-- The pair of records the step emits. -/
def State.emission (s : State) (nextPc : Word) : Emission := ⟨s.traceRecord nextPc, s.rvfiRecord nextPc⟩

/-- The end of a retired step: emit, commit, pc, order (45_trace_commit.md R223, R235). -/
def State.retire (s : State) (size : InsnSize) : State :=
  { s with
    regs := commitLog s.regs s.stage.log
    pc := s.nextPc size
    order := s.order + 1
    stage := Stage.idle
    trace := s.trace ++ [s.emission (s.nextPc size)] }

/-- Execute has ended: retired with what it left, or a fault taken from the state it began in
(45_trace_commit.md R223; 60_exceptions.md R243). -/
def State.finish (s : State) (size : InsnSize) : Except Cause State → Result
  | .ok t => .next (t.retire size)
  | .error c => .next (s.raise c)

/-- The state execute begins in: everything within the step empty but the fetched instruction
(45_trace_commit.md R223: `log = []`). -/
def State.beginStep (s : State) (raw : RawInsn) : State :=
  { s with stage := { Stage.idle with fetched := some raw } }

end Sys2Proof.Machine
end

