-- ==== Sys2Proof/Machine/Operands.lean ====
section
/-! DEFINITION. Every operand form: immediate operands, effective addresses, link values, jump and branch targets, load
extensions (30_encoding.md R79, R80, R84; 41_control_transfer.md R141, R142; 42_load_store.md R155). -/

namespace Sys2Proof.Machine

/-- A signed Immediate as the XLEN-bit operand (30_encoding.md R79, R81, R84); lsb0 has no part in the value. -/
def signedOperand (x : XLen) {n : Nat} (imm : BitVec n) : Word := (Immediate.ofField true false imm).operand x

/-- An unsigned Immediate as the XLEN-bit operand (30_encoding.md R81, R84); lsb0 has no part in the value. -/
def unsignedOperand (x : XLen) {n : Nat} (imm : BitVec n) : Word := (Immediate.ofField false false imm).operand x

/-- The U-type operand: the field shifted left by 12, then sext_32 (30_encoding.md R79, R80; 90_conflicts.md C5). -/
def upperOperand (x : XLen) (imm20 : BitVec 20) : Word :=
  x.sext (BitVec.ofInt 32 ((Immediate.ofField false false imm20).leftShift 12).value)

/-- C.LUI's operand: the field shifted left by 12, an 18-bit signed Immediate (30_encoding.md R84). -/
def cLuiOperand (x : XLen) (field : BitVec 6) : Word := ((Immediate.ofField true false field).leftShift 12).operand x

/-- A shift amount: an unsigned Immediate's value (30_encoding.md R79, R84). -/
def shamtOperand {n : Nat} (shamt : BitVec n) : Nat := (Immediate.ofField false false shamt).value.toNat

/-- A W form's result `sext_32` (40_integer_alu.md R109). -/
def wordResult (x : XLen) (v : BitVec 32) : Word := x.sext v

/-- The effective address: base plus displacement, modulo 2^XLEN (42_load_store.md R155, 20_memory.md R53). -/
def State.effectiveAddress (s : State) (base : RegIdx) (disp : Word) : Word := s.xlen.wrap (s.x base + disp)

/-- A pc-relative value `pc + offset`, modulo 2^XLEN: JAL and branch targets, AUIPC (41_control_transfer.md R141,
10_state.md R37). -/
def State.pcRelative (s : State) (offset : Word) : Word := s.xlen.wrap (s.pc + offset)

/-- The link value `pc + size` (41_control_transfer.md R142). -/
def State.linkValue (s : State) (size : InsnSize) : Word := s.xlen.wrap (s.pc + sizeBytes size)

/-- The target of JALR: `x[rs1] + offset`, bit 0 cleared when JALR_CLEAR_LSB (41_control_transfer.md R147). -/
def State.jalrTarget (s : State) (rs1 : RegIdx) (offset : Word) : Word :=
  let t := s.xlen.wrap (s.x rs1 + offset)
  if s.cfg.jalrClearLsb then t &&& ~~~1 else t

/-- Whether a target is a multiple of IALIGN/8 (41_control_transfer.md R143). -/
def State.targetAligned (s : State) (target : Word) : Bool := target.toNat % s.cfg.ialignBytes == 0

/-- How a load extends the value read into rd (20_memory.md R56). -/
inductive LoadExt where
  | sign
  | zero
  deriving DecidableEq, Repr

/-- `sext_{8n}(v)` or `zext_{8n}(v)` (42_load_store.md R159 to R165). -/
def loadExtend (x : XLen) (g : Granularity) (e : LoadExt) (v : Word) : Word :=
  match e, g with
  | .sign, .byte => x.sext (v.setWidth 8)
  | .sign, .half => x.sext (v.setWidth 16)
  | .sign, .word => x.sext (v.setWidth 32)
  | .sign, .double => x.sext (v.setWidth 64)
  | .zero, .byte => x.zext (v.setWidth 8)
  | .zero, .half => x.zext (v.setWidth 16)
  | .zero, .word => x.zext (v.setWidth 32)
  | .zero, .double => x.zext (v.setWidth 64)

/-- The low 8n bits of a store's source (42_load_store.md §3). -/
def storeData (g : Granularity) (v : Word) : Word :=
  match g with
  | .byte => (v.setWidth 8).setWidth 64
  | .half => (v.setWidth 16).setWidth 64
  | .word => (v.setWidth 32).setWidth 64
  | .double => v

end Sys2Proof.Machine
end

