-- ==== Sys2Proof/Machine/Executor.lean ====
section
/-! DEFINITION. The shapes execution takes, each written once for both instruction sizes: a compressed instruction is
its expansion with size 2 (44_compressed.md R184). -/

namespace Sys2Proof.Machine

/-- `x[rd] <- v`, no source register read (LUI, AUIPC). -/
def State.writeUpper (s : State) (size : InsnSize) (rd : RegIdx) (v : Word) : Result :=
  s.finish size (.ok (s.writeReg rd v))

/-- `x[rd] <- f(x[rs1])` (OP-IMM, OP-IMM-32 and the immediate shifts). -/
def State.opImm (s : State) (size : InsnSize) (f : Word → Word) (rd rs1 : RegIdx) : Result :=
  s.finish size (.ok ((s.captureRs1 rs1).writeReg rd (f (s.x rs1))))

/-- `x[rd] <- f(x[rs1], x[rs2])` (OP, OP-32). -/
def State.opReg (s : State) (size : InsnSize) (f : Word → Word → Word) (rd rs1 rs2 : RegIdx) : Result :=
  s.finish size (.ok (((s.captureRs1 rs1).captureRs2 rs2).writeReg rd (f (s.x rs1) (s.x rs2))))

/-- The transfer itself: made only to an IALIGN-aligned target, else MisalignedTarget (41_control_transfer.md R143). -/
def State.transfer (s : State) (target : Word) : Except Cause State :=
  if s.targetAligned target then .ok (s.setTarget target) else .error (.misalignedTarget target)

/-- A jump with a link into rd; nothing is written if the target is misaligned (41_control_transfer.md R143, R146). -/
def State.jumpLink (s : State) (size : InsnSize) (rd : RegIdx) (target : Word) : Except Cause State :=
  (s.transfer target).map (fun t => t.writeReg rd (s.linkValue size))

/-- JAL (41_control_transfer.md R146). -/
def State.jumpPc (s : State) (size : InsnSize) (rd : RegIdx) (offset : Word) : Result :=
  s.finish size (s.jumpLink size rd (s.pcRelative offset))

/-- JALR (41_control_transfer.md R147). -/
def State.jumpReg (s : State) (size : InsnSize) (rd rs1 : RegIdx) (offset : Word) : Result :=
  s.finish size ((s.captureRs1 rs1).jumpLink size rd (s.jalrTarget rs1 offset))

/-- A conditional branch (41_control_transfer.md §3): no target and no fault when not taken. -/
def State.branch (s : State) (size : InsnSize) (cond : Word → Word → Bool) (rs1 rs2 : RegIdx) (offset : Word) :
    Result :=
  let t := (s.captureRs1 rs1).captureRs2 rs2
  if cond (s.x rs1) (s.x rs2) then s.finish size (t.transfer (s.pcRelative offset)) else s.finish size (.ok t)

/-- A load (42_load_store.md §2). -/
def State.loadInto (s : State) (size : InsnSize) (g : Granularity) (e : LoadExt) (rd rs1 : RegIdx) (disp : Word) :
    Result :=
  let t := s.captureRs1 rs1
  let ea := s.effectiveAddress rs1 disp
  match t.memRead ea g with
  | .error c => s.finish size (.error c)
  | .ok v => s.finish size (.ok ((t.recordMem .load g ea v).writeReg rd (loadExtend s.xlen g e v)))

/-- A store (42_load_store.md §3). -/
def State.storeFrom (s : State) (size : InsnSize) (g : Granularity) (rs1 rs2 : RegIdx) (disp : Word) : Result :=
  let t := (s.captureRs1 rs1).captureRs2 rs2
  let ea := s.effectiveAddress rs1 disp
  let v := storeData g (s.x rs2)
  match t.memWrite ea g v with
  | .error c => s.finish size (.error c)
  | .ok u => s.finish size (.ok (u.recordMem .store g ea v))

/-- A stub's no-op: no register, memory or target (43_system.md R171). -/
def State.noEffect (s : State) (size : InsnSize) : Result := s.finish size (.ok s)

/-- A system or CSR stub: the no-op, or UnsupportedOperation under STRICT_SYSTEM (43_system.md R172). -/
def State.systemStub (s : State) (size : InsnSize) : Result :=
  if s.cfg.strictSystem then s.finish size (.error .unsupportedOperation) else s.noEffect size

end Sys2Proof.Machine
end

