-- ==== Sys2Proof/Machine/Compressed.lean ====
section
/-! DEFINITION. The compressed instructions (44_compressed.md), each its expansion with size 2 (R184). The implicit registers x0, x1
and x2 stand as the numbers 0, 1 and 2 (10_state.md R34). -/

namespace Sys2Proof.Machine

/-- C.ADDI4SPN: addi rd′, x2, nzuimm (44_compressed.md R188). -/
def execCAddi4spn (rd : RegIdx) (nzuimm : BitVec 10) (s : State) : Result :=
  s.opImm .two (fun a => a + unsignedOperand s.xlen nzuimm) rd 2

/-- C.LW: lw rd′, uimm(rs1′) (44_compressed.md R189). -/
def execCLw (rd rs1 : RegIdx) (uimm : BitVec 7) (s : State) : Result :=
  s.loadInto .two .word .sign rd rs1 (unsignedOperand s.xlen uimm)

/-- C.LD: ld rd′, uimm(rs1′) (44_compressed.md R190). -/
def execCLd (rd rs1 : RegIdx) (uimm : BitVec 8) (s : State) : Result :=
  s.loadInto .two .double .zero rd rs1 (unsignedOperand s.xlen uimm)

/-- C.SW: sw rs2′, uimm(rs1′) (44_compressed.md R191). -/
def execCSw (rs1 rs2 : RegIdx) (uimm : BitVec 7) (s : State) : Result :=
  s.storeFrom .two .word rs1 rs2 (unsignedOperand s.xlen uimm)

/-- C.SD: sd rs2′, uimm(rs1′) (44_compressed.md R192). -/
def execCSd (rs1 rs2 : RegIdx) (uimm : BitVec 8) (s : State) : Result :=
  s.storeFrom .two .double rs1 rs2 (unsignedOperand s.xlen uimm)

/-- C.NOP: addi x0, x0, imm (44_compressed.md R193). -/
def execCNop (imm : BitVec 6) (s : State) : Result := s.opImm .two (fun a => a + signedOperand s.xlen imm) 0 0

/-- C.ADDI: addi rd, rd, imm (44_compressed.md R194). -/
def execCAddi (rd : RegIdx) (imm : BitVec 6) (s : State) : Result :=
  s.opImm .two (fun a => a + signedOperand s.xlen imm) rd rd

/-- C.JAL: jal x1, offset, linking pc + 2 (44_compressed.md R195). -/
def execCJal (imm : BitVec 12) (s : State) : Result := s.jumpPc .two 1 (signedOperand s.xlen imm)

/-- C.ADDIW: addiw rd, rd, imm (44_compressed.md R196). -/
def execCAddiw (rd : RegIdx) (imm : BitVec 6) (s : State) : Result :=
  s.opImm .two (fun a => wordResult s.xlen (low32 (a + signedOperand s.xlen imm))) rd rd

/-- C.LI: addi rd, x0, imm (44_compressed.md R197). -/
def execCLi (rd : RegIdx) (imm : BitVec 6) (s : State) : Result :=
  s.opImm .two (fun a => a + signedOperand s.xlen imm) rd 0

/-- C.ADDI16SP: addi x2, x2, nzimm (44_compressed.md R198). -/
def execCAddi16sp (nzimm : BitVec 10) (s : State) : Result :=
  s.opImm .two (fun a => a + signedOperand s.xlen nzimm) 2 2

/-- C.LUI: lui rd, nzimm (44_compressed.md R199). -/
def execCLui (rd : RegIdx) (nzimm : BitVec 6) (s : State) : Result := s.writeUpper .two rd (cLuiOperand s.xlen nzimm)

/-- C.SRLI: srli rd′, rd′, shamt (44_compressed.md R200). -/
def execCSrli (rd : RegIdx) (shamt : BitVec 6) (s : State) : Result :=
  s.opImm .two (fun a => s.xlen.srl a (shamtOperand shamt)) rd rd

/-- C.SRAI: srai rd′, rd′, shamt (44_compressed.md R201). -/
def execCSrai (rd : RegIdx) (shamt : BitVec 6) (s : State) : Result :=
  s.opImm .two (fun a => s.xlen.sra a (shamtOperand shamt)) rd rd

/-- C.ANDI: andi rd′, rd′, imm (44_compressed.md R202). -/
def execCAndi (rd : RegIdx) (imm : BitVec 6) (s : State) : Result :=
  s.opImm .two (fun a => a &&& signedOperand s.xlen imm) rd rd

/-- C.SUB: sub rd′, rd′, rs2′ (44_compressed.md R203). -/
def execCSub (rd rs2 : RegIdx) (s : State) : Result := s.opReg .two (fun a b => a - b) rd rd rs2

/-- C.XOR: xor rd′, rd′, rs2′ (44_compressed.md R204). -/
def execCXor (rd rs2 : RegIdx) (s : State) : Result := s.opReg .two (fun a b => a ^^^ b) rd rd rs2

/-- C.OR: or rd′, rd′, rs2′ (44_compressed.md R205). -/
def execCOr (rd rs2 : RegIdx) (s : State) : Result := s.opReg .two (fun a b => a ||| b) rd rd rs2

/-- C.AND: and rd′, rd′, rs2′ (44_compressed.md R206). -/
def execCAnd (rd rs2 : RegIdx) (s : State) : Result := s.opReg .two (fun a b => a &&& b) rd rd rs2

/-- C.SUBW: subw rd′, rd′, rs2′ (44_compressed.md R207). -/
def execCSubw (rd rs2 : RegIdx) (s : State) : Result :=
  s.opReg .two (fun a b => wordResult s.xlen (low32 (a - b))) rd rd rs2

/-- C.ADDW: addw rd′, rd′, rs2′ (44_compressed.md R208). -/
def execCAddw (rd rs2 : RegIdx) (s : State) : Result :=
  s.opReg .two (fun a b => wordResult s.xlen (low32 (a + b))) rd rd rs2

/-- C.J: jal x0, offset (44_compressed.md R209). -/
def execCJ (imm : BitVec 12) (s : State) : Result := s.jumpPc .two 0 (signedOperand s.xlen imm)

/-- C.BEQZ: beq rs1′, x0, offset (44_compressed.md R210). -/
def execCBeqz (rs1 : RegIdx) (imm : BitVec 9) (s : State) : Result :=
  s.branch .two (condEq s.xlen) rs1 0 (signedOperand s.xlen imm)

/-- C.BNEZ: bne rs1′, x0, offset (44_compressed.md R211). -/
def execCBnez (rs1 : RegIdx) (imm : BitVec 9) (s : State) : Result :=
  s.branch .two (condNe s.xlen) rs1 0 (signedOperand s.xlen imm)

/-- C.SLLI: slli rd, rd, shamt (44_compressed.md R212). -/
def execCSlli (rd : RegIdx) (shamt : BitVec 6) (s : State) : Result :=
  s.opImm .two (fun a => s.xlen.sll a (shamtOperand shamt)) rd rd

/-- C.LWSP: lw rd, uimm(x2) (44_compressed.md R213). -/
def execCLwsp (rd : RegIdx) (uimm : BitVec 8) (s : State) : Result :=
  s.loadInto .two .word .sign rd 2 (unsignedOperand s.xlen uimm)

/-- C.LDSP: ld rd, uimm(x2) (44_compressed.md R214). -/
def execCLdsp (rd : RegIdx) (uimm : BitVec 9) (s : State) : Result :=
  s.loadInto .two .double .zero rd 2 (unsignedOperand s.xlen uimm)

/-- C.JR: jalr x0, 0(rs1) (44_compressed.md R215). -/
def execCJr (rs1 : RegIdx) (s : State) : Result := s.jumpReg .two 0 rs1 0

/-- C.MV: add rd, x0, rs2 (44_compressed.md R216). -/
def execCMv (rd rs2 : RegIdx) (s : State) : Result := s.opReg .two (fun a b => a + b) rd 0 rs2

/-- C.EBREAK: ebreak (44_compressed.md R217). -/
def execCEbreak (s : State) : Result := s.systemStub .two

/-- C.JALR: jalr x1, 0(rs1), linking pc + 2 (44_compressed.md R218). -/
def execCJalr (rs1 : RegIdx) (s : State) : Result := s.jumpReg .two 1 rs1 0

/-- C.ADD: add rd, rd, rs2 (44_compressed.md R219). -/
def execCAdd (rd rs2 : RegIdx) (s : State) : Result := s.opReg .two (fun a b => a + b) rd rd rs2

/-- C.SWSP: sw rs2, uimm(x2) (44_compressed.md R220). -/
def execCSwsp (rs2 : RegIdx) (uimm : BitVec 8) (s : State) : Result :=
  s.storeFrom .two .word 2 rs2 (unsignedOperand s.xlen uimm)

/-- C.SDSP: sd rs2, uimm(x2) (44_compressed.md R221). -/
def execCSdsp (rs2 : RegIdx) (uimm : BitVec 9) (s : State) : Result :=
  s.storeFrom .two .double 2 rs2 (unsignedOperand s.xlen uimm)

end Sys2Proof.Machine
end

