-- ==== Sys2Proof/Machine/ControlTransfer.lean ====
section
/-! DEFINITION. Jumps and branches (41_control_transfer.md). -/

namespace Sys2Proof.Machine

/-- JAL (41_control_transfer.md R146). -/
def execJal (rd : RegIdx) (imm : BitVec 21) (s : State) : Result := s.jumpPc .four rd (signedOperand s.xlen imm)

/-- JALR (41_control_transfer.md R147). -/
def execJalr (rd rs1 : RegIdx) (imm : BitVec 12) (s : State) : Result :=
  s.jumpReg .four rd rs1 (signedOperand s.xlen imm)

/-- BEQ (41_control_transfer.md R148). -/
def execBeq (rs1 rs2 : RegIdx) (imm : BitVec 13) (s : State) : Result :=
  s.branch .four (condEq s.xlen) rs1 rs2 (signedOperand s.xlen imm)

/-- BNE (41_control_transfer.md R149). -/
def execBne (rs1 rs2 : RegIdx) (imm : BitVec 13) (s : State) : Result :=
  s.branch .four (condNe s.xlen) rs1 rs2 (signedOperand s.xlen imm)

/-- BLT (41_control_transfer.md R150). -/
def execBlt (rs1 rs2 : RegIdx) (imm : BitVec 13) (s : State) : Result :=
  s.branch .four (condLt s.xlen) rs1 rs2 (signedOperand s.xlen imm)

/-- BGE (41_control_transfer.md R151). -/
def execBge (rs1 rs2 : RegIdx) (imm : BitVec 13) (s : State) : Result :=
  s.branch .four (condGe s.xlen) rs1 rs2 (signedOperand s.xlen imm)

/-- BLTU (41_control_transfer.md R152). -/
def execBltu (rs1 rs2 : RegIdx) (imm : BitVec 13) (s : State) : Result :=
  s.branch .four (condLtu s.xlen) rs1 rs2 (signedOperand s.xlen imm)

/-- BGEU (41_control_transfer.md R153). -/
def execBgeu (rs1 rs2 : RegIdx) (imm : BitVec 13) (s : State) : Result :=
  s.branch .four (condGeu s.xlen) rs1 rs2 (signedOperand s.xlen imm)

end Sys2Proof.Machine
end

