-- ==== Sys2Proof/Machine/IntegerAlu.lean ====
section
/-! DEFINITION. The integer ALU instructions (40_integer_alu.md): none faults, none transfers control. -/

namespace Sys2Proof.Machine

/-- LUI (40_integer_alu.md R129). -/
def execLui (rd : RegIdx) (imm20 : BitVec 20) (s : State) : Result :=
  s.writeUpper .four rd (upperOperand s.xlen imm20)

/-- AUIPC: pc is the instruction's own address (40_integer_alu.md R130). -/
def execAuipc (rd : RegIdx) (imm20 : BitVec 20) (s : State) : Result :=
  s.writeUpper .four rd (s.pcRelative (upperOperand s.xlen imm20))

/-- ADDI (40_integer_alu.md R110). -/
def execAddi (rd rs1 : RegIdx) (imm : BitVec 12) (s : State) : Result :=
  s.opImm .four (fun a => a + signedOperand s.xlen imm) rd rs1

/-- SLTI (40_integer_alu.md R111). -/
def execSlti (rd rs1 : RegIdx) (imm : BitVec 12) (s : State) : Result :=
  s.opImm .four (fun a => boolWord (condLt s.xlen a (signedOperand s.xlen imm))) rd rs1

/-- SLTIU (40_integer_alu.md R112). -/
def execSltiu (rd rs1 : RegIdx) (imm : BitVec 12) (s : State) : Result :=
  s.opImm .four (fun a => boolWord (condLtu s.xlen a (signedOperand s.xlen imm))) rd rs1

/-- XORI (40_integer_alu.md R113). -/
def execXori (rd rs1 : RegIdx) (imm : BitVec 12) (s : State) : Result :=
  s.opImm .four (fun a => a ^^^ signedOperand s.xlen imm) rd rs1

/-- ORI (40_integer_alu.md R114). -/
def execOri (rd rs1 : RegIdx) (imm : BitVec 12) (s : State) : Result :=
  s.opImm .four (fun a => a ||| signedOperand s.xlen imm) rd rs1

/-- ANDI (40_integer_alu.md R115). -/
def execAndi (rd rs1 : RegIdx) (imm : BitVec 12) (s : State) : Result :=
  s.opImm .four (fun a => a &&& signedOperand s.xlen imm) rd rs1

/-- SLLI, the RV32 row (40_integer_alu.md R116). -/
def execSlli32 (rd rs1 : RegIdx) (shamt : BitVec 5) (s : State) : Result :=
  s.opImm .four (fun a => s.xlen.sll a (shamtOperand shamt)) rd rs1

/-- SLLI, the RV64 row (40_integer_alu.md R116). -/
def execSlli64 (rd rs1 : RegIdx) (shamt : BitVec 6) (s : State) : Result :=
  s.opImm .four (fun a => s.xlen.sll a (shamtOperand shamt)) rd rs1

/-- SRLI, the RV32 row (40_integer_alu.md R117). -/
def execSrli32 (rd rs1 : RegIdx) (shamt : BitVec 5) (s : State) : Result :=
  s.opImm .four (fun a => s.xlen.srl a (shamtOperand shamt)) rd rs1

/-- SRLI, the RV64 row (40_integer_alu.md R117). -/
def execSrli64 (rd rs1 : RegIdx) (shamt : BitVec 6) (s : State) : Result :=
  s.opImm .four (fun a => s.xlen.srl a (shamtOperand shamt)) rd rs1

/-- SRAI, the RV32 row (40_integer_alu.md R118). -/
def execSrai32 (rd rs1 : RegIdx) (shamt : BitVec 5) (s : State) : Result :=
  s.opImm .four (fun a => s.xlen.sra a (shamtOperand shamt)) rd rs1

/-- SRAI, the RV64 row (40_integer_alu.md R118). -/
def execSrai64 (rd rs1 : RegIdx) (shamt : BitVec 6) (s : State) : Result :=
  s.opImm .four (fun a => s.xlen.sra a (shamtOperand shamt)) rd rs1

/-- ADD (40_integer_alu.md R119). -/
def execAdd (rd rs1 rs2 : RegIdx) (s : State) : Result := s.opReg .four (fun a b => a + b) rd rs1 rs2

/-- SUB (40_integer_alu.md R120). -/
def execSub (rd rs1 rs2 : RegIdx) (s : State) : Result := s.opReg .four (fun a b => a - b) rd rs1 rs2

/-- SLL (40_integer_alu.md R121). -/
def execSll (rd rs1 rs2 : RegIdx) (s : State) : Result :=
  s.opReg .four (fun a b => s.xlen.sll a (s.xlen.shiftAmount b)) rd rs1 rs2

/-- SLT (40_integer_alu.md R122). -/
def execSlt (rd rs1 rs2 : RegIdx) (s : State) : Result :=
  s.opReg .four (fun a b => boolWord (condLt s.xlen a b)) rd rs1 rs2

/-- SLTU (40_integer_alu.md R123). -/
def execSltu (rd rs1 rs2 : RegIdx) (s : State) : Result :=
  s.opReg .four (fun a b => boolWord (condLtu s.xlen a b)) rd rs1 rs2

/-- XOR (40_integer_alu.md R124). -/
def execXor (rd rs1 rs2 : RegIdx) (s : State) : Result := s.opReg .four (fun a b => a ^^^ b) rd rs1 rs2

/-- SRL (40_integer_alu.md R125). -/
def execSrl (rd rs1 rs2 : RegIdx) (s : State) : Result :=
  s.opReg .four (fun a b => s.xlen.srl a (s.xlen.shiftAmount b)) rd rs1 rs2

/-- SRA (40_integer_alu.md R126). -/
def execSra (rd rs1 rs2 : RegIdx) (s : State) : Result :=
  s.opReg .four (fun a b => s.xlen.sra a (s.xlen.shiftAmount b)) rd rs1 rs2

/-- OR (40_integer_alu.md R127). -/
def execOr (rd rs1 rs2 : RegIdx) (s : State) : Result := s.opReg .four (fun a b => a ||| b) rd rs1 rs2

/-- AND (40_integer_alu.md R128). -/
def execAnd (rd rs1 rs2 : RegIdx) (s : State) : Result := s.opReg .four (fun a b => a &&& b) rd rs1 rs2

/-- ADDIW (40_integer_alu.md R131). -/
def execAddiw (rd rs1 : RegIdx) (imm : BitVec 12) (s : State) : Result :=
  s.opImm .four (fun a => wordResult s.xlen (low32 (a + signedOperand s.xlen imm))) rd rs1

/-- SLLIW (40_integer_alu.md R132). -/
def execSlliw (rd rs1 : RegIdx) (shamt : BitVec 5) (s : State) : Result :=
  s.opImm .four (fun a => wordResult s.xlen (low32 a <<< shamtOperand shamt)) rd rs1

/-- SRLIW (40_integer_alu.md R133). -/
def execSrliw (rd rs1 : RegIdx) (shamt : BitVec 5) (s : State) : Result :=
  s.opImm .four (fun a => wordResult s.xlen (low32 a >>> shamtOperand shamt)) rd rs1

/-- SRAIW (40_integer_alu.md R134). -/
def execSraiw (rd rs1 : RegIdx) (shamt : BitVec 5) (s : State) : Result :=
  s.opImm .four (fun a => wordResult s.xlen ((low32 a).sshiftRight (shamtOperand shamt))) rd rs1

/-- ADDW (40_integer_alu.md R135). -/
def execAddw (rd rs1 rs2 : RegIdx) (s : State) : Result :=
  s.opReg .four (fun a b => wordResult s.xlen (low32 (a + b))) rd rs1 rs2

/-- SUBW (40_integer_alu.md R136). -/
def execSubw (rd rs1 rs2 : RegIdx) (s : State) : Result :=
  s.opReg .four (fun a b => wordResult s.xlen (low32 (a - b))) rd rs1 rs2

/-- SLLW (40_integer_alu.md R137). -/
def execSllw (rd rs1 rs2 : RegIdx) (s : State) : Result :=
  s.opReg .four (fun a b => wordResult s.xlen (low32 a <<< shiftAmountW b)) rd rs1 rs2

/-- SRLW (40_integer_alu.md R138). -/
def execSrlw (rd rs1 rs2 : RegIdx) (s : State) : Result :=
  s.opReg .four (fun a b => wordResult s.xlen (low32 a >>> shiftAmountW b)) rd rs1 rs2

/-- SRAW (40_integer_alu.md R139). -/
def execSraw (rd rs1 rs2 : RegIdx) (s : State) : Result :=
  s.opReg .four (fun a b => wordResult s.xlen ((low32 a).sshiftRight (shiftAmountW b))) rd rs1 rs2

end Sys2Proof.Machine
end

