-- ==== Sys2Proof/Machine/LoadStore.lean ====
section
/-! DEFINITION. Loads and stores (42_load_store.md). -/

namespace Sys2Proof.Machine

/-- LB (42_load_store.md R159). -/
def execLb (rd rs1 : RegIdx) (imm : BitVec 12) (s : State) : Result :=
  s.loadInto .four .byte .sign rd rs1 (signedOperand s.xlen imm)

/-- LH (42_load_store.md R160). -/
def execLh (rd rs1 : RegIdx) (imm : BitVec 12) (s : State) : Result :=
  s.loadInto .four .half .sign rd rs1 (signedOperand s.xlen imm)

/-- LW (42_load_store.md R161). -/
def execLw (rd rs1 : RegIdx) (imm : BitVec 12) (s : State) : Result :=
  s.loadInto .four .word .sign rd rs1 (signedOperand s.xlen imm)

/-- LD (42_load_store.md R165). -/
def execLd (rd rs1 : RegIdx) (imm : BitVec 12) (s : State) : Result :=
  s.loadInto .four .double .zero rd rs1 (signedOperand s.xlen imm)

/-- LBU (42_load_store.md R162). -/
def execLbu (rd rs1 : RegIdx) (imm : BitVec 12) (s : State) : Result :=
  s.loadInto .four .byte .zero rd rs1 (signedOperand s.xlen imm)

/-- LHU (42_load_store.md R163). -/
def execLhu (rd rs1 : RegIdx) (imm : BitVec 12) (s : State) : Result :=
  s.loadInto .four .half .zero rd rs1 (signedOperand s.xlen imm)

/-- LWU (42_load_store.md R164). -/
def execLwu (rd rs1 : RegIdx) (imm : BitVec 12) (s : State) : Result :=
  s.loadInto .four .word .zero rd rs1 (signedOperand s.xlen imm)

/-- SB (42_load_store.md R166). -/
def execSb (rs1 rs2 : RegIdx) (imm : BitVec 12) (s : State) : Result :=
  s.storeFrom .four .byte rs1 rs2 (signedOperand s.xlen imm)

/-- SH (42_load_store.md R167). -/
def execSh (rs1 rs2 : RegIdx) (imm : BitVec 12) (s : State) : Result :=
  s.storeFrom .four .half rs1 rs2 (signedOperand s.xlen imm)

/-- SW (42_load_store.md R168). -/
def execSw (rs1 rs2 : RegIdx) (imm : BitVec 12) (s : State) : Result :=
  s.storeFrom .four .word rs1 rs2 (signedOperand s.xlen imm)

/-- SD (42_load_store.md R169). -/
def execSd (rs1 rs2 : RegIdx) (imm : BitVec 12) (s : State) : Result :=
  s.storeFrom .four .double rs1 rs2 (signedOperand s.xlen imm)

end Sys2Proof.Machine
end

