-- ==== Sys2Proof/Machine/System.lean ====
section
/-! DEFINITION. System, CSR and fence stubs (43_system.md). -/

namespace Sys2Proof.Machine

/-- FENCE: every field ignored, no effect, never refused (43_system.md R174). -/
def execFence (_fm _pred _succ : BitVec 4) (_rs1 _rd : RegIdx) (s : State) : Result := s.noEffect .four

/-- ECALL (43_system.md R175). -/
def execEcall (s : State) : Result := s.systemStub .four

/-- EBREAK (43_system.md R176). -/
def execEbreak (s : State) : Result := s.systemStub .four

/-- CSRRW: rd is not written, rs1 is not read, any csr (43_system.md R177, R178). -/
def execCsrrw (_rd _rs1 : RegIdx) (_csr : BitVec 12) (s : State) : Result := s.systemStub .four

/-- CSRRS: rd is not written, rs1 is not read, any csr (43_system.md R177, R179). -/
def execCsrrs (_rd _rs1 : RegIdx) (_csr : BitVec 12) (s : State) : Result := s.systemStub .four

/-- CSRRC: rd is not written, rs1 is not read, any csr (43_system.md R177, R180). -/
def execCsrrc (_rd _rs1 : RegIdx) (_csr : BitVec 12) (s : State) : Result := s.systemStub .four

/-- CSRRWI: rd is not written, rs1 is not read, any csr (43_system.md R177, R181). -/
def execCsrrwi (_rd : RegIdx) (_uimm : BitVec 5) (_csr : BitVec 12) (s : State) : Result := s.systemStub .four

/-- CSRRSI: rd is not written, rs1 is not read, any csr (43_system.md R177, R182). -/
def execCsrrsi (_rd : RegIdx) (_uimm : BitVec 5) (_csr : BitVec 12) (s : State) : Result := s.systemStub .four

/-- CSRRCI: rd is not written, rs1 is not read, any csr (43_system.md R177, R183). -/
def execCsrrci (_rd : RegIdx) (_uimm : BitVec 5) (_csr : BitVec 12) (s : State) : Result := s.systemStub .four

end Sys2Proof.Machine
end

