-- ==== Sys2Proof/Machine/Dispatch.lean ====
section
/-! DEFINITION. The dispatch: one arm per instruction, each one call of its meaning. -/

namespace Sys2Proof.Machine

def exec (i : Instr) (s : State) : Host.Outcome State Fault Refusal :=
  match i with
  | .lui rd imm20 => Sys2Proof.Machine.execLui rd imm20 s
  | .auipc rd imm20 => Sys2Proof.Machine.execAuipc rd imm20 s
  | .jal rd imm => Sys2Proof.Machine.execJal rd imm s
  | .jalr rd rs1 imm => Sys2Proof.Machine.execJalr rd rs1 imm s
  | .beq rs1 rs2 imm => Sys2Proof.Machine.execBeq rs1 rs2 imm s
  | .bne rs1 rs2 imm => Sys2Proof.Machine.execBne rs1 rs2 imm s
  | .blt rs1 rs2 imm => Sys2Proof.Machine.execBlt rs1 rs2 imm s
  | .bge rs1 rs2 imm => Sys2Proof.Machine.execBge rs1 rs2 imm s
  | .bltu rs1 rs2 imm => Sys2Proof.Machine.execBltu rs1 rs2 imm s
  | .bgeu rs1 rs2 imm => Sys2Proof.Machine.execBgeu rs1 rs2 imm s
  | .lb rd rs1 imm => Sys2Proof.Machine.execLb rd rs1 imm s
  | .lh rd rs1 imm => Sys2Proof.Machine.execLh rd rs1 imm s
  | .lw rd rs1 imm => Sys2Proof.Machine.execLw rd rs1 imm s
  | .ld rd rs1 imm => Sys2Proof.Machine.execLd rd rs1 imm s
  | .lbu rd rs1 imm => Sys2Proof.Machine.execLbu rd rs1 imm s
  | .lhu rd rs1 imm => Sys2Proof.Machine.execLhu rd rs1 imm s
  | .lwu rd rs1 imm => Sys2Proof.Machine.execLwu rd rs1 imm s
  | .sb rs1 rs2 imm => Sys2Proof.Machine.execSb rs1 rs2 imm s
  | .sh rs1 rs2 imm => Sys2Proof.Machine.execSh rs1 rs2 imm s
  | .sw rs1 rs2 imm => Sys2Proof.Machine.execSw rs1 rs2 imm s
  | .sd rs1 rs2 imm => Sys2Proof.Machine.execSd rs1 rs2 imm s
  | .addi rd rs1 imm => Sys2Proof.Machine.execAddi rd rs1 imm s
  | .slti rd rs1 imm => Sys2Proof.Machine.execSlti rd rs1 imm s
  | .sltiu rd rs1 imm => Sys2Proof.Machine.execSltiu rd rs1 imm s
  | .xori rd rs1 imm => Sys2Proof.Machine.execXori rd rs1 imm s
  | .ori rd rs1 imm => Sys2Proof.Machine.execOri rd rs1 imm s
  | .andi rd rs1 imm => Sys2Proof.Machine.execAndi rd rs1 imm s
  | .slli32 rd rs1 shamt => Sys2Proof.Machine.execSlli32 rd rs1 shamt s
  | .slli64 rd rs1 shamt => Sys2Proof.Machine.execSlli64 rd rs1 shamt s
  | .srli32 rd rs1 shamt => Sys2Proof.Machine.execSrli32 rd rs1 shamt s
  | .srli64 rd rs1 shamt => Sys2Proof.Machine.execSrli64 rd rs1 shamt s
  | .srai32 rd rs1 shamt => Sys2Proof.Machine.execSrai32 rd rs1 shamt s
  | .srai64 rd rs1 shamt => Sys2Proof.Machine.execSrai64 rd rs1 shamt s
  | .add rd rs1 rs2 => Sys2Proof.Machine.execAdd rd rs1 rs2 s
  | .sub rd rs1 rs2 => Sys2Proof.Machine.execSub rd rs1 rs2 s
  | .sll rd rs1 rs2 => Sys2Proof.Machine.execSll rd rs1 rs2 s
  | .slt rd rs1 rs2 => Sys2Proof.Machine.execSlt rd rs1 rs2 s
  | .sltu rd rs1 rs2 => Sys2Proof.Machine.execSltu rd rs1 rs2 s
  | .xor rd rs1 rs2 => Sys2Proof.Machine.execXor rd rs1 rs2 s
  | .srl rd rs1 rs2 => Sys2Proof.Machine.execSrl rd rs1 rs2 s
  | .sra rd rs1 rs2 => Sys2Proof.Machine.execSra rd rs1 rs2 s
  | .or rd rs1 rs2 => Sys2Proof.Machine.execOr rd rs1 rs2 s
  | .and rd rs1 rs2 => Sys2Proof.Machine.execAnd rd rs1 rs2 s
  | .fence fm pred succ rs1 rd => Sys2Proof.Machine.execFence fm pred succ rs1 rd s
  | .ecall => Sys2Proof.Machine.execEcall s
  | .ebreak => Sys2Proof.Machine.execEbreak s
  | .csrrw rd rs1 csr => Sys2Proof.Machine.execCsrrw rd rs1 csr s
  | .csrrs rd rs1 csr => Sys2Proof.Machine.execCsrrs rd rs1 csr s
  | .csrrc rd rs1 csr => Sys2Proof.Machine.execCsrrc rd rs1 csr s
  | .csrrwi rd uimm csr => Sys2Proof.Machine.execCsrrwi rd uimm csr s
  | .csrrsi rd uimm csr => Sys2Proof.Machine.execCsrrsi rd uimm csr s
  | .csrrci rd uimm csr => Sys2Proof.Machine.execCsrrci rd uimm csr s
  | .addiw rd rs1 imm => Sys2Proof.Machine.execAddiw rd rs1 imm s
  | .slliw rd rs1 shamt => Sys2Proof.Machine.execSlliw rd rs1 shamt s
  | .srliw rd rs1 shamt => Sys2Proof.Machine.execSrliw rd rs1 shamt s
  | .sraiw rd rs1 shamt => Sys2Proof.Machine.execSraiw rd rs1 shamt s
  | .addw rd rs1 rs2 => Sys2Proof.Machine.execAddw rd rs1 rs2 s
  | .subw rd rs1 rs2 => Sys2Proof.Machine.execSubw rd rs1 rs2 s
  | .sllw rd rs1 rs2 => Sys2Proof.Machine.execSllw rd rs1 rs2 s
  | .srlw rd rs1 rs2 => Sys2Proof.Machine.execSrlw rd rs1 rs2 s
  | .sraw rd rs1 rs2 => Sys2Proof.Machine.execSraw rd rs1 rs2 s
  | .cAddi4spn rd nzuimm => Sys2Proof.Machine.execCAddi4spn rd nzuimm s
  | .cLw rd rs1 uimm => Sys2Proof.Machine.execCLw rd rs1 uimm s
  | .cLd rd rs1 uimm => Sys2Proof.Machine.execCLd rd rs1 uimm s
  | .cSw rs1 rs2 uimm => Sys2Proof.Machine.execCSw rs1 rs2 uimm s
  | .cSd rs1 rs2 uimm => Sys2Proof.Machine.execCSd rs1 rs2 uimm s
  | .cNop imm => Sys2Proof.Machine.execCNop imm s
  | .cAddi rd imm => Sys2Proof.Machine.execCAddi rd imm s
  | .cJal imm => Sys2Proof.Machine.execCJal imm s
  | .cAddiw rd imm => Sys2Proof.Machine.execCAddiw rd imm s
  | .cLi rd imm => Sys2Proof.Machine.execCLi rd imm s
  | .cAddi16sp nzimm => Sys2Proof.Machine.execCAddi16sp nzimm s
  | .cLui rd nzimm => Sys2Proof.Machine.execCLui rd nzimm s
  | .cSrli rd shamt => Sys2Proof.Machine.execCSrli rd shamt s
  | .cSrai rd shamt => Sys2Proof.Machine.execCSrai rd shamt s
  | .cAndi rd imm => Sys2Proof.Machine.execCAndi rd imm s
  | .cSub rd rs2 => Sys2Proof.Machine.execCSub rd rs2 s
  | .cXor rd rs2 => Sys2Proof.Machine.execCXor rd rs2 s
  | .cOr rd rs2 => Sys2Proof.Machine.execCOr rd rs2 s
  | .cAnd rd rs2 => Sys2Proof.Machine.execCAnd rd rs2 s
  | .cSubw rd rs2 => Sys2Proof.Machine.execCSubw rd rs2 s
  | .cAddw rd rs2 => Sys2Proof.Machine.execCAddw rd rs2 s
  | .cJ imm => Sys2Proof.Machine.execCJ imm s
  | .cBeqz rs1 imm => Sys2Proof.Machine.execCBeqz rs1 imm s
  | .cBnez rs1 imm => Sys2Proof.Machine.execCBnez rs1 imm s
  | .cSlli rd shamt => Sys2Proof.Machine.execCSlli rd shamt s
  | .cLwsp rd uimm => Sys2Proof.Machine.execCLwsp rd uimm s
  | .cLdsp rd uimm => Sys2Proof.Machine.execCLdsp rd uimm s
  | .cJr rs1 => Sys2Proof.Machine.execCJr rs1 s
  | .cMv rd rs2 => Sys2Proof.Machine.execCMv rd rs2 s
  | .cEbreak => Sys2Proof.Machine.execCEbreak s
  | .cJalr rs1 => Sys2Proof.Machine.execCJalr rs1 s
  | .cAdd rd rs2 => Sys2Proof.Machine.execCAdd rd rs2 s
  | .cSwsp rs2 uimm => Sys2Proof.Machine.execCSwsp rs2 uimm s
  | .cSdsp rs2 uimm => Sys2Proof.Machine.execCSdsp rs2 uimm s

end Sys2Proof.Machine
end

