-- ==== Sys2Proof/Machine/Step.lean ====
section
/-! DEFINITION. One step (45_trace_commit.md R223), the host's reset (70_reset_and_hazards.md R253, R254), and a word placed
where the next step fetches it. -/

namespace Sys2Proof.Machine

/-- One atomic step: fetch, decode, execute, emit, commit (45_trace_commit.md R223). In the halted state no step is
enabled (60_exceptions.md R243); an invalid configuration is refused (00_scope.md R10). -/
def step (s : State) : Host.Outcome State Fault Refusal :=
  if s.cfg.valid then
    match s.halt with
    | .halted _ _ _ => .fault .noStepEnabled
    | .running =>
      match s.fetch with
      | .error c => .next (s.haltWith c none)
      | .ok raw =>
        match decode s.cfg raw.bits with
        | .error e => .next ((s.beginStep raw).raise (decodeCause e))
        | .ok i => exec i (s.beginStep raw)
  else .refused .invalidConfiguration

/-- Reset by the host, at any point between two steps, with a configuration and MEM_INIT of its choice: the whole
state is discarded (70_reset_and_hazards.md R253, R254, R256). -/
def State.hostReset (_s : State) (c : Config) (memInit : List Host.Cell) : Host.Outcome State Fault Refusal :=
  if c.valid then .next (State.resetWith c memInit) else .refused .invalidConfiguration

/-- `s` with a word of the table stored at pc, under a configuration that has its row (log 13). -/
def State.withFetchWord (s : State) (nbits w : Nat) : State :=
  { s with
    cfg := configFor s.cfg (tableBytes nbits w)
    mem := s.mem.storeBytes s.xlen s.pc.toNat (tableBytes nbits w) }

end Sys2Proof.Machine
end

