-- ==== Sys2Proof/Safety.lean ====
section
/-! DEFINITION. What the statements say a result, an extracted Immediate, a step's end, a sound state and the end of a
run are (10_state.md R20, R35, R38, R43; 45_trace_commit.md R233; 70_reset_and_hazards.md R257). -/

namespace Sys2Proof

/-! ### Results, as integers -/

/-- The XLEN-bit vector of an integer, modulo 2^XLEN (00_scope.md R13, 10_state.md R21). -/
def XLen.ofInt (x : XLen) (i : Int) : Word := BitVec.ofNat 64 (i % 2 ^ x.bits).toNat

/-- `sext_N` as an integer: the low N bits of `i` read in two's complement (00_scope.md R13). -/
def sextInt (n : Nat) (i : Int) : Int := if i % 2 ^ n < 2 ^ (n - 1) then i % 2 ^ n else i % 2 ^ n - 2 ^ n

/-- From the word `w` the extractor gives `im` to each of these variants, and `carried` is what a variant read from `w`
says of the operand it carries (30_encoding.md R78, R79, R84, R88). -/
def Extracts (w : BitVec 32) (im : Machine.Immediate) (carried : Prop) (is : List Instr) : Prop :=
  ∀ i ∈ is, extractImmediate w i = some (.ok im) ∧ ∀ c, decode c w = .ok i → carried

end Sys2Proof

namespace Sys2Proof.Machine

/-- The n bytes from `a` on as a little-endian number, addresses modulo 2^XLEN (20_memory.md R50). -/
def State.bytesAt (s : State) (a : Word) (n : Nat) : Nat :=
  ((List.range n).map (fun k => (s.mem.read ((a.toNat + k) % 2 ^ s.xlen.bits)).toNat * 256 ^ k)).sum

/-- Whether a data access passes both checks, MISALIGNED_DATA and MEM_ADMITS (20_memory.md R51, R52). -/
def State.Accessible (s : State) (a : Word) (n : Nat) : Prop :=
  (s.cfg.misalignedData = .split ∨ a.toNat % n = 0) ∧ s.cfg.memAdmits a n = true

/-- The fault a data access raises, the checks in their order: alignment, then admission (20_memory.md R51, R52;
42_load_store.md R157). -/
def State.FaultsWith (s : State) (k : AccessKind) (a : Word) (n : Nat) (c : Cause) : Prop :=
  (s.cfg.misalignedData = .fault ∧ a.toNat % n ≠ 0 ∧ c = .misalignedAccess a) ∨
    ((s.cfg.misalignedData = .split ∨ a.toNat % n = 0) ∧ s.cfg.memAdmits a n = false ∧ c = .accessFault k a)

/-- The address of the next sequential instruction (10_state.md R37). -/
def State.seqPc (s : State) (size : InsnSize) : Word :=
  s.xlen.ofInt (s.pc.toNat + match size with | .two => 2 | .four => 4)

/-! ### What an instruction accesses -/

/-- One data access: its direction, base register, displacement and width (20_memory.md R56). -/
structure DataAccess where
  kind : AccessKind
  base : RegIdx
  disp : Int
  gran : Granularity
  deriving DecidableEq, Repr

/-- The data access an instruction makes; the other instructions make none (20_memory.md R56). -/
def dataAccess : Instr → Option DataAccess
  | .lb _ rs1 imm => some ⟨.load, rs1, imm.toInt, .byte⟩
  | .lh _ rs1 imm => some ⟨.load, rs1, imm.toInt, .half⟩
  | .lw _ rs1 imm => some ⟨.load, rs1, imm.toInt, .word⟩
  | .ld _ rs1 imm => some ⟨.load, rs1, imm.toInt, .double⟩
  | .lbu _ rs1 imm => some ⟨.load, rs1, imm.toInt, .byte⟩
  | .lhu _ rs1 imm => some ⟨.load, rs1, imm.toInt, .half⟩
  | .lwu _ rs1 imm => some ⟨.load, rs1, imm.toInt, .word⟩
  | .sb rs1 _ imm => some ⟨.store, rs1, imm.toInt, .byte⟩
  | .sh rs1 _ imm => some ⟨.store, rs1, imm.toInt, .half⟩
  | .sw rs1 _ imm => some ⟨.store, rs1, imm.toInt, .word⟩
  | .sd rs1 _ imm => some ⟨.store, rs1, imm.toInt, .double⟩
  | .cLw _ rs1 uimm => some ⟨.load, rs1, uimm.toNat, .word⟩
  | .cLd _ rs1 uimm => some ⟨.load, rs1, uimm.toNat, .double⟩
  | .cLwsp _ uimm => some ⟨.load, 2, uimm.toNat, .word⟩
  | .cLdsp _ uimm => some ⟨.load, 2, uimm.toNat, .double⟩
  | .cSw rs1 _ uimm => some ⟨.store, rs1, uimm.toNat, .word⟩
  | .cSd rs1 _ uimm => some ⟨.store, rs1, uimm.toNat, .double⟩
  | .cSwsp _ uimm => some ⟨.store, 2, uimm.toNat, .word⟩
  | .cSdsp _ uimm => some ⟨.store, 2, uimm.toNat, .double⟩
  | .lui .. | .auipc .. | .jal .. | .jalr .. | .beq .. | .bne .. | .blt .. | .bge .. | .bltu .. | .bgeu ..
  | .addi .. | .slti .. | .sltiu .. | .xori .. | .ori .. | .andi .. | .slli32 .. | .slli64 .. | .srli32 ..
  | .srli64 .. | .srai32 .. | .srai64 .. | .add .. | .sub .. | .sll .. | .slt .. | .sltu .. | .xor .. | .srl ..
  | .sra .. | .or .. | .and .. | .fence .. | .ecall | .ebreak | .csrrw .. | .csrrs .. | .csrrc .. | .csrrwi ..
  | .csrrsi .. | .csrrci .. | .addiw .. | .slliw .. | .srliw .. | .sraiw .. | .addw .. | .subw .. | .sllw ..
  | .srlw .. | .sraw .. | .cAddi4spn .. | .cNop .. | .cAddi .. | .cJal .. | .cAddiw .. | .cLi ..
  | .cAddi16sp .. | .cLui .. | .cSrli .. | .cSrai .. | .cAndi .. | .cSub .. | .cXor .. | .cOr .. | .cAnd ..
  | .cSubw .. | .cAddw .. | .cJ .. | .cBeqz .. | .cBnez .. | .cSlli .. | .cJr .. | .cMv .. | .cEbreak
  | .cJalr .. | .cAdd .. => none

/-- The source registers a step reports as rs1 and rs2, 0 for one the instruction does not read
(45_trace_commit.md R231). -/
def sourceRegs : Instr → RegIdx × RegIdx
  | .lui .. | .auipc .. | .jal .. | .fence .. | .ecall | .ebreak | .csrrw .. | .csrrs .. | .csrrc ..
  | .csrrwi .. | .csrrsi .. | .csrrci .. | .cNop .. | .cJal .. | .cLui .. | .cJ .. | .cEbreak => (0, 0)
  | .jalr _ rs1 _ | .lb _ rs1 _ | .lh _ rs1 _ | .lw _ rs1 _ => (rs1, 0)
  | .ld _ rs1 _ | .lbu _ rs1 _ | .lhu _ rs1 _ | .lwu _ rs1 _ => (rs1, 0)
  | .addi _ rs1 _ | .slti _ rs1 _ | .sltiu _ rs1 _ | .xori _ rs1 _ | .ori _ rs1 _ | .andi _ rs1 _ => (rs1, 0)
  | .slli32 _ rs1 _ | .slli64 _ rs1 _ | .srli32 _ rs1 _ | .srli64 _ rs1 _ | .srai32 _ rs1 _ | .srai64 _ rs1 _ => (rs1, 0)
  | .addiw _ rs1 _ | .slliw _ rs1 _ | .srliw _ rs1 _ | .sraiw _ rs1 _ => (rs1, 0)
  | .beq rs1 rs2 _ | .bne rs1 rs2 _ | .blt rs1 rs2 _ | .bge rs1 rs2 _ | .bltu rs1 rs2 _ | .bgeu rs1 rs2 _ => (rs1, rs2)
  | .sb rs1 rs2 _ | .sh rs1 rs2 _ | .sw rs1 rs2 _ | .sd rs1 rs2 _ | .cSw rs1 rs2 _ | .cSd rs1 rs2 _ => (rs1, rs2)
  | .add _ rs1 rs2 | .sub _ rs1 rs2 | .sll _ rs1 rs2 | .slt _ rs1 rs2 | .sltu _ rs1 rs2 => (rs1, rs2)
  | .xor _ rs1 rs2 | .srl _ rs1 rs2 | .sra _ rs1 rs2 | .or _ rs1 rs2 | .and _ rs1 rs2 => (rs1, rs2)
  | .addw _ rs1 rs2 | .subw _ rs1 rs2 | .sllw _ rs1 rs2 | .srlw _ rs1 rs2 | .sraw _ rs1 rs2 => (rs1, rs2)
  | .cLw _ rs1 _ | .cLd _ rs1 _ => (rs1, 0)
  | .cAddi4spn _ _ | .cLwsp _ _ | .cLdsp _ _ => (2, 0)
  | .cAddi16sp _ => (2, 0)
  | .cLi _ _ => (0, 0)
  | .cAddi rd _ | .cAddiw rd _ | .cSrli rd _ | .cSrai rd _ | .cAndi rd _ | .cSlli rd _ => (rd, 0)
  | .cSub rd rs2 | .cXor rd rs2 | .cOr rd rs2 | .cAnd rd rs2 | .cSubw rd rs2 | .cAddw rd rs2 | .cAdd rd rs2 => (rd, rs2)
  | .cMv _ rs2 => (0, rs2)
  | .cBeqz rs1 _ | .cBnez rs1 _ => (rs1, 0)
  | .cJr rs1 | .cJalr rs1 => (rs1, 0)
  | .cSwsp rs2 _ | .cSdsp rs2 _ => (2, rs2)

/-- The stubs that STRICT_SYSTEM makes fault: every stub but FENCE (43_system.md R172, 60_exceptions.md R240). -/
def isStrictStub : Instr → Bool
  | .ecall | .ebreak | .cEbreak | .csrrw .. | .csrrs .. | .csrrc .. | .csrrwi .. | .csrrsi .. | .csrrci .. => true
  | .lui .. | .auipc .. | .jal .. | .jalr .. | .beq .. | .bne .. | .blt .. | .bge .. | .bltu .. | .bgeu ..
  | .lb .. | .lh .. | .lw .. | .ld .. | .lbu .. | .lhu .. | .lwu .. | .sb .. | .sh .. | .sw .. | .sd ..
  | .addi .. | .slti .. | .sltiu .. | .xori .. | .ori .. | .andi .. | .slli32 .. | .slli64 .. | .srli32 ..
  | .srli64 .. | .srai32 .. | .srai64 .. | .add .. | .sub .. | .sll .. | .slt .. | .sltu .. | .xor .. | .srl ..
  | .sra .. | .or .. | .and .. | .fence .. | .addiw .. | .slliw .. | .srliw .. | .sraiw .. | .addw ..
  | .subw .. | .sllw .. | .srlw .. | .sraw .. | .cAddi4spn .. | .cLw .. | .cLd .. | .cSw .. | .cSd ..
  | .cNop .. | .cAddi .. | .cJal .. | .cAddiw .. | .cLi .. | .cAddi16sp .. | .cLui .. | .cSrli .. | .cSrai ..
  | .cAndi .. | .cSub .. | .cXor .. | .cOr .. | .cAnd .. | .cSubw .. | .cAddw .. | .cJ .. | .cBeqz ..
  | .cBnez .. | .cSlli .. | .cLwsp .. | .cLdsp .. | .cJr .. | .cMv .. | .cJalr .. | .cAdd .. | .cSwsp ..
  | .cSdsp .. => false

/-- The address a data access goes to: base plus displacement, modulo 2^XLEN (42_load_store.md R155). -/
def State.accessAddress (s : State) (a : DataAccess) : Word := s.xlen.ofInt ((s.x a.base).toNat + a.disp)

/-- JALR's target: `x[rs1] + imm` modulo 2^XLEN, made even when JALR_CLEAR_LSB (41_control_transfer.md R147). -/
def State.jumpTarget (s : State) (rs1 : RegIdx) (imm : Int) : Word :=
  let t := s.xlen.ofInt ((s.x rs1).toNat + imm)
  if s.cfg.jalrClearLsb then BitVec.ofNat 64 (t.toNat / 2 * 2) else t

/-- The target of JAL and of the branches: pc plus the offset, modulo 2^XLEN (41_control_transfer.md R141). -/
def State.pcTarget (s : State) (offset : Int) : Word := s.xlen.ofInt (s.pc.toNat + offset)

/-- A target is a multiple of IALIGN/8: of 2 with C, of 4 without (41_control_transfer.md R143). -/
def State.TargetOk (s : State) (target : Word) : Prop := target.toNat % (if s.cfg.cEnabled then 2 else 4) = 0

/-! ### How a step of one instruction ends -/

/-- `t` is `s` after a retired step that writes `v` into x[rd] and no other register, with the memory event `ev`, and
goes to `pc'`; `rd = 0` stands for no register at all. Memory is said apart. -/
structure State.RetiresTo (s t : State) (pc' : Word) (rd : RegIdx) (v : Word) (ev : Option MemEvent) : Prop where
  regs : ∀ r, t.x r = if r = 0#5 then 0#64 else if r = rd then v else s.x r
  pc : t.pc = pc'
  order : t.order = s.order + 1
  cfg : t.cfg = s.cfg
  halt : t.halt = s.halt
  stage : t.stage = Stage.idle
  trace : ∃ rvfi, t.trace = s.trace ++ [⟨⟨if rd = 0#5 then [] else [⟨rd, v⟩], ev, s.pc, pc'⟩, rvfi⟩]

/-- A retired step whose only effect is on x[rd] and the pc, which goes on to the next instruction. -/
def State.WritesReg (s t : State) (size : InsnSize) (rd : RegIdx) (v : Word) : Prop :=
  s.RetiresTo t (s.seqPc size) rd v none ∧ t.mem = s.mem

/-- A step that faults: nothing changes but the halt state; nothing is emitted (60_exceptions.md R243). -/
def State.HaltsAt (s t : State) (c : Cause) : Prop :=
  t = { s with stage := Stage.idle, halt := .halted c s.pc s.stage.fetched }

/-! ### Sound states -/

/-- A state as a step hands it to execute: nothing within the step yet but the fetched instruction
(45_trace_commit.md R223). -/
def State.Ready (s : State) : Prop := s.stage = { Stage.idle with fetched := s.stage.fetched }

/-- Every byte listed lies in the space of 2^XLEN addresses (20_memory.md R50). -/
def Memory.inSpace (x : XLen) (m : Memory) : Bool := m.all (fun c => decide (c.1 < 2 ^ x.bits))

/-- The register cells hold XLEN-bit values and cell 0 holds 0 (10_state.md R20, R27). -/
def State.RegsOk (s : State) : Prop :=
  s.regs[0] = 0#64 ∧ ∀ (i : Nat) (h : i < 32), s.xlen.wrap s.regs[i] = s.regs[i]

/-- The halt state is consistent: it names the pc, which a fault keeps, a cause a step can raise, and a word unless
the fetch itself faulted (60_exceptions.md R238, R241, R243). -/
def State.HaltOk (s : State) : Prop :=
  match s.halt with
  | .running => True
  | .halted c pc word => pc = s.pc ∧ c ≠ .invalidImmediate ∧ (word = none → ∃ a, c = .accessFault .fetch a)

/-- What holds at reset and every step keeps: a valid configuration; an XLEN-bit, IALIGN-aligned pc (10_state.md R35,
R38); sound registers; a canonical memory inside the space; nothing within a step (R43); a consistent halt state. -/
structure State.Inv (s : State) : Prop where
  cfgValid : s.cfg.valid = true
  pcWidth : s.xlen.wrap s.pc = s.pc
  pcAligned : s.pc.toNat % s.cfg.ialignBytes = 0
  regsOk : s.RegsOk
  memWf : s.mem.wf = true
  memInSpace : s.mem.inSpace s.xlen = true
  stageIdle : s.stage = Stage.idle
  haltOk : s.HaltOk

/-- The trace is the record of a run: the k-th record is numbered k, the order counter counts them
(45_trace_commit.md R233, 10_state.md R44), the first starts at RESET_PC, each starts where the one before it went,
and the last went to pc. -/
structure State.TraceOk (s : State) : Prop where
  counts : s.order = BitVec.ofNat 64 s.trace.length
  numbered : ∀ (k : Nat) (h : k < s.trace.length), s.trace[k].rvfi.order = BitVec.ofNat 64 k
  starts : ∀ e, s.trace.head? = some e → e.rvfi.pcRdata = s.cfg.resetPc
  chained : ∀ (k : Nat) (h : k + 1 < s.trace.length), s.trace[k + 1].rvfi.pcRdata = s.trace[k].rvfi.pcWdata
  ends : s.pc = (s.trace.getLast?.map (fun e => e.rvfi.pcWdata)).getD s.cfg.resetPc

/-- How a run that the host bounds by a number of steps stands (70_reset_and_hazards.md R257). -/
inductive RunEnd where
  | reachedEnd (s : State)
  | faulted (s : State)
  | outOfFuel (s : State)
  | notStarted
  deriving DecidableEq, Repr

/-- At a step boundary: faulted if halted, ended if pc = END_PC (70_reset_and_hazards.md R257). The block itself detects
nothing at END_PC; this is the host's reading. -/
def State.boundary (s : State) : Option RunEnd :=
  match s.halt with
  | .halted _ _ _ => some (.faulted s)
  | .running => if s.cfg.endPc = some s.pc then some (.reachedEnd s) else none

/-- A run of at most `n` steps (70_reset_and_hazards.md R257). -/
def hostRun : Nat → State → RunEnd
  | 0, s => s.boundary.getD (.outOfFuel s)
  | n + 1, s =>
    match s.boundary with
    | some e => e
    | none =>
      match step s with
      | .next t => hostRun n t
      | .fault _ => .faulted s
      | .refused _ => .notStarted

end Sys2Proof.Machine
end

