-- ==== Sys2Proof/Certificates/Slice0/Obligations.lean ====
section
/-! DEFINITION. The statements for the provers. Results are integers modulo 2^XLEN (XLen.ofInt); a completed instruction
is a state `t` with `exec i s = .next t` and what `t` holds (State.RetiresTo, State.WritesReg). -/

open Sys2Proof Sys2Proof.Machine

/-- Decoding the encoding of a well-formed instruction gives it back, at every operand value and in every configuration.
30_encoding.md R91: decode(encode(instr)) == instr, for all 95 forms at every operand the encoding admits. -/
def Obligations.DecodeInvertsEncode : Prop :=
  ∀ (c : Config) (i : Instr), i.wellFormed c = true →
    decode c (encode i).bits = .ok i ∧ (encode i).size = i.size

/-- Whatever the decoder accepts is well formed, and encodes back to the word it was read from.
30_encoding.md R86, R87: every row is matched on its fixed bits, and every other bit is an operand bit. -/
def Obligations.DecodeIsExact : Prop :=
  ∀ (c : Config) (w : BitVec 32) (i : Instr), decode c w = .ok i →
    i.wellFormed c = true ∧
    (encode i).bits = (match i.size with | .four => w | .two => (w.setWidth 16).setWidth 32)

/-- Words written out from the encodings decode to the instruction they stand for, one per family.
Sanity: one word of each family, its fields written apart. -/
def Obligations.WrittenWordsDecode : Prop :=
  decode { Config.default with xlen := .rv32 } 0b111111111001_00001_000_00010_0010011#32 = .ok (.addi 2 1 (-7)) ∧
    decode { Config.default with xlen := .rv32 } 0b0_0000000100_0_00000000_00001_1101111#32 = .ok (.jal 1 8) ∧
    decode Config.default 0b0000000_00010_00001_000_0100_0_1100011#32 = .ok (.beq 1 2 8) ∧
    decode Config.default 0b0000000_00011_00010_011_01000_0100011#32 = .ok (.sd 2 3 8) ∧
    decode Config.default 0b000000001000_00010_011_00011_0000011#32 = .ok (.ld 3 2 8) ∧
    decode Config.default 0b00010010001101000101_00101_0110111#32 = .ok (.lui 5 0x12345) ∧
    decode Config.default 0b0100000_00011_00010_101_00001_0111011#32 = .ok (.sraw 1 2 3) ∧
    decode Config.default 0b001100000000_00010_001_00001_1110011#32 = .ok (.csrrw 1 2 0x300) ∧
    decode Config.default 0b0000_1111_1111_00000_000_00000_0001111#32 = .ok (.fence 0 15 15 0 0) ∧
    decode Config.default (BitVec.setWidth 32 0b010_0_00101_00011_01#16) = .ok (.cLi 5 3) ∧
    decode { Config.default with xlen := .rv32 } (BitVec.setWidth 32 0b001_00000000001_01#16) = .ok (.cJal 0x020)

/-- The defined-illegal words, FENCE.I, the privileged SYSTEM words and the custom opcodes are invalid in every configuration.
30_encoding.md R97, R102, R104. -/
def Obligations.IllegalWordsAreInvalid : Prop :=
  ∀ (c : Config) (w : BitVec 32),
    ((w.setWidth 16 = 0#16 ∨ w = 0xFFFFFFFF#32) → decode c w = .error .invalidEncoding) ∧
    ((w.setWidth 7 = 0b0001111#7 ∧ w.extractLsb' 12 3 ≠ 0b000#3) → decode c w = .error .invalidEncoding) ∧
    ((w.setWidth 7 = 0b1110011#7 ∧ w.extractLsb' 12 3 = 0b000#3 ∧ w ≠ 0x00000073#32 ∧ w ≠ 0x00100073#32) →
      decode c w = .error .invalidEncoding) ∧
    ((w.setWidth 7 = 0b0001011#7 ∨ w.setWidth 7 = 0b0101011#7 ∨ w.setWidth 7 = 0b1011011#7 ∨
        w.setWidth 7 = 0b1111011#7) → decode c w = .error .invalidEncoding)

/-- Without C the 16-bit words, in every configuration the longer formats, and on RV32 the words that only RV64 rows match are invalid.
30_encoding.md R69, R92 to R96, R98, R99; 40_integer_alu.md R109; 60_exceptions.md R239. -/
def Obligations.GatedEncodingsAreInvalid : Prop :=
  ∀ (c : Config) (w : BitVec 32),
    ((w.setWidth 2 ≠ 0b11#2 ∧ c.cEnabled = false) → decode c w = .error .invalidEncoding) ∧
    (w.setWidth 5 = 0b11111#5 → decode c w = .error .invalidEncoding) ∧
    (c.xlen = .rv32 →
      ((w.setWidth 7 = 0b0011011#7 ∨ w.setWidth 7 = 0b0111011#7) → decode c w = .error .invalidEncoding) ∧
      ((w.setWidth 7 = 0b0000011#7 ∧ (w.extractLsb' 12 3 = 0b011#3 ∨ w.extractLsb' 12 3 = 0b110#3)) →
        decode c w = .error .invalidEncoding) ∧
      ((w.setWidth 7 = 0b0100011#7 ∧ w.extractLsb' 12 3 = 0b011#3) → decode c w = .error .invalidEncoding) ∧
      ((w.setWidth 7 = 0b0010011#7 ∧ (w.extractLsb' 12 3 = 0b001#3 ∨ w.extractLsb' 12 3 = 0b101#3) ∧
          w.getLsbD 25 = true) → decode c w = .error .invalidEncoding) ∧
      ((w.setWidth 2 = 0b00#2 ∧ (w.extractLsb' 13 3 = 0b011#3 ∨ w.extractLsb' 13 3 = 0b111#3)) →
        decode c w = .error .invalidEncoding) ∧
      ((w.setWidth 2 = 0b10#2 ∧ (w.extractLsb' 13 3 = 0b011#3 ∨ w.extractLsb' 13 3 = 0b111#3)) →
        decode c w = .error .invalidEncoding) ∧
      ((w.setWidth 2 = 0b01#2 ∧ w.extractLsb' 13 3 = 0b100#3 ∧ w.extractLsb' 10 3 = 0b111#3) →
        decode c w = .error .invalidEncoding) ∧
      ((w.setWidth 2 = 0b10#2 ∧ w.extractLsb' 13 3 = 0b000#3 ∧ w.getLsbD 12 = true) →
        decode c w = .error .invalidEncoding) ∧
      ((w.setWidth 2 = 0b01#2 ∧ w.extractLsb' 13 3 = 0b100#3 ∧ w.getLsbD 12 = true ∧
          (w.extractLsb' 10 2 = 0b00#2 ∨ w.extractLsb' 10 2 = 0b01#2)) → decode c w = .error .invalidEncoding))

/-- set_from_bits never fails on a field as wide as its Immediate, and reads it in two's complement.
30_encoding.md R75, R78. -/
def Obligations.SetFromBitsReadsTwosComplement : Prop :=
  ∀ (bits raw : Nat) (signed lsb0 : Bool), 0 < bits → raw < 2 ^ bits → (lsb0 = true → raw % 2 = 0) →
    (Immediate.blank bits signed lsb0).setFromBits raw =
      .ok { bits := bits, signed := signed, lsb0 := lsb0, value := if signed then sextInt bits raw else raw }

/-- set stores a value exactly when it is in range, non-negative if unsigned and even if lsb0.
30_encoding.md R74. -/
def Obligations.SetChecksRange : Prop :=
  ∀ (im : Immediate) (v : Int),
    (((im.lsb0 = true ∧ v % 2 ≠ 0) ∨ (im.signed = false ∧ v < 0) ∨ v < im.min ∨ im.max < v) →
      im.set v = .error .invalidImmediate) ∧
    ((¬(im.lsb0 = true ∧ v % 2 ≠ 0) ∧ ¬(im.signed = false ∧ v < 0) ∧ im.min ≤ v ∧ v ≤ im.max) →
      im.set v = .ok { im with value := v })

/-- An operand is the Immediate's value modulo 2^XLEN, which is its sign or zero extension.
30_encoding.md R81, 10_state.md R21. -/
def Obligations.OperandsAreSignExtensions : Prop :=
  ∀ (x : XLen) (n : Nat) (v : BitVec n), 0 < n → n ≤ 32 →
    (signedOperand x v = x.ofInt v.toInt ∧
      ∃ im, (Immediate.blank n true false).setFromBits v.toNat = .ok im ∧ im.operand x = signedOperand x v) ∧
    (unsignedOperand x v = x.ofInt v.toNat ∧
      ∃ im, (Immediate.blank n false false).setFromBits v.toNat = .ok im ∧ im.operand x = unsignedOperand x v)

/-- Reset under a valid configuration gives the reset state, from any state; an invalid configuration is refused.
70_reset_and_hazards.md R253, R254; 00_scope.md R10. Config.valid also asks that RESET_PC be an XLEN-bit value (log 8, DEDUCED). Which byte wins when the host lists an address twice, and what an unlisted byte reads, are the model's (log 3) and not stated here. -/
def Obligations.ResetState : Prop :=
  ∀ (s : State) (c : Config) (m : List Host.Cell),
    (c.valid = true → ∃ t, s.hostReset c m = .next t ∧ t.cfg = c ∧ (∀ r, t.x r = 0) ∧ t.pc = c.resetPc ∧ t.order = 0 ∧
      t.halt = .running ∧ t.stage = Stage.idle ∧
      (∀ a b, (a, b) ∈ m → (∀ b', (a, b') ∈ m → b' = b) → t.mem.read a = b)) ∧
    (c.valid = false → s.hostReset c m = .refused .invalidConfiguration)

/-- The reset state satisfies the machine invariant.
The base case of StepKeepsInvariant. -/
def Obligations.ResetSatisfiesInvariant : Prop :=
  (∀ (c : Config) (m : List Host.Cell), c.valid = true → (∀ e ∈ m, e.1 < 2 ^ c.xlen.bits) →
      (State.resetWith c m).Inv) ∧ State.reset.Inv

/-- Every step keeps the machine invariant.
10_state.md R20, R27, R35, R38, R43; 60_exceptions.md R241. The canonical form of memory is the model's own (log 3). -/
def Obligations.StepKeepsInvariant : Prop :=
  ∀ s t : State, s.Inv → step s = .next t → t.Inv

/-- The reset state has an empty, consistent trace.
The base case of StepKeepsTrace. The history list is the model's own field (log 10). -/
def Obligations.ResetStartsTrace : Prop :=
  ∀ (c : Config) (m : List Host.Cell), (State.resetWith c m).TraceOk ∧ (State.resetWith c m).trace = []

/-- Every step keeps the trace a gapless record of the run.
45_trace_commit.md R233, R236; 10_state.md R44. The counter wraps at 2^64 (log 20). -/
def Obligations.StepKeepsTrace : Prop :=
  ∀ s t : State, s.Inv → s.TraceOk → step s = .next t → t.TraceOk

/-- A step runs the instruction decoded from the bytes at pc.
45_trace_commit.md R223. Nothing is done around exec: what a retired step adds (emission, commit, pc, order) is in every meaning. -/
def Obligations.StepRunsDecoded : Prop :=
  ∀ (s : State) (raw : RawInsn) (i : Instr), s.cfg.valid = true → s.halt = .running → s.fetch = .ok raw →
    decode s.cfg raw.bits = .ok i → step s = exec i (s.beginStep raw) ∧ (s.beginStep raw).Ready

/-- When the bytes at pc are the encoding of a well-formed instruction, the step runs exactly that instruction.
45_trace_commit.md R223, 20_memory.md R61, 30_encoding.md R91. -/
def Obligations.StepRunsEncoded : Prop :=
  ∀ (s : State) (i : Instr), s.Inv → s.halt = .running → i.wellFormed s.cfg = true →
    s.bytesAt s.pc (match i.size with | .two => 2 | .four => 4) = (encode i).bits.toNat →
    (s.cfg.cEnabled = true → s.cfg.memAdmits s.pc 2 = true ∧
      (i.size = .four → s.cfg.memAdmits (s.xlen.ofInt (s.pc.toNat + 2)) 2 = true)) →
    (s.cfg.cEnabled = false → s.cfg.memAdmits s.pc 4 = true) →
    step s = exec i (s.beginStep (encode i))

/-- Fetch reads one or two halfwords with C, one word without, each read checked against MEM_ADMITS first.
20_memory.md R61. -/
def Obligations.FetchFollowsRule : Prop :=
  ∀ s : State,
    (s.cfg.cEnabled = true → s.cfg.memAdmits s.pc 2 = false → s.fetch = .error (.accessFault .fetch s.pc)) ∧
    (s.cfg.cEnabled = true → s.cfg.memAdmits s.pc 2 = true → s.bytesAt s.pc 2 % 4 ≠ 3 →
      s.fetch = .ok ⟨BitVec.ofNat 32 (s.bytesAt s.pc 2), .two⟩) ∧
    (s.cfg.cEnabled = true → s.cfg.memAdmits s.pc 2 = true → s.bytesAt s.pc 2 % 4 = 3 →
      s.cfg.memAdmits (s.xlen.ofInt (s.pc.toNat + 2)) 2 = false →
      s.fetch = .error (.accessFault .fetch (s.xlen.ofInt (s.pc.toNat + 2)))) ∧
    (s.cfg.cEnabled = true → s.cfg.memAdmits s.pc 2 = true → s.bytesAt s.pc 2 % 4 = 3 →
      s.cfg.memAdmits (s.xlen.ofInt (s.pc.toNat + 2)) 2 = true →
      s.fetch = .ok ⟨BitVec.ofNat 32 (s.bytesAt s.pc 4), .four⟩) ∧
    (s.cfg.cEnabled = false → s.cfg.memAdmits s.pc 4 = false → s.fetch = .error (.accessFault .fetch s.pc)) ∧
    (s.cfg.cEnabled = false → s.cfg.memAdmits s.pc 4 = true →
      s.fetch = .ok ⟨BitVec.ofNat 32 (s.bytesAt s.pc 4), .four⟩)

/-- A fetch fault halts without a word; an invalid encoding halts with the raw word; both change nothing else.
60_exceptions.md R238, R239, R242, R243. -/
def Obligations.FetchAndDecodeFaultsHalt : Prop :=
  ∀ s : State, s.Inv → s.halt = .running →
    (∀ c, s.fetch = .error c → step s = .next { s with halt := .halted c s.pc none }) ∧
    (∀ raw e, s.fetch = .ok raw → decode s.cfg raw.bits = .error e →
      step s = .next { s with halt := .halted .invalidEncoding s.pc (some raw) })

/-- A running step either retires, with one record and at most one register written, or halts and changes nothing else.
45_trace_commit.md R223 to R227; 60_exceptions.md R243; 10_state.md R33. -/
def Obligations.StepRetiresOrHalts : Prop :=
  ∀ s : State, s.Inv → s.halt = .running → ∃ t, step s = .next t ∧
    ((t.halt = .running ∧ t.order = s.order + 1 ∧
        ∃ e, t.trace = s.trace ++ [e] ∧ e.record.regWrites.length ≤ 1 ∧ (∀ w ∈ e.record.regWrites, w.index ≠ 0)) ∨
      ∃ c word, c ≠ .invalidImmediate ∧ t = { s with halt := .halted c s.pc word })

/-- A faulted step leaves everything but the halt state as it was, and no step is enabled after it.
60_exceptions.md R243, 70_reset_and_hazards.md R254. That a step in the halted state is the model's fault is log 7. -/
def Obligations.FaultIsPreciseAndFinal : Prop :=
  ∀ s t : State, s.Inv → s.halt = .running → step s = .next t → t.halt ≠ .running →
    (∃ c word, t = { s with halt := .halted c s.pc word }) ∧ step t = .fault .noStepEnabled ∧
    ∀ c m, c.valid = true → t.hostReset c m = .next (State.resetWith c m)

/-- No step changes the configuration or a parameter.
00_scope.md R8, 70_reset_and_hazards.md R256. -/
def Obligations.ConfigurationNeverChanges : Prop :=
  ∀ s t : State, step s = .next t → t.cfg = s.cfg

/-- An instruction that is not a store leaves all of memory unchanged.
20_memory.md R56, R58. -/
def Obligations.OnlyStoresChangeMemory : Prop :=
  ∀ (i : Instr) (s t : State), (∀ a, dataAccess i = some a → a.kind ≠ .store) → exec i s = .next t →
    ∀ a, t.mem.read a = s.mem.read a

/-- The records of a retired step: order, raw bits, source registers as read, register written, pc before and after.
45_trace_commit.md R226 to R232. -/
def Obligations.RetiredStepIsRecorded : Prop :=
  ∀ (i : Instr) (s t : State) (raw : RawInsn), s.Ready → s.stage.fetched = some raw → s.halt = .running →
    exec i s = .next t → t.halt = .running →
    ∃ e, t.trace = s.trace ++ [e] ∧
      e.rvfi.valid = true ∧ e.rvfi.order = s.order ∧ e.rvfi.insn = raw.bits ∧
      e.rvfi.rs1Addr = (sourceRegs i).1 ∧ e.rvfi.rs1Rdata = s.x (sourceRegs i).1 ∧
      e.rvfi.rs2Addr = (sourceRegs i).2 ∧ e.rvfi.rs2Rdata = s.x (sourceRegs i).2 ∧
      ((e.record.regWrites = [] ∧ e.rvfi.rdAddr = 0 ∧ e.rvfi.rdWdata = 0) ∨
        (e.rvfi.rdAddr ≠ 0 ∧ e.record.regWrites = [⟨e.rvfi.rdAddr, e.rvfi.rdWdata⟩] ∧
          t.x e.rvfi.rdAddr = e.rvfi.rdWdata)) ∧
      e.rvfi.pcRdata = s.pc ∧ e.rvfi.pcWdata = t.pc ∧ e.record.pcBefore = s.pc ∧ e.record.pcAfter = t.pc ∧
      (e.record.mem = none ↔ dataAccess i = none)

/-- The worked record: jal x1, 8 at pc 100 on RV32I.
45_trace_commit.md R237. -/
def Obligations.WorkedJalRecord : Prop :=
  let c : Config := { Config.default with xlen := .rv32, cEnabled := false }
    let s : State := { State.resetWith c [(100, 0xEF), (102, 0x80)] with pc := 100 }
    ∃ t, step s = .next t ∧ t.x 1 = 104 ∧ t.pc = 108 ∧ t.order = 1 ∧
      t.trace = [{ record := { regWrites := [⟨1, 104⟩], mem := none, pcBefore := 100, pcAfter := 108 }
                   rvfi := { valid := true, order := 0, insn := 0x008000EF, rs1Addr := 0, rs1Rdata := 0, rs2Addr := 0,
                             rs2Rdata := 0, rdAddr := 1, rdWdata := 104, pcRdata := 100, pcWdata := 108 } }]

/-- ADDI, SLTI and SLTIU complete with the wrapped sum, the signed and the unsigned comparison.
40_integer_alu.md R110, R111, R112. -/
def Obligations.AddAndCompareImmediate : Prop :=
  ∀ (s : State) (rd rs1 : RegIdx) (imm : BitVec 12), s.Ready →
    (∃ t, exec (.addi rd rs1 imm) s = .next t ∧ s.WritesReg t .four rd (s.xlen.ofInt (s.xlen.asSigned (s.x rs1) + imm.toInt))) ∧
    (∃ t, exec (.slti rd rs1 imm) s = .next t ∧ s.WritesReg t .four rd (if s.xlen.asSigned (s.x rs1) < imm.toInt then 1 else 0)) ∧
    (∃ t, exec (.sltiu rd rs1 imm) s = .next t ∧ s.WritesReg t .four rd (if (s.x rs1).toNat < (s.xlen.ofInt imm.toInt).toNat then 1 else 0))

/-- XORI, ORI and ANDI complete with the bitwise result.
40_integer_alu.md R113, R114, R115. -/
def Obligations.LogicalImmediate : Prop :=
  ∀ (s : State) (rd rs1 : RegIdx) (imm : BitVec 12), s.Ready →
    (∃ t, exec (.xori rd rs1 imm) s = .next t ∧ s.WritesReg t .four rd (s.x rs1 ^^^ s.xlen.ofInt imm.toInt)) ∧
    (∃ t, exec (.ori rd rs1 imm) s = .next t ∧ s.WritesReg t .four rd (s.x rs1 ||| s.xlen.ofInt imm.toInt)) ∧
    (∃ t, exec (.andi rd rs1 imm) s = .next t ∧ s.WritesReg t .four rd (s.x rs1 &&& s.xlen.ofInt imm.toInt))

/-- SLLI, SRLI and SRAI complete: multiply, divide unsigned, divide signed by 2^shamt, for both rows.
40_integer_alu.md R116, R117, R118. The 5-bit rows are decoded on RV32 only and the 6-bit rows on RV64 only; the formula is stated for every state (log 15). -/
def Obligations.ImmediateShifts : Prop :=
  (∀ (s : State) (rd rs1 : RegIdx) (shamt : BitVec 5), s.Ready →
    (∃ t, exec (.slli32 rd rs1 shamt) s = .next t ∧ s.WritesReg t .four rd (s.xlen.ofInt ((s.x rs1).toNat * 2 ^ shamt.toNat))) ∧
    (∃ t, exec (.srli32 rd rs1 shamt) s = .next t ∧ s.WritesReg t .four rd (s.xlen.ofInt ((s.x rs1).toNat / 2 ^ shamt.toNat))) ∧
    (∃ t, exec (.srai32 rd rs1 shamt) s = .next t ∧ s.WritesReg t .four rd (s.xlen.ofInt (s.xlen.asSigned (s.x rs1) / 2 ^ shamt.toNat)))) ∧
  (∀ (s : State) (rd rs1 : RegIdx) (shamt : BitVec 6), s.Ready →
    (∃ t, exec (.slli64 rd rs1 shamt) s = .next t ∧ s.WritesReg t .four rd (s.xlen.ofInt ((s.x rs1).toNat * 2 ^ shamt.toNat))) ∧
    (∃ t, exec (.srli64 rd rs1 shamt) s = .next t ∧ s.WritesReg t .four rd (s.xlen.ofInt ((s.x rs1).toNat / 2 ^ shamt.toNat))) ∧
    (∃ t, exec (.srai64 rd rs1 shamt) s = .next t ∧ s.WritesReg t .four rd (s.xlen.ofInt (s.xlen.asSigned (s.x rs1) / 2 ^ shamt.toNat))))

/-- ADD, SUB, SLT and SLTU complete with the wrapped sum and difference and the comparisons.
40_integer_alu.md R119, R120, R122, R123. -/
def Obligations.AddSubCompare : Prop :=
  ∀ (s : State) (rd rs1 rs2 : RegIdx), s.Ready →
    (∃ t, exec (.add rd rs1 rs2) s = .next t ∧ s.WritesReg t .four rd (s.xlen.ofInt (s.xlen.asSigned (s.x rs1) + s.xlen.asSigned (s.x rs2)))) ∧
    (∃ t, exec (.sub rd rs1 rs2) s = .next t ∧ s.WritesReg t .four rd (s.xlen.ofInt (s.xlen.asSigned (s.x rs1) - s.xlen.asSigned (s.x rs2)))) ∧
    (∃ t, exec (.slt rd rs1 rs2) s = .next t ∧ s.WritesReg t .four rd (if s.xlen.asSigned (s.x rs1) < s.xlen.asSigned (s.x rs2) then 1 else 0)) ∧
    (∃ t, exec (.sltu rd rs1 rs2) s = .next t ∧ s.WritesReg t .four rd (if (s.x rs1).toNat < (s.x rs2).toNat then 1 else 0))

/-- XOR, OR and AND complete with the bitwise result.
40_integer_alu.md R124, R127, R128. -/
def Obligations.LogicalRegister : Prop :=
  ∀ (s : State) (rd rs1 rs2 : RegIdx), s.Ready →
    (∃ t, exec (.xor rd rs1 rs2) s = .next t ∧ s.WritesReg t .four rd (s.x rs1 ^^^ s.x rs2)) ∧
    (∃ t, exec (.or rd rs1 rs2) s = .next t ∧ s.WritesReg t .four rd (s.x rs1 ||| s.x rs2)) ∧
    (∃ t, exec (.and rd rs1 rs2) s = .next t ∧ s.WritesReg t .four rd (s.x rs1 &&& s.x rs2))

/-- SLL, SRL and SRA complete, shifting by the low 5 or 6 bits of x[rs2].
40_integer_alu.md R108, R121, R125, R126. -/
def Obligations.RegisterShifts : Prop :=
  ∀ (s : State) (rd rs1 rs2 : RegIdx), s.Ready →
    (∃ t, exec (.sll rd rs1 rs2) s = .next t ∧ s.WritesReg t .four rd (s.xlen.ofInt ((s.x rs1).toNat * 2 ^ ((s.x rs2).toNat % s.xlen.bits)))) ∧
    (∃ t, exec (.srl rd rs1 rs2) s = .next t ∧ s.WritesReg t .four rd (s.xlen.ofInt ((s.x rs1).toNat / 2 ^ ((s.x rs2).toNat % s.xlen.bits)))) ∧
    (∃ t, exec (.sra rd rs1 rs2) s = .next t ∧ s.WritesReg t .four rd (s.xlen.ofInt (s.xlen.asSigned (s.x rs1) / 2 ^ ((s.x rs2).toNat % s.xlen.bits))))

/-- LUI and AUIPC complete with the sign-extended upper immediate, alone and added to pc.
40_integer_alu.md R129, R130. -/
def Obligations.UpperImmediates : Prop :=
  ∀ (s : State) (rd : RegIdx) (imm20 : BitVec 20), s.Ready →
    (∃ t, exec (.lui rd imm20) s = .next t ∧ s.WritesReg t .four rd (s.xlen.ofInt (sextInt 32 (imm20.toNat * 2 ^ 12)))) ∧
    (∃ t, exec (.auipc rd imm20) s = .next t ∧ s.WritesReg t .four rd (s.xlen.ofInt (s.pc.toNat + sextInt 32 (imm20.toNat * 2 ^ 12))))

/-- ADDIW, SLLIW, SRLIW and SRAIW complete on the low 32 bits, sign-extended.
40_integer_alu.md R131 to R134. RV64-only rows; the formula is stated for every state (log 15). -/
def Obligations.WordImmediate : Prop :=
  (∀ (s : State) (rd rs1 : RegIdx) (imm : BitVec 12), s.Ready →
    (∃ t, exec (.addiw rd rs1 imm) s = .next t ∧ s.WritesReg t .four rd (s.xlen.ofInt (sextInt 32 ((s.x rs1).toNat + imm.toInt))))) ∧
  (∀ (s : State) (rd rs1 : RegIdx) (shamt : BitVec 5), s.Ready →
    (∃ t, exec (.slliw rd rs1 shamt) s = .next t ∧ s.WritesReg t .four rd (s.xlen.ofInt (sextInt 32 ((s.x rs1).toNat * 2 ^ shamt.toNat)))) ∧
    (∃ t, exec (.srliw rd rs1 shamt) s = .next t ∧ s.WritesReg t .four rd (s.xlen.ofInt (sextInt 32 ((s.x rs1).toNat % 2 ^ 32 / 2 ^ shamt.toNat)))) ∧
    (∃ t, exec (.sraiw rd rs1 shamt) s = .next t ∧ s.WritesReg t .four rd (s.xlen.ofInt (sextInt 32 (s.x rs1).toNat / 2 ^ shamt.toNat))))

/-- ADDW, SUBW, SLLW, SRLW and SRAW complete on the low 32 bits, sign-extended.
40_integer_alu.md R135 to R139. RV64-only rows; the formula is stated for every state (log 15). -/
def Obligations.WordRegister : Prop :=
  ∀ (s : State) (rd rs1 rs2 : RegIdx), s.Ready →
    (∃ t, exec (.addw rd rs1 rs2) s = .next t ∧ s.WritesReg t .four rd (s.xlen.ofInt (sextInt 32 ((s.x rs1).toNat + (s.x rs2).toNat)))) ∧
    (∃ t, exec (.subw rd rs1 rs2) s = .next t ∧ s.WritesReg t .four rd (s.xlen.ofInt (sextInt 32 ((s.x rs1).toNat - (s.x rs2).toNat)))) ∧
    (∃ t, exec (.sllw rd rs1 rs2) s = .next t ∧ s.WritesReg t .four rd (s.xlen.ofInt (sextInt 32 ((s.x rs1).toNat * 2 ^ ((s.x rs2).toNat % 32))))) ∧
    (∃ t, exec (.srlw rd rs1 rs2) s = .next t ∧ s.WritesReg t .four rd (s.xlen.ofInt (sextInt 32 ((s.x rs1).toNat % 2 ^ 32 / 2 ^ ((s.x rs2).toNat % 32))))) ∧
    (∃ t, exec (.sraw rd rs1 rs2) s = .next t ∧ s.WritesReg t .four rd (s.xlen.ofInt (sextInt 32 (s.x rs1).toNat / 2 ^ ((s.x rs2).toNat % 32))))

/-- JAL goes to pc plus the offset and links the next instruction; to a misaligned target it halts and writes nothing.
41_control_transfer.md R141, R142, R143, R146. -/
def Obligations.JumpAndLink : Prop :=
  ∀ (s : State) (rd : RegIdx) (imm : BitVec 21), s.Ready →
    (s.TargetOk (s.pcTarget imm.toInt) →
      ∃ t, exec (.jal rd imm) s = .next t ∧ s.RetiresTo t (s.pcTarget imm.toInt) rd (s.seqPc .four) none ∧ t.mem = s.mem) ∧
    (¬s.TargetOk (s.pcTarget imm.toInt) → ∃ t, exec (.jal rd imm) s = .next t ∧ s.HaltsAt t (.misalignedTarget (s.pcTarget imm.toInt)))

/-- JALR goes to x[rs1] plus the offset, bit 0 cleared, and links the next instruction; to a misaligned target it halts.
41_control_transfer.md R142, R143, R147. -/
def Obligations.JumpAndLinkRegister : Prop :=
  ∀ (s : State) (rd rs1 : RegIdx) (imm : BitVec 12), s.Ready →
    (s.TargetOk (s.jumpTarget rs1 imm.toInt) →
      ∃ t, exec (.jalr rd rs1 imm) s = .next t ∧ s.RetiresTo t (s.jumpTarget rs1 imm.toInt) rd (s.seqPc .four) none ∧ t.mem = s.mem) ∧
    (¬s.TargetOk (s.jumpTarget rs1 imm.toInt) → ∃ t, exec (.jalr rd rs1 imm) s = .next t ∧ s.HaltsAt t (.misalignedTarget (s.jumpTarget rs1 imm.toInt)))

/-- BEQ and BNE: taken to an aligned target, taken to a misaligned one, and not taken.
41_control_transfer.md R143, R148, R149. -/
def Obligations.EqualityBranches : Prop :=
  ∀ (s : State) (rs1 rs2 : RegIdx) (imm : BitVec 13), s.Ready →
    (s.x rs1 = s.x rs2 → s.TargetOk (s.pcTarget imm.toInt) → ∃ t, exec (.beq rs1 rs2 imm) s = .next t ∧ s.RetiresTo t (s.pcTarget imm.toInt) 0 (0) none ∧ t.mem = s.mem) ∧
    (s.x rs1 = s.x rs2 → ¬s.TargetOk (s.pcTarget imm.toInt) → ∃ t, exec (.beq rs1 rs2 imm) s = .next t ∧ s.HaltsAt t (.misalignedTarget (s.pcTarget imm.toInt))) ∧
    (¬(s.x rs1 = s.x rs2) → ∃ t, exec (.beq rs1 rs2 imm) s = .next t ∧ s.WritesReg t .four 0 0) ∧
    (s.x rs1 ≠ s.x rs2 → s.TargetOk (s.pcTarget imm.toInt) → ∃ t, exec (.bne rs1 rs2 imm) s = .next t ∧ s.RetiresTo t (s.pcTarget imm.toInt) 0 (0) none ∧ t.mem = s.mem) ∧
    (s.x rs1 ≠ s.x rs2 → ¬s.TargetOk (s.pcTarget imm.toInt) → ∃ t, exec (.bne rs1 rs2 imm) s = .next t ∧ s.HaltsAt t (.misalignedTarget (s.pcTarget imm.toInt))) ∧
    (¬(s.x rs1 ≠ s.x rs2) → ∃ t, exec (.bne rs1 rs2 imm) s = .next t ∧ s.WritesReg t .four 0 0)

/-- BLT and BGE: taken to an aligned target, taken to a misaligned one, and not taken.
41_control_transfer.md R143, R150, R151. -/
def Obligations.SignedBranches : Prop :=
  ∀ (s : State) (rs1 rs2 : RegIdx) (imm : BitVec 13), s.Ready →
    (s.xlen.asSigned (s.x rs1) < s.xlen.asSigned (s.x rs2) → s.TargetOk (s.pcTarget imm.toInt) → ∃ t, exec (.blt rs1 rs2 imm) s = .next t ∧ s.RetiresTo t (s.pcTarget imm.toInt) 0 (0) none ∧ t.mem = s.mem) ∧
    (s.xlen.asSigned (s.x rs1) < s.xlen.asSigned (s.x rs2) → ¬s.TargetOk (s.pcTarget imm.toInt) → ∃ t, exec (.blt rs1 rs2 imm) s = .next t ∧ s.HaltsAt t (.misalignedTarget (s.pcTarget imm.toInt))) ∧
    (¬(s.xlen.asSigned (s.x rs1) < s.xlen.asSigned (s.x rs2)) → ∃ t, exec (.blt rs1 rs2 imm) s = .next t ∧ s.WritesReg t .four 0 0) ∧
    (s.xlen.asSigned (s.x rs1) ≥ s.xlen.asSigned (s.x rs2) → s.TargetOk (s.pcTarget imm.toInt) → ∃ t, exec (.bge rs1 rs2 imm) s = .next t ∧ s.RetiresTo t (s.pcTarget imm.toInt) 0 (0) none ∧ t.mem = s.mem) ∧
    (s.xlen.asSigned (s.x rs1) ≥ s.xlen.asSigned (s.x rs2) → ¬s.TargetOk (s.pcTarget imm.toInt) → ∃ t, exec (.bge rs1 rs2 imm) s = .next t ∧ s.HaltsAt t (.misalignedTarget (s.pcTarget imm.toInt))) ∧
    (¬(s.xlen.asSigned (s.x rs1) ≥ s.xlen.asSigned (s.x rs2)) → ∃ t, exec (.bge rs1 rs2 imm) s = .next t ∧ s.WritesReg t .four 0 0)

/-- BLTU and BGEU: taken to an aligned target, taken to a misaligned one, and not taken.
41_control_transfer.md R143, R152, R153. -/
def Obligations.UnsignedBranches : Prop :=
  ∀ (s : State) (rs1 rs2 : RegIdx) (imm : BitVec 13), s.Ready →
    ((s.x rs1).toNat < (s.x rs2).toNat → s.TargetOk (s.pcTarget imm.toInt) → ∃ t, exec (.bltu rs1 rs2 imm) s = .next t ∧ s.RetiresTo t (s.pcTarget imm.toInt) 0 (0) none ∧ t.mem = s.mem) ∧
    ((s.x rs1).toNat < (s.x rs2).toNat → ¬s.TargetOk (s.pcTarget imm.toInt) → ∃ t, exec (.bltu rs1 rs2 imm) s = .next t ∧ s.HaltsAt t (.misalignedTarget (s.pcTarget imm.toInt))) ∧
    (¬((s.x rs1).toNat < (s.x rs2).toNat) → ∃ t, exec (.bltu rs1 rs2 imm) s = .next t ∧ s.WritesReg t .four 0 0) ∧
    ((s.x rs1).toNat ≥ (s.x rs2).toNat → s.TargetOk (s.pcTarget imm.toInt) → ∃ t, exec (.bgeu rs1 rs2 imm) s = .next t ∧ s.RetiresTo t (s.pcTarget imm.toInt) 0 (0) none ∧ t.mem = s.mem) ∧
    ((s.x rs1).toNat ≥ (s.x rs2).toNat → ¬s.TargetOk (s.pcTarget imm.toInt) → ∃ t, exec (.bgeu rs1 rs2 imm) s = .next t ∧ s.HaltsAt t (.misalignedTarget (s.pcTarget imm.toInt))) ∧
    (¬((s.x rs1).toNat ≥ (s.x rs2).toNat) → ∃ t, exec (.bgeu rs1 rs2 imm) s = .next t ∧ s.WritesReg t .four 0 0)

/-- With C enabled only JALR with JALR_CLEAR_LSB false can meet a misaligned target, and then an odd one.
41_control_transfer.md R143. -/
def Obligations.OnlyJalrMisalignsWithC : Prop :=
  ∀ (i : Instr) (s t : State) (target p : Word) (word : Option RawInsn), s.halt = .running → s.cfg.cEnabled = true →
    s.pc.toNat % 2 = 0 → i.wellFormed s.cfg = true → exec i s = .next t → t.halt = .halted (.misalignedTarget target) p word →
    ((∃ rd rs1 imm, i = .jalr rd rs1 imm) ∨ (∃ rs1, i = .cJr rs1) ∨ (∃ rs1, i = .cJalr rs1)) ∧
      s.cfg.jalrClearLsb = false ∧ target.toNat % 2 = 1

/-- The effective address is the base register plus the displacement, modulo 2^XLEN.
42_load_store.md R155, 20_memory.md R53. -/
def Obligations.EffectiveAddresses : Prop :=
  ∀ (s : State) (rs1 : RegIdx),
    (∀ imm : BitVec 12, s.effectiveAddress rs1 (signedOperand s.xlen imm) = s.xlen.ofInt ((s.x rs1).toNat + imm.toInt)) ∧
    (∀ (n : Nat) (uimm : BitVec n), n ≤ 9 →
      s.effectiveAddress rs1 (unsignedOperand s.xlen uimm) = s.xlen.ofInt ((s.x rs1).toNat + uimm.toNat))

/-- LB, LH and LW complete with the sign-extended little-endian value and one memory event.
42_load_store.md R159, R160, R161. -/
def Obligations.SignedLoads : Prop :=
  ∀ (s : State) (rd rs1 : RegIdx) (imm : BitVec 12), s.Ready →
    (s.Accessible (s.effectiveAddress rs1 (signedOperand s.xlen imm)) 1 →
      ∃ t, exec (.lb rd rs1 imm) s = .next t ∧
        s.RetiresTo t (s.seqPc .four) rd (s.xlen.ofInt (sextInt 8 (s.bytesAt (s.effectiveAddress rs1 (signedOperand s.xlen imm)) 1)))
          (some ⟨.load, .byte, s.effectiveAddress rs1 (signedOperand s.xlen imm), BitVec.ofNat 64 (s.bytesAt (s.effectiveAddress rs1 (signedOperand s.xlen imm)) 1)⟩) ∧ t.mem = s.mem) ∧
    (∀ c, s.FaultsWith .load (s.effectiveAddress rs1 (signedOperand s.xlen imm)) 1 c → ∃ t, exec (.lb rd rs1 imm) s = .next t ∧ s.HaltsAt t c) ∧
    (s.Accessible (s.effectiveAddress rs1 (signedOperand s.xlen imm)) 2 →
      ∃ t, exec (.lh rd rs1 imm) s = .next t ∧
        s.RetiresTo t (s.seqPc .four) rd (s.xlen.ofInt (sextInt 16 (s.bytesAt (s.effectiveAddress rs1 (signedOperand s.xlen imm)) 2)))
          (some ⟨.load, .half, s.effectiveAddress rs1 (signedOperand s.xlen imm), BitVec.ofNat 64 (s.bytesAt (s.effectiveAddress rs1 (signedOperand s.xlen imm)) 2)⟩) ∧ t.mem = s.mem) ∧
    (∀ c, s.FaultsWith .load (s.effectiveAddress rs1 (signedOperand s.xlen imm)) 2 c → ∃ t, exec (.lh rd rs1 imm) s = .next t ∧ s.HaltsAt t c) ∧
    (s.Accessible (s.effectiveAddress rs1 (signedOperand s.xlen imm)) 4 →
      ∃ t, exec (.lw rd rs1 imm) s = .next t ∧
        s.RetiresTo t (s.seqPc .four) rd (s.xlen.ofInt (sextInt 32 (s.bytesAt (s.effectiveAddress rs1 (signedOperand s.xlen imm)) 4)))
          (some ⟨.load, .word, s.effectiveAddress rs1 (signedOperand s.xlen imm), BitVec.ofNat 64 (s.bytesAt (s.effectiveAddress rs1 (signedOperand s.xlen imm)) 4)⟩) ∧ t.mem = s.mem) ∧
    (∀ c, s.FaultsWith .load (s.effectiveAddress rs1 (signedOperand s.xlen imm)) 4 c → ∃ t, exec (.lw rd rs1 imm) s = .next t ∧ s.HaltsAt t c)

/-- LBU, LHU, LWU and LD complete with the zero-extended little-endian value and one memory event.
42_load_store.md R162 to R165. LWU and LD are RV64-only rows; the formula is stated for every state (log 15). -/
def Obligations.UnsignedLoads : Prop :=
  ∀ (s : State) (rd rs1 : RegIdx) (imm : BitVec 12), s.Ready →
    (s.Accessible (s.effectiveAddress rs1 (signedOperand s.xlen imm)) 1 →
      ∃ t, exec (.lbu rd rs1 imm) s = .next t ∧
        s.RetiresTo t (s.seqPc .four) rd (s.xlen.ofInt (s.bytesAt (s.effectiveAddress rs1 (signedOperand s.xlen imm)) 1))
          (some ⟨.load, .byte, s.effectiveAddress rs1 (signedOperand s.xlen imm), BitVec.ofNat 64 (s.bytesAt (s.effectiveAddress rs1 (signedOperand s.xlen imm)) 1)⟩) ∧ t.mem = s.mem) ∧
    (∀ c, s.FaultsWith .load (s.effectiveAddress rs1 (signedOperand s.xlen imm)) 1 c → ∃ t, exec (.lbu rd rs1 imm) s = .next t ∧ s.HaltsAt t c) ∧
    (s.Accessible (s.effectiveAddress rs1 (signedOperand s.xlen imm)) 2 →
      ∃ t, exec (.lhu rd rs1 imm) s = .next t ∧
        s.RetiresTo t (s.seqPc .four) rd (s.xlen.ofInt (s.bytesAt (s.effectiveAddress rs1 (signedOperand s.xlen imm)) 2))
          (some ⟨.load, .half, s.effectiveAddress rs1 (signedOperand s.xlen imm), BitVec.ofNat 64 (s.bytesAt (s.effectiveAddress rs1 (signedOperand s.xlen imm)) 2)⟩) ∧ t.mem = s.mem) ∧
    (∀ c, s.FaultsWith .load (s.effectiveAddress rs1 (signedOperand s.xlen imm)) 2 c → ∃ t, exec (.lhu rd rs1 imm) s = .next t ∧ s.HaltsAt t c) ∧
    (s.Accessible (s.effectiveAddress rs1 (signedOperand s.xlen imm)) 4 →
      ∃ t, exec (.lwu rd rs1 imm) s = .next t ∧
        s.RetiresTo t (s.seqPc .four) rd (s.xlen.ofInt (s.bytesAt (s.effectiveAddress rs1 (signedOperand s.xlen imm)) 4))
          (some ⟨.load, .word, s.effectiveAddress rs1 (signedOperand s.xlen imm), BitVec.ofNat 64 (s.bytesAt (s.effectiveAddress rs1 (signedOperand s.xlen imm)) 4)⟩) ∧ t.mem = s.mem) ∧
    (∀ c, s.FaultsWith .load (s.effectiveAddress rs1 (signedOperand s.xlen imm)) 4 c → ∃ t, exec (.lwu rd rs1 imm) s = .next t ∧ s.HaltsAt t c) ∧
    (s.Accessible (s.effectiveAddress rs1 (signedOperand s.xlen imm)) 8 →
      ∃ t, exec (.ld rd rs1 imm) s = .next t ∧
        s.RetiresTo t (s.seqPc .four) rd (s.xlen.ofInt (s.bytesAt (s.effectiveAddress rs1 (signedOperand s.xlen imm)) 8))
          (some ⟨.load, .double, s.effectiveAddress rs1 (signedOperand s.xlen imm), BitVec.ofNat 64 (s.bytesAt (s.effectiveAddress rs1 (signedOperand s.xlen imm)) 8)⟩) ∧ t.mem = s.mem) ∧
    (∀ c, s.FaultsWith .load (s.effectiveAddress rs1 (signedOperand s.xlen imm)) 8 c → ∃ t, exec (.ld rd rs1 imm) s = .next t ∧ s.HaltsAt t c)

/-- SB, SH, SW and SD complete: the low bytes of x[rs2] at the effective address, every other byte unchanged.
42_load_store.md R166 to R169. SD is an RV64-only row; the formula is stated for every state (log 15). -/
def Obligations.Stores : Prop :=
  ∀ (s : State) (rs1 rs2 : RegIdx) (imm : BitVec 12), s.Ready →
    (s.Accessible (s.effectiveAddress rs1 (signedOperand s.xlen imm)) 1 →
      ∃ t, exec (.sb rs1 rs2 imm) s = .next t ∧
        s.RetiresTo t (s.seqPc .four) 0 0
          (some ⟨.store, .byte, s.effectiveAddress rs1 (signedOperand s.xlen imm), BitVec.ofNat 64 ((s.x rs2).toNat % 256 ^ 1)⟩) ∧
        (∀ k < 1, t.mem.read (((s.effectiveAddress rs1 (signedOperand s.xlen imm)).toNat + k) % 2 ^ s.xlen.bits) = BitVec.ofNat 8 ((s.x rs2).toNat / 256 ^ k)) ∧
        (∀ a, (∀ k < 1, a ≠ ((s.effectiveAddress rs1 (signedOperand s.xlen imm)).toNat + k) % 2 ^ s.xlen.bits) → t.mem.read a = s.mem.read a)) ∧
    (∀ c, s.FaultsWith .store (s.effectiveAddress rs1 (signedOperand s.xlen imm)) 1 c → ∃ t, exec (.sb rs1 rs2 imm) s = .next t ∧ s.HaltsAt t c) ∧
    (s.Accessible (s.effectiveAddress rs1 (signedOperand s.xlen imm)) 2 →
      ∃ t, exec (.sh rs1 rs2 imm) s = .next t ∧
        s.RetiresTo t (s.seqPc .four) 0 0
          (some ⟨.store, .half, s.effectiveAddress rs1 (signedOperand s.xlen imm), BitVec.ofNat 64 ((s.x rs2).toNat % 256 ^ 2)⟩) ∧
        (∀ k < 2, t.mem.read (((s.effectiveAddress rs1 (signedOperand s.xlen imm)).toNat + k) % 2 ^ s.xlen.bits) = BitVec.ofNat 8 ((s.x rs2).toNat / 256 ^ k)) ∧
        (∀ a, (∀ k < 2, a ≠ ((s.effectiveAddress rs1 (signedOperand s.xlen imm)).toNat + k) % 2 ^ s.xlen.bits) → t.mem.read a = s.mem.read a)) ∧
    (∀ c, s.FaultsWith .store (s.effectiveAddress rs1 (signedOperand s.xlen imm)) 2 c → ∃ t, exec (.sh rs1 rs2 imm) s = .next t ∧ s.HaltsAt t c) ∧
    (s.Accessible (s.effectiveAddress rs1 (signedOperand s.xlen imm)) 4 →
      ∃ t, exec (.sw rs1 rs2 imm) s = .next t ∧
        s.RetiresTo t (s.seqPc .four) 0 0
          (some ⟨.store, .word, s.effectiveAddress rs1 (signedOperand s.xlen imm), BitVec.ofNat 64 ((s.x rs2).toNat % 256 ^ 4)⟩) ∧
        (∀ k < 4, t.mem.read (((s.effectiveAddress rs1 (signedOperand s.xlen imm)).toNat + k) % 2 ^ s.xlen.bits) = BitVec.ofNat 8 ((s.x rs2).toNat / 256 ^ k)) ∧
        (∀ a, (∀ k < 4, a ≠ ((s.effectiveAddress rs1 (signedOperand s.xlen imm)).toNat + k) % 2 ^ s.xlen.bits) → t.mem.read a = s.mem.read a)) ∧
    (∀ c, s.FaultsWith .store (s.effectiveAddress rs1 (signedOperand s.xlen imm)) 4 c → ∃ t, exec (.sw rs1 rs2 imm) s = .next t ∧ s.HaltsAt t c) ∧
    (s.Accessible (s.effectiveAddress rs1 (signedOperand s.xlen imm)) 8 →
      ∃ t, exec (.sd rs1 rs2 imm) s = .next t ∧
        s.RetiresTo t (s.seqPc .four) 0 0
          (some ⟨.store, .double, s.effectiveAddress rs1 (signedOperand s.xlen imm), BitVec.ofNat 64 ((s.x rs2).toNat % 256 ^ 8)⟩) ∧
        (∀ k < 8, t.mem.read (((s.effectiveAddress rs1 (signedOperand s.xlen imm)).toNat + k) % 2 ^ s.xlen.bits) = BitVec.ofNat 8 ((s.x rs2).toNat / 256 ^ k)) ∧
        (∀ a, (∀ k < 8, a ≠ ((s.effectiveAddress rs1 (signedOperand s.xlen imm)).toNat + k) % 2 ^ s.xlen.bits) → t.mem.read a = s.mem.read a)) ∧
    (∀ c, s.FaultsWith .store (s.effectiveAddress rs1 (signedOperand s.xlen imm)) 8 c → ∃ t, exec (.sd rs1 rs2 imm) s = .next t ∧ s.HaltsAt t c)

/-- A misaligned access under fault, then a refused access, halts each load and store, in that order.
42_load_store.md R157, 20_memory.md R51, R52. It holds for the RV64-only rows in every state (log 15). -/
def Obligations.DataFaultsHalt : Prop :=
  ∀ (i : Instr) (a : DataAccess) (s : State), dataAccess i = some a →
    ((s.cfg.misalignedData = .fault ∧ (s.accessAddress a).toNat % a.gran.bytes ≠ 0) →
      ∃ t, exec i s = .next t ∧ s.HaltsAt t (.misalignedAccess (s.accessAddress a))) ∧
    (((s.cfg.misalignedData = .split ∨ (s.accessAddress a).toNat % a.gran.bytes = 0) ∧
        s.cfg.memAdmits (s.accessAddress a) a.gran.bytes = false) →
      ∃ t, exec i s = .next t ∧ s.HaltsAt t (.accessFault a.kind (s.accessAddress a)))

/-- Mixed-width accesses see the same little-endian bytes.
20_memory.md R50. -/
def Obligations.MixedWidthBytes : Prop :=
  ∀ (x : XLen) (m : Memory), let m' := m.store x 0x100 4 0x11223344
    m'.load x 0x100 1 = 0x44 ∧ m'.load x 0x103 1 = 0x11 ∧ m'.load x 0x102 2 = 0x1122 ∧
    (∀ (a : Word) (n : Nat), n ≤ 8 → (m.load x a n).toNat =
      ((List.range n).map (fun k => (m.read ((a.toNat + k) % 2 ^ x.bits)).toNat * 256 ^ k)).sum)

/-- A store is seen by every later fetch of the bytes it wrote, with no fence.
20_memory.md R61, R67; 70_reset_and_hazards.md R260. -/
def Obligations.StoreIsSeenByFetch : Prop :=
  ∀ (i : Instr) (a : DataAccess) (s t : State) (p : Word), s.Ready → dataAccess i = some a → a.kind = .store →
    exec i s = .next t → t.halt = .running →
    let u : State := { t with pc := p }
    (∀ raw, u.fetch = .ok raw →
      (∀ k < (match raw.size with | .two => 2 | .four => 4),
        (∀ j < a.gran.bytes, (p.toNat + k) % 2 ^ s.xlen.bits = ((s.accessAddress a).toNat + j) % 2 ^ s.xlen.bits →
          raw.bits.extractLsb' (8 * k) 8 = BitVec.ofNat 8 ((s.x (sourceRegs i).2).toNat / 256 ^ j)) ∧
        ((∀ j < a.gran.bytes, (p.toNat + k) % 2 ^ s.xlen.bits ≠ ((s.accessAddress a).toNat + j) % 2 ^ s.xlen.bits) →
          raw.bits.extractLsb' (8 * k) 8 = s.mem.read ((p.toNat + k) % 2 ^ s.xlen.bits))) ∧
      (raw.size = .two ↔ s.cfg.cEnabled = true ∧ raw.bits.setWidth 2 ≠ 0b11#2) ∧
      (raw.size = .two → raw.bits.extractLsb' 16 16 = 0#16)) ∧
    (s.cfg.cEnabled = false → s.cfg.memAdmits p 4 = true → ∃ raw, u.fetch = .ok raw) ∧
    (s.cfg.cEnabled = true → s.cfg.memAdmits p 2 = true →
      ((t.mem.read (p.toNat % 2 ^ s.xlen.bits)).setWidth 2 ≠ 0b11#2 ∨
        s.cfg.memAdmits (s.xlen.ofInt (p.toNat + 2)) 2 = true) → ∃ raw, u.fetch = .ok raw)

/-- FENCE completes as a no-op for every value of its fields, STRICT_SYSTEM or not.
43_system.md R174. -/
def Obligations.FenceCompletes : Prop :=
  ∀ (s : State) (fm pred succ : BitVec 4) (rs1 rd : RegIdx), s.Ready →
    (∃ t, exec (.fence fm pred succ rs1 rd) s = .next t ∧ s.WritesReg t .four 0 (0))

/-- ECALL, EBREAK and C.EBREAK complete as no-ops, or halt with UnsupportedOperation under STRICT_SYSTEM.
43_system.md R171, R172, R177, R175, R176, R217. -/
def Obligations.EnvironmentStubs : Prop :=
  ∀ (s : State), s.Ready →
    (s.cfg.strictSystem = false → ∃ t, exec (.ecall) s = .next t ∧ s.WritesReg t .four 0 0) ∧
    (s.cfg.strictSystem = true → ∃ t, exec (.ecall) s = .next t ∧ s.HaltsAt t .unsupportedOperation) ∧
    (s.cfg.strictSystem = false → ∃ t, exec (.ebreak) s = .next t ∧ s.WritesReg t .four 0 0) ∧
    (s.cfg.strictSystem = true → ∃ t, exec (.ebreak) s = .next t ∧ s.HaltsAt t .unsupportedOperation) ∧
    (s.cfg.strictSystem = false → ∃ t, exec (.cEbreak) s = .next t ∧ s.WritesReg t .two 0 0) ∧
    (s.cfg.strictSystem = true → ∃ t, exec (.cEbreak) s = .next t ∧ s.HaltsAt t .unsupportedOperation)

/-- The six CSR instructions complete as no-ops, or halt with UnsupportedOperation under STRICT_SYSTEM.
43_system.md R171, R172, R177, R178, R179, R180, R181, R182, R183. -/
def Obligations.CsrStubs : Prop :=
  ∀ (s : State) (rd rs1 : RegIdx) (csr : BitVec 12), s.Ready →
    (s.cfg.strictSystem = false → ∃ t, exec (.csrrw rd rs1 csr) s = .next t ∧ s.WritesReg t .four 0 0) ∧
    (s.cfg.strictSystem = true → ∃ t, exec (.csrrw rd rs1 csr) s = .next t ∧ s.HaltsAt t .unsupportedOperation) ∧
    (s.cfg.strictSystem = false → ∃ t, exec (.csrrs rd rs1 csr) s = .next t ∧ s.WritesReg t .four 0 0) ∧
    (s.cfg.strictSystem = true → ∃ t, exec (.csrrs rd rs1 csr) s = .next t ∧ s.HaltsAt t .unsupportedOperation) ∧
    (s.cfg.strictSystem = false → ∃ t, exec (.csrrc rd rs1 csr) s = .next t ∧ s.WritesReg t .four 0 0) ∧
    (s.cfg.strictSystem = true → ∃ t, exec (.csrrc rd rs1 csr) s = .next t ∧ s.HaltsAt t .unsupportedOperation) ∧
    (s.cfg.strictSystem = false → ∃ t, exec (.csrrwi rd rs1 csr) s = .next t ∧ s.WritesReg t .four 0 0) ∧
    (s.cfg.strictSystem = true → ∃ t, exec (.csrrwi rd rs1 csr) s = .next t ∧ s.HaltsAt t .unsupportedOperation) ∧
    (s.cfg.strictSystem = false → ∃ t, exec (.csrrsi rd rs1 csr) s = .next t ∧ s.WritesReg t .four 0 0) ∧
    (s.cfg.strictSystem = true → ∃ t, exec (.csrrsi rd rs1 csr) s = .next t ∧ s.HaltsAt t .unsupportedOperation) ∧
    (s.cfg.strictSystem = false → ∃ t, exec (.csrrci rd rs1 csr) s = .next t ∧ s.WritesReg t .four 0 0) ∧
    (s.cfg.strictSystem = true → ∃ t, exec (.csrrci rd rs1 csr) s = .next t ∧ s.HaltsAt t .unsupportedOperation)

/-- UnsupportedOperation is raised by the strict stubs under STRICT_SYSTEM and by nothing else.
60_exceptions.md R240, 43_system.md R172. -/
def Obligations.UnsupportedOperationRule : Prop :=
  ∀ (i : Instr) (s : State), s.halt = .running →
    ((isStrictStub i = true ∧ s.cfg.strictSystem = true) → ∃ t, exec i s = .next t ∧ s.HaltsAt t .unsupportedOperation) ∧
    (∀ t p word, exec i s = .next t → t.halt = .halted .unsupportedOperation p word →
      isStrictStub i = true ∧ s.cfg.strictSystem = true)

/-- C.ADDI4SPN, C.NOP, C.ADDI, C.LI and C.ADDI16SP complete as the ADDI they expand to.
44_compressed.md R188, R193, R194, R197, R198. -/
def Obligations.CompressedAddImmediate : Prop :=
  ∀ (s : State) (rd : RegIdx), s.Ready →
    (∀ nzuimm : BitVec 10, (∃ t, exec (.cAddi4spn rd nzuimm) s = .next t ∧ s.WritesReg t .two rd (s.xlen.ofInt (s.xlen.asSigned (s.x 2) + nzuimm.toNat)))) ∧
    (∀ imm : BitVec 6, (∃ t, exec (.cNop imm) s = .next t ∧ s.WritesReg t .two 0 (0))) ∧
    (∀ imm : BitVec 6, (∃ t, exec (.cAddi rd imm) s = .next t ∧ s.WritesReg t .two rd (s.xlen.ofInt (s.xlen.asSigned (s.x rd) + imm.toInt)))) ∧
    (∀ imm : BitVec 6, (∃ t, exec (.cLi rd imm) s = .next t ∧ s.WritesReg t .two rd (s.xlen.ofInt imm.toInt))) ∧
    (∀ nzimm : BitVec 10, (∃ t, exec (.cAddi16sp nzimm) s = .next t ∧ s.WritesReg t .two 2 (s.xlen.ofInt (s.xlen.asSigned (s.x 2) + nzimm.toInt))))

/-- C.ADDIW, C.LUI and C.ANDI complete as the instruction they expand to.
44_compressed.md R196, R199, R202. C.ADDIW is an RV64-only row; the formula is stated for every state (log 15). -/
def Obligations.CompressedOtherImmediate : Prop :=
  ∀ (s : State) (rd : RegIdx) (imm : BitVec 6), s.Ready →
    (∃ t, exec (.cAddiw rd imm) s = .next t ∧ s.WritesReg t .two rd (s.xlen.ofInt (sextInt 32 ((s.x rd).toNat + imm.toInt)))) ∧
    (∃ t, exec (.cLui rd imm) s = .next t ∧ s.WritesReg t .two rd (s.xlen.ofInt (imm.toInt * 2 ^ 12))) ∧
    (∃ t, exec (.cAndi rd imm) s = .next t ∧ s.WritesReg t .two rd (s.x rd &&& s.xlen.ofInt imm.toInt))

/-- C.SRLI, C.SRAI and C.SLLI complete as the shift they expand to.
44_compressed.md R200, R201, R212. Shift amounts above 31 are decoded on RV64 only; the formula is stated for every state (log 15). -/
def Obligations.CompressedShifts : Prop :=
  ∀ (s : State) (rd : RegIdx) (shamt : BitVec 6), s.Ready →
    (∃ t, exec (.cSrli rd shamt) s = .next t ∧ s.WritesReg t .two rd (s.xlen.ofInt ((s.x rd).toNat / 2 ^ shamt.toNat))) ∧
    (∃ t, exec (.cSrai rd shamt) s = .next t ∧ s.WritesReg t .two rd (s.xlen.ofInt (s.xlen.asSigned (s.x rd) / 2 ^ shamt.toNat))) ∧
    (∃ t, exec (.cSlli rd shamt) s = .next t ∧ s.WritesReg t .two rd (s.xlen.ofInt ((s.x rd).toNat * 2 ^ shamt.toNat)))

/-- The compressed register forms complete as the instruction they expand to.
44_compressed.md R203 to R208, R216, R219. C.SUBW and C.ADDW are RV64-only rows; the formula is stated for every state (log 15). -/
def Obligations.CompressedRegister : Prop :=
  ∀ (s : State) (rd rs2 : RegIdx), s.Ready →
    (∃ t, exec (.cSub rd rs2) s = .next t ∧ s.WritesReg t .two rd (s.xlen.ofInt (s.xlen.asSigned (s.x rd) - s.xlen.asSigned (s.x rs2)))) ∧
    (∃ t, exec (.cXor rd rs2) s = .next t ∧ s.WritesReg t .two rd (s.x rd ^^^ s.x rs2)) ∧
    (∃ t, exec (.cOr rd rs2) s = .next t ∧ s.WritesReg t .two rd (s.x rd ||| s.x rs2)) ∧
    (∃ t, exec (.cAnd rd rs2) s = .next t ∧ s.WritesReg t .two rd (s.x rd &&& s.x rs2)) ∧
    (∃ t, exec (.cSubw rd rs2) s = .next t ∧ s.WritesReg t .two rd (s.xlen.ofInt (sextInt 32 ((s.x rd).toNat - (s.x rs2).toNat)))) ∧
    (∃ t, exec (.cAddw rd rs2) s = .next t ∧ s.WritesReg t .two rd (s.xlen.ofInt (sextInt 32 ((s.x rd).toNat + (s.x rs2).toNat)))) ∧
    (∃ t, exec (.cMv rd rs2) s = .next t ∧ s.WritesReg t .two rd (s.x rs2)) ∧
    (∃ t, exec (.cAdd rd rs2) s = .next t ∧ s.WritesReg t .two rd (s.xlen.ofInt (s.xlen.asSigned (s.x rd) + s.xlen.asSigned (s.x rs2))))

/-- C.J, C.JAL, C.JR and C.JALR: to an aligned target, linking pc + 2 into x1 in the linking forms; misaligned, a halt.
44_compressed.md R195, R209, R215, R218. C.JAL is an RV32-only row; the formula is stated for every state (log 15). The halt of C.J and C.JAL is that of the expansion (44_compressed.md R184; 41_control_transfer.md R143; 60_exceptions.md R238): decode never leads to it, so R195 and R209 name no exception. -/
def Obligations.CompressedJumps : Prop :=
  ∀ s : State, s.Ready →
    (∀ imm : BitVec 12,
      (s.TargetOk (s.pcTarget imm.toInt) →
        ∃ t, exec (.cJ imm) s = .next t ∧ s.RetiresTo t (s.pcTarget imm.toInt) 0 (0) none ∧ t.mem = s.mem) ∧
      (¬s.TargetOk (s.pcTarget imm.toInt) → ∃ t, exec (.cJ imm) s = .next t ∧ s.HaltsAt t (.misalignedTarget (s.pcTarget imm.toInt))) ∧
      (s.TargetOk (s.pcTarget imm.toInt) →
        ∃ t, exec (.cJal imm) s = .next t ∧ s.RetiresTo t (s.pcTarget imm.toInt) 1 (s.seqPc .two) none ∧ t.mem = s.mem) ∧
      (¬s.TargetOk (s.pcTarget imm.toInt) → ∃ t, exec (.cJal imm) s = .next t ∧ s.HaltsAt t (.misalignedTarget (s.pcTarget imm.toInt))) ∧
      (s.cfg.cEnabled = true → s.pc.toNat % 2 = 0 → imm.toNat % 2 = 0 → s.TargetOk (s.pcTarget imm.toInt))) ∧
    (∀ rs1 : RegIdx,
      (s.TargetOk (s.jumpTarget rs1 0) →
        ∃ t, exec (.cJr rs1) s = .next t ∧ s.RetiresTo t (s.jumpTarget rs1 0) 0 (0) none ∧ t.mem = s.mem) ∧
      (¬s.TargetOk (s.jumpTarget rs1 0) → ∃ t, exec (.cJr rs1) s = .next t ∧ s.HaltsAt t (.misalignedTarget (s.jumpTarget rs1 0))) ∧
      (s.TargetOk (s.jumpTarget rs1 0) →
        ∃ t, exec (.cJalr rs1) s = .next t ∧ s.RetiresTo t (s.jumpTarget rs1 0) 1 (s.seqPc .two) none ∧ t.mem = s.mem) ∧
      (¬s.TargetOk (s.jumpTarget rs1 0) → ∃ t, exec (.cJalr rs1) s = .next t ∧ s.HaltsAt t (.misalignedTarget (s.jumpTarget rs1 0))))

/-- C.BEQZ and C.BNEZ complete, taken and not taken; taken to a misaligned target, a halt.
44_compressed.md R210, R211. The halt is that of the expansion (44_compressed.md R184; 41_control_transfer.md R143; 60_exceptions.md R238): it needs C disabled, an odd pc or an odd offset, to which decode never leads, so R210 and R211 name no exception. -/
def Obligations.CompressedBranches : Prop :=
  ∀ (s : State) (rs1 : RegIdx) (imm : BitVec 9), s.Ready →
    (s.x rs1 = 0 → s.TargetOk (s.pcTarget imm.toInt) → ∃ t, exec (.cBeqz rs1 imm) s = .next t ∧ s.RetiresTo t (s.pcTarget imm.toInt) 0 (0) none ∧ t.mem = s.mem) ∧
    (s.x rs1 = 0 → ¬s.TargetOk (s.pcTarget imm.toInt) → ∃ t, exec (.cBeqz rs1 imm) s = .next t ∧ s.HaltsAt t (.misalignedTarget (s.pcTarget imm.toInt))) ∧
    (¬(s.x rs1 = 0) → ∃ t, exec (.cBeqz rs1 imm) s = .next t ∧ s.WritesReg t .two 0 0) ∧
    (s.x rs1 ≠ 0 → s.TargetOk (s.pcTarget imm.toInt) → ∃ t, exec (.cBnez rs1 imm) s = .next t ∧ s.RetiresTo t (s.pcTarget imm.toInt) 0 (0) none ∧ t.mem = s.mem) ∧
    (s.x rs1 ≠ 0 → ¬s.TargetOk (s.pcTarget imm.toInt) → ∃ t, exec (.cBnez rs1 imm) s = .next t ∧ s.HaltsAt t (.misalignedTarget (s.pcTarget imm.toInt))) ∧
    (¬(s.x rs1 ≠ 0) → ∃ t, exec (.cBnez rs1 imm) s = .next t ∧ s.WritesReg t .two 0 0) ∧
    (s.cfg.cEnabled = true → s.pc.toNat % 2 = 0 → imm.toNat % 2 = 0 → s.TargetOk (s.pcTarget imm.toInt))

/-- C.LW, C.LD, C.LWSP and C.LDSP complete as the load they expand to.
44_compressed.md R189, R190, R213, R214. C.LD and C.LDSP are RV64-only rows; the formula is stated for every state (log 15). -/
def Obligations.CompressedLoads : Prop :=
  ∀ (s : State) (rd rs1 : RegIdx), s.Ready →
    (∀ uimm : BitVec 7, (s.Accessible (s.effectiveAddress rs1 (unsignedOperand s.xlen uimm)) 4 →
      ∃ t, exec (.cLw rd rs1 uimm) s = .next t ∧
        s.RetiresTo t (s.seqPc .two) rd (s.xlen.ofInt (sextInt 32 (s.bytesAt (s.effectiveAddress rs1 (unsignedOperand s.xlen uimm)) 4)))
          (some ⟨.load, .word, s.effectiveAddress rs1 (unsignedOperand s.xlen uimm), BitVec.ofNat 64 (s.bytesAt (s.effectiveAddress rs1 (unsignedOperand s.xlen uimm)) 4)⟩) ∧ t.mem = s.mem) ∧
    (∀ c, s.FaultsWith .load (s.effectiveAddress rs1 (unsignedOperand s.xlen uimm)) 4 c → ∃ t, exec (.cLw rd rs1 uimm) s = .next t ∧ s.HaltsAt t c)) ∧
    (∀ uimm : BitVec 8, (s.Accessible (s.effectiveAddress rs1 (unsignedOperand s.xlen uimm)) 8 →
      ∃ t, exec (.cLd rd rs1 uimm) s = .next t ∧
        s.RetiresTo t (s.seqPc .two) rd (s.xlen.ofInt (s.bytesAt (s.effectiveAddress rs1 (unsignedOperand s.xlen uimm)) 8))
          (some ⟨.load, .double, s.effectiveAddress rs1 (unsignedOperand s.xlen uimm), BitVec.ofNat 64 (s.bytesAt (s.effectiveAddress rs1 (unsignedOperand s.xlen uimm)) 8)⟩) ∧ t.mem = s.mem) ∧
    (∀ c, s.FaultsWith .load (s.effectiveAddress rs1 (unsignedOperand s.xlen uimm)) 8 c → ∃ t, exec (.cLd rd rs1 uimm) s = .next t ∧ s.HaltsAt t c)) ∧
    (∀ uimm : BitVec 8, (s.Accessible (s.effectiveAddress 2 (unsignedOperand s.xlen uimm)) 4 →
      ∃ t, exec (.cLwsp rd uimm) s = .next t ∧
        s.RetiresTo t (s.seqPc .two) rd (s.xlen.ofInt (sextInt 32 (s.bytesAt (s.effectiveAddress 2 (unsignedOperand s.xlen uimm)) 4)))
          (some ⟨.load, .word, s.effectiveAddress 2 (unsignedOperand s.xlen uimm), BitVec.ofNat 64 (s.bytesAt (s.effectiveAddress 2 (unsignedOperand s.xlen uimm)) 4)⟩) ∧ t.mem = s.mem) ∧
    (∀ c, s.FaultsWith .load (s.effectiveAddress 2 (unsignedOperand s.xlen uimm)) 4 c → ∃ t, exec (.cLwsp rd uimm) s = .next t ∧ s.HaltsAt t c)) ∧
    (∀ uimm : BitVec 9, (s.Accessible (s.effectiveAddress 2 (unsignedOperand s.xlen uimm)) 8 →
      ∃ t, exec (.cLdsp rd uimm) s = .next t ∧
        s.RetiresTo t (s.seqPc .two) rd (s.xlen.ofInt (s.bytesAt (s.effectiveAddress 2 (unsignedOperand s.xlen uimm)) 8))
          (some ⟨.load, .double, s.effectiveAddress 2 (unsignedOperand s.xlen uimm), BitVec.ofNat 64 (s.bytesAt (s.effectiveAddress 2 (unsignedOperand s.xlen uimm)) 8)⟩) ∧ t.mem = s.mem) ∧
    (∀ c, s.FaultsWith .load (s.effectiveAddress 2 (unsignedOperand s.xlen uimm)) 8 c → ∃ t, exec (.cLdsp rd uimm) s = .next t ∧ s.HaltsAt t c))

/-- C.SW, C.SD, C.SWSP and C.SDSP complete as the store they expand to.
44_compressed.md R191, R192, R220, R221. C.SD and C.SDSP are RV64-only rows; the formula is stated for every state (log 15). -/
def Obligations.CompressedStores : Prop :=
  ∀ (s : State) (rs1 rs2 : RegIdx), s.Ready →
    (∀ uimm : BitVec 7, (s.Accessible (s.effectiveAddress rs1 (unsignedOperand s.xlen uimm)) 4 →
      ∃ t, exec (.cSw rs1 rs2 uimm) s = .next t ∧
        s.RetiresTo t (s.seqPc .two) 0 0
          (some ⟨.store, .word, s.effectiveAddress rs1 (unsignedOperand s.xlen uimm), BitVec.ofNat 64 ((s.x rs2).toNat % 256 ^ 4)⟩) ∧
        (∀ k < 4, t.mem.read (((s.effectiveAddress rs1 (unsignedOperand s.xlen uimm)).toNat + k) % 2 ^ s.xlen.bits) = BitVec.ofNat 8 ((s.x rs2).toNat / 256 ^ k)) ∧
        (∀ a, (∀ k < 4, a ≠ ((s.effectiveAddress rs1 (unsignedOperand s.xlen uimm)).toNat + k) % 2 ^ s.xlen.bits) → t.mem.read a = s.mem.read a)) ∧
    (∀ c, s.FaultsWith .store (s.effectiveAddress rs1 (unsignedOperand s.xlen uimm)) 4 c → ∃ t, exec (.cSw rs1 rs2 uimm) s = .next t ∧ s.HaltsAt t c)) ∧
    (∀ uimm : BitVec 8, (s.Accessible (s.effectiveAddress rs1 (unsignedOperand s.xlen uimm)) 8 →
      ∃ t, exec (.cSd rs1 rs2 uimm) s = .next t ∧
        s.RetiresTo t (s.seqPc .two) 0 0
          (some ⟨.store, .double, s.effectiveAddress rs1 (unsignedOperand s.xlen uimm), BitVec.ofNat 64 ((s.x rs2).toNat % 256 ^ 8)⟩) ∧
        (∀ k < 8, t.mem.read (((s.effectiveAddress rs1 (unsignedOperand s.xlen uimm)).toNat + k) % 2 ^ s.xlen.bits) = BitVec.ofNat 8 ((s.x rs2).toNat / 256 ^ k)) ∧
        (∀ a, (∀ k < 8, a ≠ ((s.effectiveAddress rs1 (unsignedOperand s.xlen uimm)).toNat + k) % 2 ^ s.xlen.bits) → t.mem.read a = s.mem.read a)) ∧
    (∀ c, s.FaultsWith .store (s.effectiveAddress rs1 (unsignedOperand s.xlen uimm)) 8 c → ∃ t, exec (.cSd rs1 rs2 uimm) s = .next t ∧ s.HaltsAt t c)) ∧
    (∀ uimm : BitVec 8, (s.Accessible (s.effectiveAddress 2 (unsignedOperand s.xlen uimm)) 4 →
      ∃ t, exec (.cSwsp rs2 uimm) s = .next t ∧
        s.RetiresTo t (s.seqPc .two) 0 0
          (some ⟨.store, .word, s.effectiveAddress 2 (unsignedOperand s.xlen uimm), BitVec.ofNat 64 ((s.x rs2).toNat % 256 ^ 4)⟩) ∧
        (∀ k < 4, t.mem.read (((s.effectiveAddress 2 (unsignedOperand s.xlen uimm)).toNat + k) % 2 ^ s.xlen.bits) = BitVec.ofNat 8 ((s.x rs2).toNat / 256 ^ k)) ∧
        (∀ a, (∀ k < 4, a ≠ ((s.effectiveAddress 2 (unsignedOperand s.xlen uimm)).toNat + k) % 2 ^ s.xlen.bits) → t.mem.read a = s.mem.read a)) ∧
    (∀ c, s.FaultsWith .store (s.effectiveAddress 2 (unsignedOperand s.xlen uimm)) 4 c → ∃ t, exec (.cSwsp rs2 uimm) s = .next t ∧ s.HaltsAt t c)) ∧
    (∀ uimm : BitVec 9, (s.Accessible (s.effectiveAddress 2 (unsignedOperand s.xlen uimm)) 8 →
      ∃ t, exec (.cSdsp rs2 uimm) s = .next t ∧
        s.RetiresTo t (s.seqPc .two) 0 0
          (some ⟨.store, .double, s.effectiveAddress 2 (unsignedOperand s.xlen uimm), BitVec.ofNat 64 ((s.x rs2).toNat % 256 ^ 8)⟩) ∧
        (∀ k < 8, t.mem.read (((s.effectiveAddress 2 (unsignedOperand s.xlen uimm)).toNat + k) % 2 ^ s.xlen.bits) = BitVec.ofNat 8 ((s.x rs2).toNat / 256 ^ k)) ∧
        (∀ a, (∀ k < 8, a ≠ ((s.effectiveAddress 2 (unsignedOperand s.xlen uimm)).toNat + k) % 2 ^ s.xlen.bits) → t.mem.read a = s.mem.read a)) ∧
    (∀ c, s.FaultsWith .store (s.effectiveAddress 2 (unsignedOperand s.xlen uimm)) 8 c → ∃ t, exec (.cSdsp rs2 uimm) s = .next t ∧ s.HaltsAt t c))

/-- A run ends at END_PC while running, at a fault, or when the host's number of steps is used up.
70_reset_and_hazards.md R257. The run is the host's; the block itself detects nothing at END_PC (log 18). -/
def Obligations.RunEnds : Prop :=
  ∀ (n : Nat) (s t : State),
    ((s.halt = .running ∧ s.cfg.endPc = some s.pc) → hostRun n s = .reachedEnd s) ∧
    (s.halt ≠ .running → hostRun n s = .faulted s) ∧
    ((s.halt = .running ∧ s.cfg.endPc ≠ some s.pc) → hostRun 0 s = .outOfFuel s) ∧
    ((s.halt = .running ∧ s.cfg.endPc ≠ some s.pc ∧ step s = .next t) → hostRun (n + 1) s = hostRun n t)

/-- The Immediate and the operand of every base format: bit groups, width, signedness and lsb0.
30_encoding.md R79; the U row's operand is R80's (90_conflicts.md C5). -/
def Obligations.BaseImmediates : Prop :=
  ∀ (x : XLen) (w : BitVec 32) (rd rs1 rs2 : RegIdx) (i12 : BitVec 12) (i13 : BitVec 13) (i20 : BitVec 20)
      (i21 : BitVec 21) (s5 : BitVec 5) (s6 : BitVec 6),
    (let f : BitVec 12 := w.extractLsb' 20 12;
      Extracts w ⟨12, true, false, f.toInt⟩ (i12 = f)
        [.jalr rd rs1 i12, .lb rd rs1 i12, .lh rd rs1 i12, .lw rd rs1 i12, .ld rd rs1 i12, .lbu rd rs1 i12,
         .lhu rd rs1 i12, .lwu rd rs1 i12, .addi rd rs1 i12, .slti rd rs1 i12, .sltiu rd rs1 i12,
         .xori rd rs1 i12, .ori rd rs1 i12, .andi rd rs1 i12, .addiw rd rs1 i12] ∧
      signedOperand x f = x.ofInt f.toInt) ∧
    (let f : BitVec 12 := w.extractLsb' 25 7 ++ w.extractLsb' 7 5;
      Extracts w ⟨12, true, false, f.toInt⟩ (i12 = f)
        [.sb rs1 rs2 i12, .sh rs1 rs2 i12, .sw rs1 rs2 i12, .sd rs1 rs2 i12] ∧
      signedOperand x f = x.ofInt f.toInt) ∧
    (let f : BitVec 13 := w.extractLsb' 31 1 ++ w.extractLsb' 7 1 ++ w.extractLsb' 25 6 ++ w.extractLsb' 8 4 ++ 0#1;
      Extracts w ⟨13, true, true, f.toInt⟩ (i13 = f)
        [.beq rs1 rs2 i13, .bne rs1 rs2 i13, .blt rs1 rs2 i13, .bge rs1 rs2 i13, .bltu rs1 rs2 i13,
         .bgeu rs1 rs2 i13] ∧
      signedOperand x f = x.ofInt f.toInt) ∧
    (let f : BitVec 20 := w.extractLsb' 12 20;
      Extracts w ⟨32, false, false, f.toNat * 2 ^ 12⟩ (i20 = f)
        [.lui rd i20, .auipc rd i20] ∧
      upperOperand x f = x.ofInt (sextInt 32 (f.toNat * 2 ^ 12))) ∧
    (let f : BitVec 21 := w.extractLsb' 31 1 ++ w.extractLsb' 12 8 ++ w.extractLsb' 20 1 ++ w.extractLsb' 21 10 ++ 0#1;
      Extracts w ⟨21, true, true, f.toInt⟩ (i21 = f)
        [.jal rd i21] ∧
      signedOperand x f = x.ofInt f.toInt) ∧
    (let f : BitVec 5 := w.extractLsb' 20 5;
      Extracts w ⟨5, false, false, f.toNat⟩ (s5 = f)
        [.slli32 rd rs1 s5, .srli32 rd rs1 s5, .srai32 rd rs1 s5, .slliw rd rs1 s5, .srliw rd rs1 s5,
         .sraiw rd rs1 s5] ∧
      unsignedOperand x f = x.ofInt f.toNat ∧ shamtOperand f = f.toNat) ∧
    (let f : BitVec 6 := w.extractLsb' 20 6;
      Extracts w ⟨6, false, false, f.toNat⟩ (s6 = f)
        [.slli64 rd rs1 s6, .srli64 rd rs1 s6, .srai64 rd rs1 s6] ∧
      unsignedOperand x f = x.ofInt f.toNat ∧ shamtOperand f = f.toNat) ∧
    (let f : BitVec 5 := w.extractLsb' 15 5;
      Extracts w ⟨5, false, false, f.toNat⟩ (s5 = f)
        [.csrrwi rd s5 i12, .csrrsi rd s5 i12, .csrrci rd s5 i12])

/-- The Immediate of every compressed form: bit groups, width, signedness and lsb0.
30_encoding.md R84. -/
def Obligations.CompressedImmediates : Prop :=
  ∀ (x : XLen) (w : BitVec 32) (rd rs1 rs2 : RegIdx) (u6 : BitVec 6) (u7 : BitVec 7) (u8 : BitVec 8) (u9 : BitVec 9)
      (u10 : BitVec 10) (u12 : BitVec 12),
    (let f : BitVec 10 := w.extractLsb' 7 4 ++ w.extractLsb' 11 2 ++ w.extractLsb' 5 1 ++ w.extractLsb' 6 1 ++ 0b00#2;
      Extracts w ⟨10, false, true, f.toNat⟩ (u10 = f)
        [.cAddi4spn rd u10] ∧
      unsignedOperand x f = x.ofInt f.toNat) ∧
    (let f : BitVec 7 := w.extractLsb' 5 1 ++ w.extractLsb' 10 3 ++ w.extractLsb' 6 1 ++ 0b00#2;
      Extracts w ⟨7, false, true, f.toNat⟩ (u7 = f)
        [.cLw rd rs1 u7, .cSw rs1 rs2 u7] ∧
      unsignedOperand x f = x.ofInt f.toNat) ∧
    (let f : BitVec 8 := w.extractLsb' 5 2 ++ w.extractLsb' 10 3 ++ 0b000#3;
      Extracts w ⟨8, false, true, f.toNat⟩ (u8 = f)
        [.cLd rd rs1 u8, .cSd rs1 rs2 u8] ∧
      unsignedOperand x f = x.ofInt f.toNat) ∧
    (let f : BitVec 6 := w.extractLsb' 12 1 ++ w.extractLsb' 2 5;
      Extracts w ⟨6, true, false, f.toInt⟩ (u6 = f)
        [.cNop u6, .cAddi rd u6, .cAddiw rd u6, .cLi rd u6, .cAndi rd u6] ∧
      signedOperand x f = x.ofInt f.toInt) ∧
    (let f : BitVec 10 := w.extractLsb' 12 1 ++ w.extractLsb' 3 2 ++ w.extractLsb' 5 1 ++ w.extractLsb' 2 1
          ++ w.extractLsb' 6 1 ++ 0b0000#4;
      Extracts w ⟨10, true, true, f.toInt⟩ (u10 = f)
        [.cAddi16sp u10] ∧
      signedOperand x f = x.ofInt f.toInt) ∧
    (let f : BitVec 6 := w.extractLsb' 12 1 ++ w.extractLsb' 2 5;
      Extracts w ⟨18, true, false, f.toInt * 2 ^ 12⟩ (u6 = f)
        [.cLui rd u6] ∧
      cLuiOperand x f = x.ofInt (f.toInt * 2 ^ 12)) ∧
    (let f : BitVec 6 := w.extractLsb' 12 1 ++ w.extractLsb' 2 5;
      Extracts w ⟨6, false, false, f.toNat⟩ (u6 = f)
        [.cSlli rd u6, .cSrli rd u6, .cSrai rd u6] ∧
      unsignedOperand x f = x.ofInt f.toNat ∧ shamtOperand f = f.toNat) ∧
    (let f : BitVec 8 := w.extractLsb' 2 2 ++ w.extractLsb' 12 1 ++ w.extractLsb' 4 3 ++ 0b00#2;
      Extracts w ⟨8, false, true, f.toNat⟩ (u8 = f)
        [.cLwsp rd u8] ∧
      unsignedOperand x f = x.ofInt f.toNat) ∧
    (let f : BitVec 9 := w.extractLsb' 2 3 ++ w.extractLsb' 12 1 ++ w.extractLsb' 5 2 ++ 0b000#3;
      Extracts w ⟨9, false, true, f.toNat⟩ (u9 = f)
        [.cLdsp rd u9] ∧
      unsignedOperand x f = x.ofInt f.toNat) ∧
    (let f : BitVec 8 := w.extractLsb' 7 2 ++ w.extractLsb' 9 4 ++ 0b00#2;
      Extracts w ⟨8, false, true, f.toNat⟩ (u8 = f)
        [.cSwsp rs2 u8] ∧
      unsignedOperand x f = x.ofInt f.toNat) ∧
    (let f : BitVec 9 := w.extractLsb' 7 3 ++ w.extractLsb' 10 3 ++ 0b000#3;
      Extracts w ⟨9, false, true, f.toNat⟩ (u9 = f)
        [.cSdsp rs2 u9] ∧
      unsignedOperand x f = x.ofInt f.toNat) ∧
    (let f : BitVec 12 := w.extractLsb' 12 1 ++ w.extractLsb' 8 1 ++ w.extractLsb' 9 2 ++ w.extractLsb' 6 1
          ++ w.extractLsb' 7 1 ++ w.extractLsb' 2 1 ++ w.extractLsb' 11 1 ++ w.extractLsb' 3 3 ++ 0#1;
      Extracts w ⟨12, true, true, f.toInt⟩ (u12 = f)
        [.cJ u12, .cJal u12] ∧
      signedOperand x f = x.ofInt f.toInt) ∧
    (let f : BitVec 9 := w.extractLsb' 12 1 ++ w.extractLsb' 5 2 ++ w.extractLsb' 2 1 ++ w.extractLsb' 10 2
          ++ w.extractLsb' 3 2 ++ 0#1;
      Extracts w ⟨9, true, true, f.toInt⟩ (u9 = f)
        [.cBeqz rs1 u9, .cBnez rs1 u9] ∧
      signedOperand x f = x.ofInt f.toInt)
end

