-- ==== Sys2Proof/Laws/Arith.lean ====
section
/-! SUPPORT. XLEN-bit arithmetic in terms of integers modulo 2^XLEN (00_scope.md R13, 10_state.md R20 to R25). -/

namespace Sys2Proof

open Sys2Proof.Machine

variable (x : XLen)

theorem XLen.bits_le : x.bits ≤ 64 := by cases x <;> decide

theorem XLen.pow_bits_dvd : (2 ^ x.bits : Nat) ∣ 2 ^ 64 := Nat.pow_dvd_pow 2 (XLen.bits_le x)

theorem XLen.pow_bits_dvd_int : (2 ^ x.bits : Int) ∣ 2 ^ 64 := by exact_mod_cast XLen.pow_bits_dvd x

/-- `wrap` is the remainder modulo 2^XLEN. -/
@[simp] theorem XLen.toNat_wrap (v : Word) : (x.wrap v).toNat = v.toNat % 2 ^ x.bits := by
  cases x
  · simp only [XLen.wrap, XLen.bits, BitVec.toNat_setWidth]; omega
  · simp only [XLen.wrap, XLen.bits]; exact (Nat.mod_eq_of_lt v.isLt).symm

@[simp] theorem XLen.wrap_wrap (v : Word) : x.wrap (x.wrap v) = x.wrap v := by
  apply BitVec.eq_of_toNat_eq; simp

@[simp] theorem XLen.wrap_zero : x.wrap 0#64 = 0#64 := by cases x <;> rfl

@[simp] theorem XLen.toNat_ofInt (i : Int) : (x.ofInt i).toNat = (i % 2 ^ x.bits).toNat := by
  have h0 : 0 ≤ i % 2 ^ x.bits := Int.emod_nonneg _ (by positivity)
  have h1 : i % 2 ^ x.bits < 2 ^ x.bits := Int.emod_lt_of_pos _ (by positivity)
  have h2 : (2 ^ x.bits : Int) ≤ 2 ^ 64 := pow_le_pow_right₀ (by norm_num) (XLen.bits_le x)
  rw [XLen.ofInt, BitVec.toNat_ofNat, Nat.mod_eq_of_lt]
  omega

/-- Two integers give one XLEN-bit vector exactly when they agree modulo 2^XLEN. -/
theorem XLen.wrap_eq_ofInt (v : Word) (i : Int) (h : (v.toNat : Int) % 2 ^ x.bits = i % 2 ^ x.bits) :
    x.wrap v = x.ofInt i := by
  apply BitVec.eq_of_toNat_eq
  rw [XLen.toNat_wrap, XLen.toNat_ofInt, ← h]
  norm_cast

theorem XLen.ofInt_congr {i j : Int} (h : i % 2 ^ x.bits = j % 2 ^ x.bits) : x.ofInt i = x.ofInt j := by
  rw [XLen.ofInt, XLen.ofInt, h]

@[simp] theorem XLen.wrap_ofInt (i : Int) : x.wrap (x.ofInt i) = x.ofInt i := by
  apply BitVec.eq_of_toNat_eq
  rw [XLen.toNat_wrap, XLen.toNat_ofInt]
  have h0 : 0 ≤ i % 2 ^ x.bits := Int.emod_nonneg _ (by positivity)
  have h1 : i % 2 ^ x.bits < 2 ^ x.bits := Int.emod_lt_of_pos _ (by positivity)
  apply Nat.mod_eq_of_lt
  zify
  rw [Int.toNat_of_nonneg h0]; exact h1

/-- A vector and its two's-complement reading agree modulo 2^XLEN. -/
theorem XLen.asSigned_emod (v : Word) : x.asSigned v % 2 ^ x.bits = (v.toNat : Int) % 2 ^ x.bits := by
  cases x
  · simp only [XLen.asSigned, XLen.bits, BitVec.toInt_eq_toNat_bmod, BitVec.toNat_setWidth]
    rw [show ((2 : Int) ^ 32) = ((2 ^ 32 : Nat) : Int) by norm_num, Int.bmod_emod]
    omega
  · simp only [XLen.asSigned, XLen.bits, BitVec.toInt_eq_toNat_bmod]
    rw [show ((2 : Int) ^ 64) = ((2 ^ 64 : Nat) : Int) by norm_num, Int.bmod_emod]

/-- The container's own wrap-around at 64 bits does not show. -/
theorem XLen.emod_pow64 (i : Int) : i % 2 ^ 64 % 2 ^ x.bits = i % 2 ^ x.bits :=
  Int.emod_emod_of_dvd i (XLen.pow_bits_dvd_int x)

theorem toNat_add_emod (a b : Word) : ((a + b).toNat : Int) % 2 ^ x.bits = ((a.toNat : Int) + b.toNat) % 2 ^ x.bits := by
  rw [BitVec.toNat_add, Int.natCast_mod]
  push_cast
  exact XLen.emod_pow64 x _

theorem toNat_sub_emod (a b : Word) : ((a - b).toNat : Int) % 2 ^ x.bits = ((a.toNat : Int) - b.toNat) % 2 ^ x.bits := by
  have hb : b.toNat ≤ 2 ^ 64 := b.isLt.le
  rw [BitVec.toNat_sub, Int.natCast_mod, Nat.cast_add, Nat.cast_sub hb]
  push_cast
  rw [show (18446744073709551616 : Int) = 2 ^ 64 by norm_num, XLen.emod_pow64 x]
  obtain ⟨k, hk⟩ := XLen.pow_bits_dvd_int x
  rw [show (2 ^ 64 - (b.toNat : Int) + a.toNat) = (a.toNat - b.toNat) + 2 ^ x.bits * k by rw [← hk]; ring]
  exact Int.add_mul_emod_self_left ..

/-- ADD: the exact sum of the signed readings, modulo 2^XLEN. -/
theorem XLen.wrap_add (a b : Word) : x.wrap (a + b) = x.ofInt (x.asSigned a + x.asSigned b) := by
  apply XLen.wrap_eq_ofInt
  rw [toNat_add_emod, Int.add_emod, ← XLen.asSigned_emod, ← XLen.asSigned_emod x b, ← Int.add_emod]

/-- SUB: the exact difference of the signed readings, modulo 2^XLEN. -/
theorem XLen.wrap_sub (a b : Word) : x.wrap (a - b) = x.ofInt (x.asSigned a - x.asSigned b) := by
  apply XLen.wrap_eq_ofInt
  rw [toNat_sub_emod, Int.sub_emod, ← XLen.asSigned_emod, ← XLen.asSigned_emod x b, ← Int.sub_emod]

theorem XLen.wrap_add_unsigned (a b : Word) : x.wrap (a + b) = x.ofInt ((a.toNat : Int) + b.toNat) :=
  XLen.wrap_eq_ofInt x _ _ (toNat_add_emod x a b)

@[simp] theorem XLen.asSigned_wrap (v : Word) : x.asSigned (x.wrap v) = x.asSigned v := by
  cases x
  · simp only [XLen.asSigned, XLen.wrap]
    congr 1
    apply BitVec.eq_of_toNat_eq
    simp only [BitVec.toNat_setWidth]; omega
  · rfl

theorem toNat_signExtend_emod {n : Nat} (hn : n ≤ 64) (v : BitVec n) :
    ((v.signExtend 64).toNat : Int) % 2 ^ x.bits = v.toInt % 2 ^ x.bits := by
  have h := BitVec.toInt_signExtend_of_le (x := v) hn
  rw [BitVec.toInt_eq_toNat_bmod] at h
  rw [← h, ← XLen.emod_pow64 x (Int.bmod _ _), show ((2 : Int) ^ 64) = ((2 ^ 64 : Nat) : Int) by norm_num, Int.bmod_emod]
  rw [show (((2 ^ 64 : Nat)) : Int) = (2 : Int) ^ 64 by norm_num, XLen.emod_pow64]

/-- `sext_N` is the field's signed value, modulo 2^XLEN. -/
theorem XLen.sext_eq {n : Nat} (hn : n ≤ 64) (v : BitVec n) : x.sext v = x.ofInt v.toInt :=
  XLen.wrap_eq_ofInt x _ _ (toNat_signExtend_emod x hn v)

/-- `zext_N` is the field's unsigned value, modulo 2^XLEN. -/
theorem XLen.zext_eq {n : Nat} (hn : n ≤ 64) (v : BitVec n) : x.zext v = x.ofInt v.toNat := by
  apply XLen.wrap_eq_ofInt
  rw [BitVec.toNat_setWidth, Nat.mod_eq_of_lt (lt_of_lt_of_le v.isLt (Nat.pow_le_pow_right (by norm_num) hn))]

theorem XLen.asSigned_ofInt_emod (i : Int) : x.asSigned (x.ofInt i) % 2 ^ x.bits = i % 2 ^ x.bits := by
  rw [XLen.asSigned_emod, XLen.toNat_ofInt, Int.toNat_of_nonneg (Int.emod_nonneg _ (by positivity)), Int.emod_emod]

/-- A sum whose second term is an integer operand. -/
theorem XLen.wrap_add_ofInt (a : Word) (i : Int) : x.wrap (a + x.ofInt i) = x.ofInt (x.asSigned a + i) := by
  rw [XLen.wrap_add]
  apply XLen.ofInt_congr
  rw [Int.add_emod, XLen.asSigned_ofInt_emod, ← Int.add_emod]

/-- The same over the unsigned reading, as an address or the pc is read. -/
theorem XLen.wrap_add_ofInt_unsigned (a : Word) (i : Int) : x.wrap (a + x.ofInt i) = x.ofInt (a.toNat + i) := by
  rw [XLen.wrap_add_ofInt]
  apply XLen.ofInt_congr
  rw [Int.add_emod, XLen.asSigned_emod, ← Int.add_emod]

/-- The signed reading of an operand that is small enough to be held. -/
theorem XLen.asSigned_ofInt (i : Int) (h0 : -2 ^ (x.bits - 1) ≤ i) (h1 : i < 2 ^ (x.bits - 1)) :
    x.asSigned (x.ofInt i) = i := by
  have hb : ∀ v : Word, -2 ^ (x.bits - 1) ≤ x.asSigned v ∧ x.asSigned v < 2 ^ (x.bits - 1) := by
    intro v
    cases x
    · exact ⟨BitVec.le_toInt _, BitVec.toInt_lt⟩
    · exact ⟨BitVec.le_toInt _, BitVec.toInt_lt⟩
  have hv := hb (x.ofInt i)
  have he := XLen.asSigned_ofInt_emod x i
  cases x <;> simp only [XLen.bits] at * <;> omega

/-! ### Shifts -/

/-- A left shift multiplies by 2^s, modulo 2^XLEN. -/
theorem XLen.wrap_sll (a : Word) (s : Nat) : x.wrap (x.sll a s) = x.ofInt (a.toNat * 2 ^ s) := by
  rw [XLen.sll, XLen.wrap_wrap]
  apply XLen.wrap_eq_ofInt
  rw [BitVec.toNat_shiftLeft, Nat.shiftLeft_eq, Int.natCast_mod]
  push_cast
  exact XLen.emod_pow64 x _

/-- A logical right shift divides the unsigned reading by 2^s. -/
theorem XLen.wrap_srl (a : Word) (s : Nat) : x.wrap (x.srl a s) = x.ofInt ((x.wrap a).toNat / 2 ^ s : Nat) := by
  apply XLen.wrap_eq_ofInt
  rw [XLen.srl, BitVec.toNat_ushiftRight, Nat.shiftRight_eq_div_pow]

theorem toNat_sshiftRight_emod (n : Nat) (a : BitVec n) (s : Nat) :
    ((a.sshiftRight s).toNat : Int) % 2 ^ n = (a.toInt / 2 ^ s) % 2 ^ n := by
  have h := BitVec.toInt_sshiftRight (x := a) (n := s)
  rw [Int.shiftRight_eq_div_pow] at h
  have h2 := congrArg (· % ((2 ^ n : Nat) : Int)) h
  simp only [BitVec.toInt_eq_toNat_bmod (a.sshiftRight s), Int.bmod_emod] at h2
  exact_mod_cast h2

/-- An arithmetic right shift divides the signed reading by 2^s, rounding down. -/
theorem XLen.wrap_sra (a : Word) (s : Nat) : x.wrap (x.sra a s) = x.ofInt (x.asSigned a / 2 ^ s) := by
  apply XLen.wrap_eq_ofInt
  cases x
  · simp only [XLen.sra, XLen.asSigned, XLen.bits]
    rw [← toNat_sshiftRight_emod 32 (a.setWidth 32) s, BitVec.toNat_setWidth, Nat.mod_eq_of_lt]
    exact lt_of_lt_of_le (BitVec.isLt _) (by norm_num)
  · exact toNat_sshiftRight_emod 64 a s

/-- Every representable integer is the number of its own bits. -/
theorem XLen.shiftAmount_eq (v : Word) : x.shiftAmount v = v.toNat % x.bits := by
  cases x <;> simp [XLen.shiftAmount, XLen.bits]

theorem shiftAmountW_eq (v : Word) : shiftAmountW v = v.toNat % 32 := by simp [shiftAmountW]

/-! ### The W forms -/

theorem sextInt_eq_bmod (n : Nat) (hn : 0 < n) (i : Int) : sextInt n i = Int.bmod i (2 ^ n) := by
  obtain ⟨m, rfl⟩ : ∃ m, n = m + 1 := ⟨n - 1, by omega⟩
  have h : ((2 ^ (m + 1) : Nat) + 1 : Int) / 2 = 2 ^ m := by
    push_cast; rw [pow_succ]; omega
  rw [sextInt, Int.bmod, h]
  push_cast
  simp

/-- The signed reading of an n-bit vector is `sext_n` of its number. -/
theorem toInt_eq_sextInt {n : Nat} (hn : 0 < n) (v : BitVec n) : v.toInt = sextInt n v.toNat := by
  rw [BitVec.toInt_eq_toNat_bmod, sextInt_eq_bmod n hn]

theorem sextInt_congr {n : Nat} {i j : Int} (h : i % 2 ^ n = j % 2 ^ n) : sextInt n i = sextInt n j := by
  rw [sextInt, sextInt, h]

/-- A W form's result, from any integer the 32-bit vector agrees with modulo 2^32. -/
theorem wordResult_eq (v : BitVec 32) (i : Int) (h : (v.toNat : Int) % 2 ^ 32 = i % 2 ^ 32) :
    wordResult x v = x.ofInt (sextInt 32 i) := by
  rw [wordResult, XLen.sext_eq x (by norm_num), toInt_eq_sextInt (by norm_num), sextInt_congr h]

theorem toNat_low32 (v : Word) : (low32 v).toNat = v.toNat % 2 ^ 32 := BitVec.toNat_setWidth ..

end Sys2Proof
end

