-- ==== Sys2Proof/Laws/Immediate.lean ====
section
/-! SUPPORT. What `set_from_bits` reads from raw bits, and what operand the value becomes (30_encoding.md R75, R81). -/

namespace Sys2Proof.Machine

/-- The mask of the top bit, by the range of the raw bits. -/
theorem and_topBit (bits raw : Nat) (h0 : 0 < bits) (h : raw < 2 ^ bits) :
    raw &&& 2 ^ (bits - 1) = if raw < 2 ^ (bits - 1) then 0 else 2 ^ (bits - 1) := by
  obtain ⟨m, rfl⟩ : ∃ m, bits = m + 1 := ⟨bits - 1, by omega⟩
  simp only [Nat.add_sub_cancel]
  rw [Nat.and_two_pow, Nat.testBit_eq_decide_div_mod_eq]
  rw [pow_succ] at h
  split
  · rw [Nat.div_eq_of_lt (by assumption)]; simp
  · have : raw / 2 ^ m = 1 := by apply Nat.div_eq_of_lt_le <;> omega
    rw [this]; simp

/-- An unsigned field is read as it stands. -/
theorem Immediate.rawValue_unsigned (bits raw : Nat) (lsb0 : Bool) :
    (Immediate.blank bits false lsb0).rawValue raw = raw := rfl

/-- A signed field is read in two's complement. -/
theorem Immediate.rawValue_signed (bits raw : Nat) (lsb0 : Bool) (h0 : 0 < bits) (h : raw < 2 ^ bits) :
    (Immediate.blank bits true lsb0).rawValue raw = sextInt bits raw := by
  simp only [Immediate.rawValue, Immediate.blank, if_true]
  rw [and_topBit bits raw h0 h, sextInt, Int.emod_eq_of_lt (by omega) (by exact_mod_cast h)]
  obtain ⟨m, rfl⟩ : ∃ m, bits = m + 1 := ⟨bits - 1, by omega⟩
  simp only [Nat.add_sub_cancel]
  by_cases hc : raw < 2 ^ m
  · have : (raw : Int) < 2 ^ m := by exact_mod_cast hc
    simp [hc, this]
  · have h2 : ¬ (raw : Int) < 2 ^ m := by exact_mod_cast hc
    simp only [if_neg hc, if_neg h2, pow_succ, Int.ofNat_eq_natCast]
    rw [Nat.cast_sub (by omega)]; push_cast; omega

/-- The operand of an Immediate is its value modulo 2^XLEN. -/
theorem Immediate.operand_eq (x : XLen) (im : Immediate) : im.operand x = x.ofInt im.value := by
  unfold Immediate.operand
  apply XLen.wrap_eq_ofInt
  rw [BitVec.toNat_ofInt, Int.toNat_of_nonneg (Int.emod_nonneg _ (by norm_num))]
  push_cast; exact XLen.emod_pow64 x _

/-- The value of a signed field. -/
theorem Immediate.ofField_signed {n : Nat} (v : BitVec n) (lsb0 : Bool) :
    (Immediate.ofField true lsb0 v).value = v.toInt := by
  rcases Nat.eq_zero_or_pos n with rfl | h0
  · rw [BitVec.of_length_zero (x := v)]; cases lsb0 <;> decide
  · rw [toInt_eq_sextInt h0]; exact Immediate.rawValue_signed n v.toNat lsb0 h0 v.isLt

/-- The value of an unsigned field. -/
theorem Immediate.ofField_unsigned {n : Nat} (v : BitVec n) (lsb0 : Bool) :
    (Immediate.ofField false lsb0 v).value = v.toNat := rfl

/-- Extraction succeeds on every field (an even one, where lsb0 holds), and gives the Immediate the instruction carries. -/
theorem Immediate.extract_ok (signed lsb0 : Bool) {n : Nat} (h0 : 0 < n) (v : BitVec n)
    (hl : lsb0 = true → v.toNat % 2 = 0) :
    Immediate.extract signed lsb0 v = .ok (Immediate.ofField signed lsb0 v) := by
  obtain ⟨m, rfl⟩ : ∃ m, n = m + 1 := ⟨n - 1, by omega⟩
  have hb : (v.toNat : Int) < 2 ^ (m + 1) := by exact_mod_cast v.isLt
  have hd : (2 : Int) ^ (m + 1) = 2 * 2 ^ m := by rw [pow_succ]; ring
  have hp : (0 : Int) < 2 ^ m := by positivity
  have hp2 : (2 : Int) ^ m = 1 ∨ (2 : Int) ^ m % 2 = 0 := by
    rcases m with _ | k
    · exact .inl rfl
    · right; rw [pow_succ]; omega
  have hr : (0 : Int) ≤ v.toNat := by omega
  have he : lsb0 = true → (v.toNat : Int) % 2 = 0 := fun h => by have := hl h; omega
  have hv : (Immediate.blank (m + 1) signed lsb0).rawValue v.toNat =
      if signed = true ∧ ¬ (v.toNat : Int) < 2 ^ m then (v.toNat : Int) - 2 * 2 ^ m else v.toNat := by
    cases signed
    · rfl
    · rw [Immediate.rawValue_signed _ _ _ h0 v.isLt, sextInt, Int.emod_eq_of_lt (by omega) hb, ← hd]
      simp only [Nat.add_sub_cancel, true_and]
      by_cases h : (v.toNat : Int) < 2 ^ m <;> simp [h]
  refine if_neg ?_
  rw [hv]
  simp only [Immediate.min, Immediate.max, Immediate.blank, Nat.add_sub_cancel, hd]
  rw [hd] at hb
  generalize (2 : Int) ^ m = p at *
  generalize (v.toNat : Int) = r at *
  clear hd hv
  cases signed <;> cases lsb0 <;> simp only [Bool.false_eq_true, true_and, false_and, if_false, if_true, reduceCtorEq,
    forall_const, false_or] at he ⊢
  · omega
  · omega
  · split <;> omega
  · split <;> omega

end Sys2Proof.Machine
end

