-- ==== Sys2Proof/Laws/Decode.lean ====
section
/-! SUPPORT. Each field of each encoding: what the decoder's field functions read from what the encoder lays out. The immediate
extractor never fails, so that decoding is the row's match. -/

namespace Sys2Proof

/-- A statement about two bit vectors, bit by bit. -/
theorem eq_of_bits {n : Nat} {a b : BitVec n} (h : ∀ i < n, a.getLsbD i = b.getLsbD i) : a = b :=
  BitVec.eq_of_getLsbD_eq h


/-! ### encR -/

@[simp] theorem opcodeOf_encR (f7 : BitVec 7) (rs2 rs1 : RegIdx) (f3 : BitVec 3) (rd : RegIdx) (op : BitVec 7) :
    opcodeOf (encR f7 rs2 rs1 f3 rd op) = op := by
  apply eq_of_bits; intro i hi
  simp only [encR, opcodeOf, BitVec.extractLsb, BitVec.getLsbD_extractLsb', BitVec.getLsbD_append]
  interval_cases i <;> simp
@[simp] theorem rdOf_encR (f7 : BitVec 7) (rs2 rs1 : RegIdx) (f3 : BitVec 3) (rd : RegIdx) (op : BitVec 7) :
    rdOf (encR f7 rs2 rs1 f3 rd op) = rd := by
  apply eq_of_bits; intro i hi
  simp only [encR, rdOf, BitVec.extractLsb, BitVec.getLsbD_extractLsb', BitVec.getLsbD_append]
  interval_cases i <;> simp
@[simp] theorem funct3Of_encR (f7 : BitVec 7) (rs2 rs1 : RegIdx) (f3 : BitVec 3) (rd : RegIdx) (op : BitVec 7) :
    funct3Of (encR f7 rs2 rs1 f3 rd op) = f3 := by
  apply eq_of_bits; intro i hi
  simp only [encR, funct3Of, BitVec.extractLsb, BitVec.getLsbD_extractLsb', BitVec.getLsbD_append]
  interval_cases i <;> simp
@[simp] theorem rs1Of_encR (f7 : BitVec 7) (rs2 rs1 : RegIdx) (f3 : BitVec 3) (rd : RegIdx) (op : BitVec 7) :
    rs1Of (encR f7 rs2 rs1 f3 rd op) = rs1 := by
  apply eq_of_bits; intro i hi
  simp only [encR, rs1Of, BitVec.extractLsb, BitVec.getLsbD_extractLsb', BitVec.getLsbD_append]
  interval_cases i <;> simp
@[simp] theorem rs2Of_encR (f7 : BitVec 7) (rs2 rs1 : RegIdx) (f3 : BitVec 3) (rd : RegIdx) (op : BitVec 7) :
    rs2Of (encR f7 rs2 rs1 f3 rd op) = rs2 := by
  apply eq_of_bits; intro i hi
  simp only [encR, rs2Of, BitVec.extractLsb, BitVec.getLsbD_extractLsb', BitVec.getLsbD_append]
  interval_cases i <;> simp
@[simp] theorem funct7Of_encR (f7 : BitVec 7) (rs2 rs1 : RegIdx) (f3 : BitVec 3) (rd : RegIdx) (op : BitVec 7) :
    funct7Of (encR f7 rs2 rs1 f3 rd op) = f7 := by
  apply eq_of_bits; intro i hi
  simp only [encR, funct7Of, BitVec.extractLsb, BitVec.getLsbD_extractLsb', BitVec.getLsbD_append]
  interval_cases i <;> simp
@[simp] theorem shamt5_encR (f7 : BitVec 7) (rs2 rs1 : RegIdx) (f3 : BitVec 3) (rd : RegIdx) (op : BitVec 7) :
    shamt5 (encR f7 rs2 rs1 f3 rd op) = rs2 := by
  apply eq_of_bits; intro i hi
  simp only [encR, shamt5, BitVec.extractLsb, BitVec.getLsbD_extractLsb', BitVec.getLsbD_append]
  interval_cases i <;> simp

/-! ### encI -/

@[simp] theorem opcodeOf_encI (imm : BitVec 12) (rs1 : RegIdx) (f3 : BitVec 3) (rd : RegIdx) (op : BitVec 7) :
    opcodeOf (encI imm rs1 f3 rd op) = op := by
  apply eq_of_bits; intro i hi
  simp only [encI, opcodeOf, BitVec.extractLsb, BitVec.getLsbD_extractLsb', BitVec.getLsbD_append]
  interval_cases i <;> simp
@[simp] theorem rdOf_encI (imm : BitVec 12) (rs1 : RegIdx) (f3 : BitVec 3) (rd : RegIdx) (op : BitVec 7) :
    rdOf (encI imm rs1 f3 rd op) = rd := by
  apply eq_of_bits; intro i hi
  simp only [encI, rdOf, BitVec.extractLsb, BitVec.getLsbD_extractLsb', BitVec.getLsbD_append]
  interval_cases i <;> simp
@[simp] theorem funct3Of_encI (imm : BitVec 12) (rs1 : RegIdx) (f3 : BitVec 3) (rd : RegIdx) (op : BitVec 7) :
    funct3Of (encI imm rs1 f3 rd op) = f3 := by
  apply eq_of_bits; intro i hi
  simp only [encI, funct3Of, BitVec.extractLsb, BitVec.getLsbD_extractLsb', BitVec.getLsbD_append]
  interval_cases i <;> simp
@[simp] theorem rs1Of_encI (imm : BitVec 12) (rs1 : RegIdx) (f3 : BitVec 3) (rd : RegIdx) (op : BitVec 7) :
    rs1Of (encI imm rs1 f3 rd op) = rs1 := by
  apply eq_of_bits; intro i hi
  simp only [encI, rs1Of, BitVec.extractLsb, BitVec.getLsbD_extractLsb', BitVec.getLsbD_append]
  interval_cases i <;> simp
@[simp] theorem immI_encI (imm : BitVec 12) (rs1 : RegIdx) (f3 : BitVec 3) (rd : RegIdx) (op : BitVec 7) :
    immI (encI imm rs1 f3 rd op) = imm := by
  apply eq_of_bits; intro i hi
  simp only [encI, immI, BitVec.extractLsb, BitVec.getLsbD_extractLsb', BitVec.getLsbD_append]
  interval_cases i <;> simp

/-! ### encShift6 -/

@[simp] theorem opcodeOf_encShift6 (f6 shamt : BitVec 6) (rs1 : RegIdx) (f3 : BitVec 3) (rd : RegIdx) (op : BitVec 7) :
    opcodeOf (encShift6 f6 shamt rs1 f3 rd op) = op := by
  apply eq_of_bits; intro i hi
  simp only [encShift6, opcodeOf, BitVec.extractLsb, BitVec.getLsbD_extractLsb', BitVec.getLsbD_append]
  interval_cases i <;> simp
@[simp] theorem rdOf_encShift6 (f6 shamt : BitVec 6) (rs1 : RegIdx) (f3 : BitVec 3) (rd : RegIdx) (op : BitVec 7) :
    rdOf (encShift6 f6 shamt rs1 f3 rd op) = rd := by
  apply eq_of_bits; intro i hi
  simp only [encShift6, rdOf, BitVec.extractLsb, BitVec.getLsbD_extractLsb', BitVec.getLsbD_append]
  interval_cases i <;> simp
@[simp] theorem funct3Of_encShift6 (f6 shamt : BitVec 6) (rs1 : RegIdx) (f3 : BitVec 3) (rd : RegIdx) (op : BitVec 7) :
    funct3Of (encShift6 f6 shamt rs1 f3 rd op) = f3 := by
  apply eq_of_bits; intro i hi
  simp only [encShift6, funct3Of, BitVec.extractLsb, BitVec.getLsbD_extractLsb', BitVec.getLsbD_append]
  interval_cases i <;> simp
@[simp] theorem rs1Of_encShift6 (f6 shamt : BitVec 6) (rs1 : RegIdx) (f3 : BitVec 3) (rd : RegIdx) (op : BitVec 7) :
    rs1Of (encShift6 f6 shamt rs1 f3 rd op) = rs1 := by
  apply eq_of_bits; intro i hi
  simp only [encShift6, rs1Of, BitVec.extractLsb, BitVec.getLsbD_extractLsb', BitVec.getLsbD_append]
  interval_cases i <;> simp
@[simp] theorem shamt6_encShift6 (f6 shamt : BitVec 6) (rs1 : RegIdx) (f3 : BitVec 3) (rd : RegIdx) (op : BitVec 7) :
    shamt6 (encShift6 f6 shamt rs1 f3 rd op) = shamt := by
  apply eq_of_bits; intro i hi
  simp only [encShift6, shamt6, BitVec.extractLsb, BitVec.getLsbD_extractLsb', BitVec.getLsbD_append]
  interval_cases i <;> simp
@[simp] theorem funct6Of_encShift6 (f6 shamt : BitVec 6) (rs1 : RegIdx) (f3 : BitVec 3) (rd : RegIdx) (op : BitVec 7) :
    funct6Of (encShift6 f6 shamt rs1 f3 rd op) = f6 := by
  apply eq_of_bits; intro i hi
  simp only [encShift6, funct6Of, BitVec.extractLsb, BitVec.getLsbD_extractLsb', BitVec.getLsbD_append]
  interval_cases i <;> simp

/-! ### encS -/

@[simp] theorem opcodeOf_encS (imm : BitVec 12) (rs2 rs1 : RegIdx) (f3 : BitVec 3) (op : BitVec 7) :
    opcodeOf (encS imm rs2 rs1 f3 op) = op := by
  apply eq_of_bits; intro i hi
  simp only [encS, opcodeOf, BitVec.extractLsb, BitVec.getLsbD_extractLsb', BitVec.getLsbD_append]
  interval_cases i <;> simp
@[simp] theorem funct3Of_encS (imm : BitVec 12) (rs2 rs1 : RegIdx) (f3 : BitVec 3) (op : BitVec 7) :
    funct3Of (encS imm rs2 rs1 f3 op) = f3 := by
  apply eq_of_bits; intro i hi
  simp only [encS, funct3Of, BitVec.extractLsb, BitVec.getLsbD_extractLsb', BitVec.getLsbD_append]
  interval_cases i <;> simp
@[simp] theorem rs1Of_encS (imm : BitVec 12) (rs2 rs1 : RegIdx) (f3 : BitVec 3) (op : BitVec 7) :
    rs1Of (encS imm rs2 rs1 f3 op) = rs1 := by
  apply eq_of_bits; intro i hi
  simp only [encS, rs1Of, BitVec.extractLsb, BitVec.getLsbD_extractLsb', BitVec.getLsbD_append]
  interval_cases i <;> simp
@[simp] theorem rs2Of_encS (imm : BitVec 12) (rs2 rs1 : RegIdx) (f3 : BitVec 3) (op : BitVec 7) :
    rs2Of (encS imm rs2 rs1 f3 op) = rs2 := by
  apply eq_of_bits; intro i hi
  simp only [encS, rs2Of, BitVec.extractLsb, BitVec.getLsbD_extractLsb', BitVec.getLsbD_append]
  interval_cases i <;> simp
@[simp] theorem immS_encS (imm : BitVec 12) (rs2 rs1 : RegIdx) (f3 : BitVec 3) (op : BitVec 7) :
    immS (encS imm rs2 rs1 f3 op) = imm := by
  apply eq_of_bits; intro i hi
  simp only [encS, immS, BitVec.extractLsb, BitVec.getLsbD_extractLsb', BitVec.getLsbD_append]
  interval_cases i <;> simp

/-! ### encB -/

@[simp] theorem opcodeOf_encB (imm : BitVec 13) (rs2 rs1 : RegIdx) (f3 : BitVec 3) (op : BitVec 7) :
    opcodeOf (encB imm rs2 rs1 f3 op) = op := by
  apply eq_of_bits; intro i hi
  simp only [encB, opcodeOf, BitVec.extractLsb, BitVec.getLsbD_extractLsb', BitVec.getLsbD_append]
  interval_cases i <;> simp
@[simp] theorem funct3Of_encB (imm : BitVec 13) (rs2 rs1 : RegIdx) (f3 : BitVec 3) (op : BitVec 7) :
    funct3Of (encB imm rs2 rs1 f3 op) = f3 := by
  apply eq_of_bits; intro i hi
  simp only [encB, funct3Of, BitVec.extractLsb, BitVec.getLsbD_extractLsb', BitVec.getLsbD_append]
  interval_cases i <;> simp
@[simp] theorem rs1Of_encB (imm : BitVec 13) (rs2 rs1 : RegIdx) (f3 : BitVec 3) (op : BitVec 7) :
    rs1Of (encB imm rs2 rs1 f3 op) = rs1 := by
  apply eq_of_bits; intro i hi
  simp only [encB, rs1Of, BitVec.extractLsb, BitVec.getLsbD_extractLsb', BitVec.getLsbD_append]
  interval_cases i <;> simp
@[simp] theorem rs2Of_encB (imm : BitVec 13) (rs2 rs1 : RegIdx) (f3 : BitVec 3) (op : BitVec 7) :
    rs2Of (encB imm rs2 rs1 f3 op) = rs2 := by
  apply eq_of_bits; intro i hi
  simp only [encB, rs2Of, BitVec.extractLsb, BitVec.getLsbD_extractLsb', BitVec.getLsbD_append]
  interval_cases i <;> simp

/-! ### encU -/

@[simp] theorem opcodeOf_encU (imm20 : BitVec 20) (rd : RegIdx) (op : BitVec 7) :
    opcodeOf (encU imm20 rd op) = op := by
  apply eq_of_bits; intro i hi
  simp only [encU, opcodeOf, BitVec.extractLsb, BitVec.getLsbD_extractLsb', BitVec.getLsbD_append]
  interval_cases i <;> simp
@[simp] theorem rdOf_encU (imm20 : BitVec 20) (rd : RegIdx) (op : BitVec 7) :
    rdOf (encU imm20 rd op) = rd := by
  apply eq_of_bits; intro i hi
  simp only [encU, rdOf, BitVec.extractLsb, BitVec.getLsbD_extractLsb', BitVec.getLsbD_append]
  interval_cases i <;> simp
@[simp] theorem immU_encU (imm20 : BitVec 20) (rd : RegIdx) (op : BitVec 7) :
    immU (encU imm20 rd op) = imm20 := by
  apply eq_of_bits; intro i hi
  simp only [encU, immU, BitVec.extractLsb, BitVec.getLsbD_extractLsb', BitVec.getLsbD_append]
  interval_cases i <;> simp

/-! ### encJ -/

@[simp] theorem opcodeOf_encJ (imm : BitVec 21) (rd : RegIdx) (op : BitVec 7) :
    opcodeOf (encJ imm rd op) = op := by
  apply eq_of_bits; intro i hi
  simp only [encJ, opcodeOf, BitVec.extractLsb, BitVec.getLsbD_extractLsb', BitVec.getLsbD_append]
  interval_cases i <;> simp
@[simp] theorem rdOf_encJ (imm : BitVec 21) (rd : RegIdx) (op : BitVec 7) :
    rdOf (encJ imm rd op) = rd := by
  apply eq_of_bits; intro i hi
  simp only [encJ, rdOf, BitVec.extractLsb, BitVec.getLsbD_extractLsb', BitVec.getLsbD_append]
  interval_cases i <;> simp
@[simp] theorem fm_encI (fm pred succ : BitVec 4) (rs1 : RegIdx) (f3 : BitVec 3) (rd : RegIdx) (op : BitVec 7) :
    (encI (fm ++ pred ++ succ) rs1 f3 rd op).extractLsb 31 28 = fm := by
  apply eq_of_bits; intro i hi
  simp only [encI, BitVec.extractLsb, BitVec.getLsbD_extractLsb', BitVec.getLsbD_append]
  interval_cases i <;> simp
@[simp] theorem pred_encI (fm pred succ : BitVec 4) (rs1 : RegIdx) (f3 : BitVec 3) (rd : RegIdx) (op : BitVec 7) :
    (encI (fm ++ pred ++ succ) rs1 f3 rd op).extractLsb 27 24 = pred := by
  apply eq_of_bits; intro i hi
  simp only [encI, BitVec.extractLsb, BitVec.getLsbD_extractLsb', BitVec.getLsbD_append]
  interval_cases i <;> simp
@[simp] theorem succ_encI (fm pred succ : BitVec 4) (rs1 : RegIdx) (f3 : BitVec 3) (rd : RegIdx) (op : BitVec 7) :
    (encI (fm ++ pred ++ succ) rs1 f3 rd op).extractLsb 23 20 = succ := by
  apply eq_of_bits; intro i hi
  simp only [encI, BitVec.extractLsb, BitVec.getLsbD_extractLsb', BitVec.getLsbD_append]
  interval_cases i <;> simp

/-! ### Immediates with low zero bits -/

/-- The low bits of a multiple of 2^k are 0. -/
theorem low_zero {n : Nat} (v : BitVec n) (k : Nat) (h : multipleOf (2 ^ k) v = true) (i : Nat) (hi : i < k) :
    v.getLsbD i = false := by
  simp only [multipleOf, beq_iff_eq] at h
  have hd : 2 ^ (i + 1) ∣ v.toNat := Nat.dvd_trans (Nat.pow_dvd_pow 2 hi) (Nat.dvd_of_mod_eq_zero h)
  obtain ⟨m, hm⟩ := hd
  rw [BitVec.getLsbD, hm, Nat.testBit_two_pow_mul]; simp

theorem immB_encB (imm : BitVec 13) (rs2 rs1 : RegIdx) (f3 : BitVec 3) (op : BitVec 7) (h : multipleOf 2 imm = true) :
    immB (encB imm rs2 rs1 f3 op) = imm := by
  have h0 := low_zero imm 1 h 0 (by omega)
  apply eq_of_bits; intro i hi
  simp only [encB, immB, bitAt, BitVec.extractLsb, BitVec.getLsbD_extractLsb', BitVec.getLsbD_append]
  interval_cases i <;> simp_all
theorem immJ_encJ (imm : BitVec 21) (rd : RegIdx) (op : BitVec 7) (h : multipleOf 2 imm = true) :
    immJ (encJ imm rd op) = imm := by
  have h0 := low_zero imm 1 h 0 (by omega)
  apply eq_of_bits; intro i hi
  simp only [encJ, immJ, bitAt, BitVec.extractLsb, BitVec.getLsbD_extractLsb', BitVec.getLsbD_append]
  interval_cases i <;> simp_all

/-! ### The compressed formats -/

/-- The 3-bit field of x8 .. x15 names that register again. -/
theorem cReg_cField : ∀ r : RegIdx, isCReg r = true → cReg (cField r) = r := by decide

theorem isCReg_cReg : ∀ f : BitVec 3, isCReg (cReg f) = true := by decide

@[simp] theorem low_half (h : BitVec 16) : (h.setWidth 32).extractLsb' 0 16 = h := by
  apply eq_of_bits; intro i hi; simp [hi]; omega



/-! ### encCr -/

@[simp] theorem quadrantOf_encCr (f4 : BitVec 4) (rd rs2 : RegIdx) :
    quadrantOf (encCr f4 rd rs2) = 0b10 := by
  apply eq_of_bits; intro i hi
  simp only [encCr, quadrantOf, BitVec.extractLsb, BitVec.getLsbD_extractLsb', BitVec.getLsbD_append]
  interval_cases i <;> simp
@[simp] theorem cFunct3Of_encCr (f4 : BitVec 4) (rd rs2 : RegIdx) :
    cFunct3Of (encCr f4 rd rs2) = f4.extractLsb' 1 3 := by
  apply eq_of_bits; intro i hi
  simp only [encCr, cFunct3Of, BitVec.extractLsb, BitVec.getLsbD_extractLsb', BitVec.getLsbD_append]
  interval_cases i <;> simp
@[simp] theorem cRdOf_encCr (f4 : BitVec 4) (rd rs2 : RegIdx) :
    cRdOf (encCr f4 rd rs2) = rd := by
  apply eq_of_bits; intro i hi
  simp only [encCr, cRdOf, BitVec.extractLsb, BitVec.getLsbD_extractLsb', BitVec.getLsbD_append]
  interval_cases i <;> simp
@[simp] theorem cRs2Of_encCr (f4 : BitVec 4) (rd rs2 : RegIdx) :
    cRs2Of (encCr f4 rd rs2) = rs2 := by
  apply eq_of_bits; intro i hi
  simp only [encCr, cRs2Of, BitVec.extractLsb, BitVec.getLsbD_extractLsb', BitVec.getLsbD_append]
  interval_cases i <;> simp

/-! ### encCi -/

@[simp] theorem quadrantOf_encCi (f3 : BitVec 3) (imm : BitVec 6) (rd : RegIdx) (op : BitVec 2) :
    quadrantOf (encCi f3 imm rd op) = op := by
  apply eq_of_bits; intro i hi
  simp only [encCi, quadrantOf, BitVec.extractLsb, BitVec.getLsbD_extractLsb', BitVec.getLsbD_append]
  interval_cases i <;> simp
@[simp] theorem cFunct3Of_encCi (f3 : BitVec 3) (imm : BitVec 6) (rd : RegIdx) (op : BitVec 2) :
    cFunct3Of (encCi f3 imm rd op) = f3 := by
  apply eq_of_bits; intro i hi
  simp only [encCi, cFunct3Of, BitVec.extractLsb, BitVec.getLsbD_extractLsb', BitVec.getLsbD_append]
  interval_cases i <;> simp
@[simp] theorem cRdOf_encCi (f3 : BitVec 3) (imm : BitVec 6) (rd : RegIdx) (op : BitVec 2) :
    cRdOf (encCi f3 imm rd op) = rd := by
  apply eq_of_bits; intro i hi
  simp only [encCi, cRdOf, BitVec.extractLsb, BitVec.getLsbD_extractLsb', BitVec.getLsbD_append]
  interval_cases i <;> simp
@[simp] theorem immCi_encCi (f3 : BitVec 3) (imm : BitVec 6) (rd : RegIdx) (op : BitVec 2) :
    immCi (encCi f3 imm rd op) = imm := by
  apply eq_of_bits; intro i hi
  simp only [encCi, immCi, BitVec.extractLsb, BitVec.getLsbD_extractLsb', BitVec.getLsbD_append]
  interval_cases i <;> simp

/-! ### encCiw -/

@[simp] theorem quadrantOf_encCiw (imm : BitVec 10) (rd : RegIdx) :
    quadrantOf (encCiw imm rd) = 0b00 := by
  apply eq_of_bits; intro i hi
  simp only [encCiw, quadrantOf, cField, BitVec.extractLsb, BitVec.getLsbD_extractLsb', BitVec.getLsbD_append]
  interval_cases i <;> simp
@[simp] theorem cFunct3Of_encCiw (imm : BitVec 10) (rd : RegIdx) :
    cFunct3Of (encCiw imm rd) = 0b000 := by
  apply eq_of_bits; intro i hi
  simp only [encCiw, cFunct3Of, cField, BitVec.extractLsb, BitVec.getLsbD_extractLsb', BitVec.getLsbD_append]
  interval_cases i <;> simp
theorem cRd'Of_encCiw (imm : BitVec 10) (rd : RegIdx) (h : isCReg rd = true) :
    cRd'Of (encCiw imm rd) = rd := by
  rw [cRd'Of, show (encCiw imm rd).extractLsb 4 2 = cField rd from ?_, cReg_cField _ h]
  apply eq_of_bits; intro i hi
  simp only [encCiw, cField, BitVec.extractLsb, BitVec.getLsbD_extractLsb', BitVec.getLsbD_append]
  interval_cases i <;> simp
theorem immAddi4spn_encCiw (imm : BitVec 10) (rd : RegIdx) (h : multipleOf 4 imm = true) :
    immAddi4spn (encCiw imm rd) = imm := by
  have h0 := low_zero imm 2 h 0 (by omega)
  have h1 := low_zero imm 2 h 1 (by omega)
  apply eq_of_bits; intro i hi
  simp only [encCiw, immAddi4spn, cField, bitAt, BitVec.extractLsb, BitVec.getLsbD_extractLsb', BitVec.getLsbD_append]
  interval_cases i <;> simp_all

/-! ### encClw -/

@[simp] theorem quadrantOf_encClw (f3 : BitVec 3) (imm : BitVec 7) (rs1 r : RegIdx) :
    quadrantOf (encClw f3 imm rs1 r) = 0b00 := by
  apply eq_of_bits; intro i hi
  simp only [encClw, quadrantOf, cField, BitVec.extractLsb, BitVec.getLsbD_extractLsb', BitVec.getLsbD_append]
  interval_cases i <;> simp
@[simp] theorem cFunct3Of_encClw (f3 : BitVec 3) (imm : BitVec 7) (rs1 r : RegIdx) :
    cFunct3Of (encClw f3 imm rs1 r) = f3 := by
  apply eq_of_bits; intro i hi
  simp only [encClw, cFunct3Of, cField, BitVec.extractLsb, BitVec.getLsbD_extractLsb', BitVec.getLsbD_append]
  interval_cases i <;> simp
theorem cRd'Of_encClw (f3 : BitVec 3) (imm : BitVec 7) (rs1 r : RegIdx) (h : isCReg r = true) :
    cRd'Of (encClw f3 imm rs1 r) = r := by
  rw [cRd'Of, show (encClw f3 imm rs1 r).extractLsb 4 2 = cField r from ?_, cReg_cField _ h]
  apply eq_of_bits; intro i hi
  simp only [encClw, cField, BitVec.extractLsb, BitVec.getLsbD_extractLsb', BitVec.getLsbD_append]
  interval_cases i <;> simp
theorem cRs1'Of_encClw (f3 : BitVec 3) (imm : BitVec 7) (rs1 r : RegIdx) (h : isCReg rs1 = true) :
    cRs1'Of (encClw f3 imm rs1 r) = rs1 := by
  rw [cRs1'Of, show (encClw f3 imm rs1 r).extractLsb 9 7 = cField rs1 from ?_, cReg_cField _ h]
  apply eq_of_bits; intro i hi
  simp only [encClw, cField, BitVec.extractLsb, BitVec.getLsbD_extractLsb', BitVec.getLsbD_append]
  interval_cases i <;> simp
theorem immClw_encClw (f3 : BitVec 3) (imm : BitVec 7) (rs1 r : RegIdx) (h : multipleOf 4 imm = true) :
    immClw (encClw f3 imm rs1 r) = imm := by
  have h0 := low_zero imm 2 h 0 (by omega)
  have h1 := low_zero imm 2 h 1 (by omega)
  apply eq_of_bits; intro i hi
  simp only [encClw, immClw, cField, bitAt, BitVec.extractLsb, BitVec.getLsbD_extractLsb', BitVec.getLsbD_append]
  interval_cases i <;> simp_all

/-! ### encCld -/

@[simp] theorem quadrantOf_encCld (f3 : BitVec 3) (imm : BitVec 8) (rs1 r : RegIdx) :
    quadrantOf (encCld f3 imm rs1 r) = 0b00 := by
  apply eq_of_bits; intro i hi
  simp only [encCld, quadrantOf, cField, BitVec.extractLsb, BitVec.getLsbD_extractLsb', BitVec.getLsbD_append]
  interval_cases i <;> simp
@[simp] theorem cFunct3Of_encCld (f3 : BitVec 3) (imm : BitVec 8) (rs1 r : RegIdx) :
    cFunct3Of (encCld f3 imm rs1 r) = f3 := by
  apply eq_of_bits; intro i hi
  simp only [encCld, cFunct3Of, cField, BitVec.extractLsb, BitVec.getLsbD_extractLsb', BitVec.getLsbD_append]
  interval_cases i <;> simp
theorem cRd'Of_encCld (f3 : BitVec 3) (imm : BitVec 8) (rs1 r : RegIdx) (h : isCReg r = true) :
    cRd'Of (encCld f3 imm rs1 r) = r := by
  rw [cRd'Of, show (encCld f3 imm rs1 r).extractLsb 4 2 = cField r from ?_, cReg_cField _ h]
  apply eq_of_bits; intro i hi
  simp only [encCld, cField, BitVec.extractLsb, BitVec.getLsbD_extractLsb', BitVec.getLsbD_append]
  interval_cases i <;> simp
theorem cRs1'Of_encCld (f3 : BitVec 3) (imm : BitVec 8) (rs1 r : RegIdx) (h : isCReg rs1 = true) :
    cRs1'Of (encCld f3 imm rs1 r) = rs1 := by
  rw [cRs1'Of, show (encCld f3 imm rs1 r).extractLsb 9 7 = cField rs1 from ?_, cReg_cField _ h]
  apply eq_of_bits; intro i hi
  simp only [encCld, cField, BitVec.extractLsb, BitVec.getLsbD_extractLsb', BitVec.getLsbD_append]
  interval_cases i <;> simp
theorem immCld_encCld (f3 : BitVec 3) (imm : BitVec 8) (rs1 r : RegIdx) (h : multipleOf 8 imm = true) :
    immCld (encCld f3 imm rs1 r) = imm := by
  have h0 := low_zero imm 3 h 0 (by omega)
  have h1 := low_zero imm 3 h 1 (by omega)
  have h2 := low_zero imm 3 h 2 (by omega)
  apply eq_of_bits; intro i hi
  simp only [encCld, immCld, cField, BitVec.extractLsb, BitVec.getLsbD_extractLsb', BitVec.getLsbD_append]
  interval_cases i <;> simp_all

/-! ### encAddi16sp -/

@[simp] theorem quadrantOf_encAddi16sp (imm : BitVec 10) :
    quadrantOf (encAddi16sp imm) = 0b01 := by
  apply eq_of_bits; intro i hi
  simp only [encAddi16sp, quadrantOf, BitVec.extractLsb, BitVec.getLsbD_extractLsb', BitVec.getLsbD_append]
  interval_cases i <;> simp
@[simp] theorem cFunct3Of_encAddi16sp (imm : BitVec 10) :
    cFunct3Of (encAddi16sp imm) = 0b011 := by
  apply eq_of_bits; intro i hi
  simp only [encAddi16sp, cFunct3Of, BitVec.extractLsb, BitVec.getLsbD_extractLsb', BitVec.getLsbD_append]
  interval_cases i <;> simp
@[simp] theorem cRdOf_encAddi16sp (imm : BitVec 10) :
    cRdOf (encAddi16sp imm) = 2 := by
  apply eq_of_bits; intro i hi
  simp only [encAddi16sp, cRdOf, BitVec.extractLsb, BitVec.getLsbD_extractLsb', BitVec.getLsbD_append]
  interval_cases i <;> simp
theorem immAddi16sp_encAddi16sp (imm : BitVec 10) (h : multipleOf 16 imm = true) :
    immAddi16sp (encAddi16sp imm) = imm := by
  have h0 := low_zero imm 4 h 0 (by omega)
  have h1 := low_zero imm 4 h 1 (by omega)
  have h2 := low_zero imm 4 h 2 (by omega)
  have h3 := low_zero imm 4 h 3 (by omega)
  apply eq_of_bits; intro i hi
  simp only [encAddi16sp, immAddi16sp, bitAt, BitVec.extractLsb, BitVec.getLsbD_extractLsb', BitVec.getLsbD_append]
  interval_cases i <;> simp_all

/-! ### encCbAlu -/

@[simp] theorem quadrantOf_encCbAlu (f2 : BitVec 2) (imm : BitVec 6) (rd : RegIdx) :
    quadrantOf (encCbAlu f2 imm rd) = 0b01 := by
  apply eq_of_bits; intro i hi
  simp only [encCbAlu, quadrantOf, cField, BitVec.extractLsb, BitVec.getLsbD_extractLsb', BitVec.getLsbD_append]
  interval_cases i <;> simp
@[simp] theorem cFunct3Of_encCbAlu (f2 : BitVec 2) (imm : BitVec 6) (rd : RegIdx) :
    cFunct3Of (encCbAlu f2 imm rd) = 0b100 := by
  apply eq_of_bits; intro i hi
  simp only [encCbAlu, cFunct3Of, cField, BitVec.extractLsb, BitVec.getLsbD_extractLsb', BitVec.getLsbD_append]
  interval_cases i <;> simp
@[simp] theorem immCi_encCbAlu (f2 : BitVec 2) (imm : BitVec 6) (rd : RegIdx) :
    immCi (encCbAlu f2 imm rd) = imm := by
  apply eq_of_bits; intro i hi
  simp only [encCbAlu, immCi, cField, BitVec.extractLsb, BitVec.getLsbD_extractLsb', BitVec.getLsbD_append]
  interval_cases i <;> simp
theorem cRs1'Of_encCbAlu (f2 : BitVec 2) (imm : BitVec 6) (rd : RegIdx) (h : isCReg rd = true) :
    cRs1'Of (encCbAlu f2 imm rd) = rd := by
  rw [cRs1'Of, show (encCbAlu f2 imm rd).extractLsb 9 7 = cField rd from ?_, cReg_cField _ h]
  apply eq_of_bits; intro i hi
  simp only [encCbAlu, cField, BitVec.extractLsb, BitVec.getLsbD_extractLsb', BitVec.getLsbD_append]
  interval_cases i <;> simp
@[simp] theorem select_encCbAlu (f2 : BitVec 2) (imm : BitVec 6) (rd : RegIdx) :
    (encCbAlu f2 imm rd).extractLsb' 10 2 = f2 := by
  apply eq_of_bits; intro i hi
  simp only [encCbAlu, cField, BitVec.extractLsb, BitVec.getLsbD_extractLsb', BitVec.getLsbD_append]
  interval_cases i <;> simp

/-! ### encCa -/

@[simp] theorem quadrantOf_encCa (f6 : BitVec 6) (rd : RegIdx) (f2 : BitVec 2) (rs2 : RegIdx) :
    quadrantOf (encCa f6 rd f2 rs2) = 0b01 := by
  apply eq_of_bits; intro i hi
  simp only [encCa, quadrantOf, cField, BitVec.extractLsb, BitVec.getLsbD_extractLsb', BitVec.getLsbD_append]
  interval_cases i <;> simp
@[simp] theorem cFunct3Of_encCa (f6 : BitVec 6) (rd : RegIdx) (f2 : BitVec 2) (rs2 : RegIdx) :
    cFunct3Of (encCa f6 rd f2 rs2) = f6.extractLsb' 3 3 := by
  apply eq_of_bits; intro i hi
  simp only [encCa, cFunct3Of, cField, BitVec.extractLsb, BitVec.getLsbD_extractLsb', BitVec.getLsbD_append]
  interval_cases i <;> simp
theorem cRs1'Of_encCa (f6 : BitVec 6) (rd : RegIdx) (f2 : BitVec 2) (rs2 : RegIdx) (h : isCReg rd = true) :
    cRs1'Of (encCa f6 rd f2 rs2) = rd := by
  rw [cRs1'Of, show (encCa f6 rd f2 rs2).extractLsb 9 7 = cField rd from ?_, cReg_cField _ h]
  apply eq_of_bits; intro i hi
  simp only [encCa, cField, BitVec.extractLsb, BitVec.getLsbD_extractLsb', BitVec.getLsbD_append]
  interval_cases i <;> simp
theorem cRd'Of_encCa (f6 : BitVec 6) (rd : RegIdx) (f2 : BitVec 2) (rs2 : RegIdx) (h : isCReg rs2 = true) :
    cRd'Of (encCa f6 rd f2 rs2) = rs2 := by
  rw [cRd'Of, show (encCa f6 rd f2 rs2).extractLsb 4 2 = cField rs2 from ?_, cReg_cField _ h]
  apply eq_of_bits; intro i hi
  simp only [encCa, cField, BitVec.extractLsb, BitVec.getLsbD_extractLsb', BitVec.getLsbD_append]
  interval_cases i <;> simp
@[simp] theorem select_encCa (f6 : BitVec 6) (rd : RegIdx) (f2 : BitVec 2) (rs2 : RegIdx) :
    (encCa f6 rd f2 rs2).extractLsb' 10 2 = f6.extractLsb' 0 2 := by
  apply eq_of_bits; intro i hi
  simp only [encCa, cField, BitVec.getLsbD_extractLsb', BitVec.getLsbD_append]
  interval_cases i <;> simp
@[simp] theorem wide_encCa (f6 : BitVec 6) (rd : RegIdx) (f2 : BitVec 2) (rs2 : RegIdx) :
    bitAt (encCa f6 rd f2 rs2) 12 = f6.extractLsb' 2 1 := by
  apply eq_of_bits; intro i hi
  simp only [encCa, cField, BitVec.getLsbD_extractLsb', BitVec.getLsbD_append]
  interval_cases i <;> simp
@[simp] theorem group_encCa (f6 : BitVec 6) (rd : RegIdx) (f2 : BitVec 2) (rs2 : RegIdx) :
    (encCa f6 rd f2 rs2).extractLsb' 5 2 = f2 := by
  apply eq_of_bits; intro i hi
  simp only [encCa, cField, BitVec.getLsbD_extractLsb', BitVec.getLsbD_append]
  interval_cases i <;> simp

/-! ### encCj -/

@[simp] theorem quadrantOf_encCj (f3 : BitVec 3) (imm : BitVec 12) :
    quadrantOf (encCj f3 imm) = 0b01 := by
  apply eq_of_bits; intro i hi
  simp only [encCj, quadrantOf, BitVec.extractLsb, BitVec.getLsbD_extractLsb', BitVec.getLsbD_append]
  interval_cases i <;> simp
@[simp] theorem cFunct3Of_encCj (f3 : BitVec 3) (imm : BitVec 12) :
    cFunct3Of (encCj f3 imm) = f3 := by
  apply eq_of_bits; intro i hi
  simp only [encCj, cFunct3Of, BitVec.extractLsb, BitVec.getLsbD_extractLsb', BitVec.getLsbD_append]
  interval_cases i <;> simp
theorem immCj_encCj (f3 : BitVec 3) (imm : BitVec 12) (h : multipleOf 2 imm = true) :
    immCj (encCj f3 imm) = imm := by
  have h0 := low_zero imm 1 h 0 (by omega)
  apply eq_of_bits; intro i hi
  simp only [encCj, immCj, bitAt, BitVec.extractLsb, BitVec.getLsbD_extractLsb', BitVec.getLsbD_append]
  interval_cases i <;> simp_all

/-! ### encCb -/

@[simp] theorem quadrantOf_encCb (f3 : BitVec 3) (imm : BitVec 9) (rs1 : RegIdx) :
    quadrantOf (encCb f3 imm rs1) = 0b01 := by
  apply eq_of_bits; intro i hi
  simp only [encCb, quadrantOf, cField, BitVec.extractLsb, BitVec.getLsbD_extractLsb', BitVec.getLsbD_append]
  interval_cases i <;> simp
@[simp] theorem cFunct3Of_encCb (f3 : BitVec 3) (imm : BitVec 9) (rs1 : RegIdx) :
    cFunct3Of (encCb f3 imm rs1) = f3 := by
  apply eq_of_bits; intro i hi
  simp only [encCb, cFunct3Of, cField, BitVec.extractLsb, BitVec.getLsbD_extractLsb', BitVec.getLsbD_append]
  interval_cases i <;> simp
theorem cRs1'Of_encCb (f3 : BitVec 3) (imm : BitVec 9) (rs1 : RegIdx) (h : isCReg rs1 = true) :
    cRs1'Of (encCb f3 imm rs1) = rs1 := by
  rw [cRs1'Of, show (encCb f3 imm rs1).extractLsb 9 7 = cField rs1 from ?_, cReg_cField _ h]
  apply eq_of_bits; intro i hi
  simp only [encCb, cField, BitVec.extractLsb, BitVec.getLsbD_extractLsb', BitVec.getLsbD_append]
  interval_cases i <;> simp
theorem immCb_encCb (f3 : BitVec 3) (imm : BitVec 9) (rs1 : RegIdx) (h : multipleOf 2 imm = true) :
    immCb (encCb f3 imm rs1) = imm := by
  have h0 := low_zero imm 1 h 0 (by omega)
  apply eq_of_bits; intro i hi
  simp only [encCb, immCb, cField, bitAt, BitVec.extractLsb, BitVec.getLsbD_extractLsb', BitVec.getLsbD_append]
  interval_cases i <;> simp_all

/-! ### encLwsp -/

@[simp] theorem quadrantOf_encLwsp (imm : BitVec 8) (rd : RegIdx) :
    quadrantOf (encLwsp imm rd) = 0b10 := by
  apply eq_of_bits; intro i hi
  simp only [encLwsp, quadrantOf, BitVec.extractLsb, BitVec.getLsbD_extractLsb', BitVec.getLsbD_append]
  interval_cases i <;> simp
@[simp] theorem cFunct3Of_encLwsp (imm : BitVec 8) (rd : RegIdx) :
    cFunct3Of (encLwsp imm rd) = 0b010 := by
  apply eq_of_bits; intro i hi
  simp only [encLwsp, cFunct3Of, BitVec.extractLsb, BitVec.getLsbD_extractLsb', BitVec.getLsbD_append]
  interval_cases i <;> simp
@[simp] theorem cRdOf_encLwsp (imm : BitVec 8) (rd : RegIdx) :
    cRdOf (encLwsp imm rd) = rd := by
  apply eq_of_bits; intro i hi
  simp only [encLwsp, cRdOf, BitVec.extractLsb, BitVec.getLsbD_extractLsb', BitVec.getLsbD_append]
  interval_cases i <;> simp
theorem immLwsp_encLwsp (imm : BitVec 8) (rd : RegIdx) (h : multipleOf 4 imm = true) :
    immLwsp (encLwsp imm rd) = imm := by
  have h0 := low_zero imm 2 h 0 (by omega)
  have h1 := low_zero imm 2 h 1 (by omega)
  apply eq_of_bits; intro i hi
  simp only [encLwsp, immLwsp, bitAt, BitVec.extractLsb, BitVec.getLsbD_extractLsb', BitVec.getLsbD_append]
  interval_cases i <;> simp_all

/-! ### encLdsp -/

@[simp] theorem quadrantOf_encLdsp (imm : BitVec 9) (rd : RegIdx) :
    quadrantOf (encLdsp imm rd) = 0b10 := by
  apply eq_of_bits; intro i hi
  simp only [encLdsp, quadrantOf, BitVec.extractLsb, BitVec.getLsbD_extractLsb', BitVec.getLsbD_append]
  interval_cases i <;> simp
@[simp] theorem cFunct3Of_encLdsp (imm : BitVec 9) (rd : RegIdx) :
    cFunct3Of (encLdsp imm rd) = 0b011 := by
  apply eq_of_bits; intro i hi
  simp only [encLdsp, cFunct3Of, BitVec.extractLsb, BitVec.getLsbD_extractLsb', BitVec.getLsbD_append]
  interval_cases i <;> simp
@[simp] theorem cRdOf_encLdsp (imm : BitVec 9) (rd : RegIdx) :
    cRdOf (encLdsp imm rd) = rd := by
  apply eq_of_bits; intro i hi
  simp only [encLdsp, cRdOf, BitVec.extractLsb, BitVec.getLsbD_extractLsb', BitVec.getLsbD_append]
  interval_cases i <;> simp
theorem immLdsp_encLdsp (imm : BitVec 9) (rd : RegIdx) (h : multipleOf 8 imm = true) :
    immLdsp (encLdsp imm rd) = imm := by
  have h0 := low_zero imm 3 h 0 (by omega)
  have h1 := low_zero imm 3 h 1 (by omega)
  have h2 := low_zero imm 3 h 2 (by omega)
  apply eq_of_bits; intro i hi
  simp only [encLdsp, immLdsp, bitAt, BitVec.extractLsb, BitVec.getLsbD_extractLsb', BitVec.getLsbD_append]
  interval_cases i <;> simp_all

/-! ### encSwsp -/

@[simp] theorem quadrantOf_encSwsp (imm : BitVec 8) (rs2 : RegIdx) :
    quadrantOf (encSwsp imm rs2) = 0b10 := by
  apply eq_of_bits; intro i hi
  simp only [encSwsp, quadrantOf, BitVec.extractLsb, BitVec.getLsbD_extractLsb', BitVec.getLsbD_append]
  interval_cases i <;> simp
@[simp] theorem cFunct3Of_encSwsp (imm : BitVec 8) (rs2 : RegIdx) :
    cFunct3Of (encSwsp imm rs2) = 0b110 := by
  apply eq_of_bits; intro i hi
  simp only [encSwsp, cFunct3Of, BitVec.extractLsb, BitVec.getLsbD_extractLsb', BitVec.getLsbD_append]
  interval_cases i <;> simp
@[simp] theorem cRs2Of_encSwsp (imm : BitVec 8) (rs2 : RegIdx) :
    cRs2Of (encSwsp imm rs2) = rs2 := by
  apply eq_of_bits; intro i hi
  simp only [encSwsp, cRs2Of, BitVec.extractLsb, BitVec.getLsbD_extractLsb', BitVec.getLsbD_append]
  interval_cases i <;> simp
theorem immSwsp_encSwsp (imm : BitVec 8) (rs2 : RegIdx) (h : multipleOf 4 imm = true) :
    immSwsp (encSwsp imm rs2) = imm := by
  have h0 := low_zero imm 2 h 0 (by omega)
  have h1 := low_zero imm 2 h 1 (by omega)
  apply eq_of_bits; intro i hi
  simp only [encSwsp, immSwsp, BitVec.extractLsb, BitVec.getLsbD_extractLsb', BitVec.getLsbD_append]
  interval_cases i <;> simp_all

/-! ### encSdsp -/

@[simp] theorem quadrantOf_encSdsp (imm : BitVec 9) (rs2 : RegIdx) :
    quadrantOf (encSdsp imm rs2) = 0b10 := by
  apply eq_of_bits; intro i hi
  simp only [encSdsp, quadrantOf, BitVec.extractLsb, BitVec.getLsbD_extractLsb', BitVec.getLsbD_append]
  interval_cases i <;> simp
@[simp] theorem cFunct3Of_encSdsp (imm : BitVec 9) (rs2 : RegIdx) :
    cFunct3Of (encSdsp imm rs2) = 0b111 := by
  apply eq_of_bits; intro i hi
  simp only [encSdsp, cFunct3Of, BitVec.extractLsb, BitVec.getLsbD_extractLsb', BitVec.getLsbD_append]
  interval_cases i <;> simp
@[simp] theorem cRs2Of_encSdsp (imm : BitVec 9) (rs2 : RegIdx) :
    cRs2Of (encSdsp imm rs2) = rs2 := by
  apply eq_of_bits; intro i hi
  simp only [encSdsp, cRs2Of, BitVec.extractLsb, BitVec.getLsbD_extractLsb', BitVec.getLsbD_append]
  interval_cases i <;> simp
theorem immSdsp_encSdsp (imm : BitVec 9) (rs2 : RegIdx) (h : multipleOf 8 imm = true) :
    immSdsp (encSdsp imm rs2) = imm := by
  have h0 := low_zero imm 3 h 0 (by omega)
  have h1 := low_zero imm 3 h 1 (by omega)
  have h2 := low_zero imm 3 h 2 (by omega)
  apply eq_of_bits; intro i hi
  simp only [encSdsp, immSdsp, BitVec.extractLsb, BitVec.getLsbD_extractLsb', BitVec.getLsbD_append]
  interval_cases i <;> simp_all
@[simp] theorem wide_encCr (f4 : BitVec 4) (rd rs2 : RegIdx) :
    bitAt (encCr f4 rd rs2) 12 = f4.extractLsb' 0 1 := by
  apply eq_of_bits; intro i hi
  simp only [encCr, BitVec.getLsbD_extractLsb', BitVec.getLsbD_append]
  interval_cases i <;> simp

/-! ### A word is its fields laid out again -/

theorem encR_fields (w : BitVec 32) : encR (funct7Of w) (rs2Of w) (rs1Of w) (funct3Of w) (rdOf w) (opcodeOf w) = w := by
  apply eq_of_bits; intro i hi
  simp only [encR, opcodeOf, rdOf, funct3Of, rs1Of, rs2Of, funct7Of, BitVec.extractLsb, BitVec.getLsbD_extractLsb', BitVec.getLsbD_append]
  interval_cases i <;> simp

theorem encR_shamt (w : BitVec 32) : encR (funct7Of w) (shamt5 w) (rs1Of w) (funct3Of w) (rdOf w) (opcodeOf w) = w := by
  apply eq_of_bits; intro i hi
  simp only [encR, shamt5, opcodeOf, rdOf, funct3Of, rs1Of, funct7Of, BitVec.extractLsb, BitVec.getLsbD_extractLsb', BitVec.getLsbD_append]
  interval_cases i <;> simp

theorem encI_fields (w : BitVec 32) : encI (immI w) (rs1Of w) (funct3Of w) (rdOf w) (opcodeOf w) = w := by
  apply eq_of_bits; intro i hi
  simp only [encI, immI, opcodeOf, rdOf, funct3Of, rs1Of, BitVec.extractLsb, BitVec.getLsbD_extractLsb', BitVec.getLsbD_append]
  interval_cases i <;> simp

theorem encI_fence (w : BitVec 32) : encI (w.extractLsb 31 28 ++ w.extractLsb 27 24 ++ w.extractLsb 23 20) (rs1Of w) (funct3Of w) (rdOf w) (opcodeOf w) = w := by
  apply eq_of_bits; intro i hi
  simp only [encI, opcodeOf, rdOf, funct3Of, rs1Of, BitVec.extractLsb, BitVec.getLsbD_extractLsb', BitVec.getLsbD_append]
  interval_cases i <;> simp

theorem encShift6_fields (w : BitVec 32) : encShift6 (funct6Of w) (shamt6 w) (rs1Of w) (funct3Of w) (rdOf w) (opcodeOf w) = w := by
  apply eq_of_bits; intro i hi
  simp only [encShift6, shamt6, funct6Of, opcodeOf, rdOf, funct3Of, rs1Of, BitVec.extractLsb, BitVec.getLsbD_extractLsb', BitVec.getLsbD_append]
  interval_cases i <;> simp

theorem encS_fields (w : BitVec 32) : encS (immS w) (rs2Of w) (rs1Of w) (funct3Of w) (opcodeOf w) = w := by
  apply eq_of_bits; intro i hi
  simp only [encS, immS, opcodeOf, funct3Of, rs1Of, rs2Of, BitVec.extractLsb, BitVec.getLsbD_extractLsb', BitVec.getLsbD_append]
  interval_cases i <;> simp

theorem encB_fields (w : BitVec 32) : encB (immB w) (rs2Of w) (rs1Of w) (funct3Of w) (opcodeOf w) = w := by
  apply eq_of_bits; intro i hi
  simp only [encB, immB, opcodeOf, funct3Of, rs1Of, rs2Of, bitAt, BitVec.extractLsb, BitVec.getLsbD_extractLsb', BitVec.getLsbD_append]
  interval_cases i <;> simp

theorem encU_fields (w : BitVec 32) : encU (immU w) (rdOf w) (opcodeOf w) = w := by
  apply eq_of_bits; intro i hi
  simp only [encU, immU, opcodeOf, rdOf, BitVec.extractLsb, BitVec.getLsbD_extractLsb', BitVec.getLsbD_append]
  interval_cases i <;> simp

theorem encJ_fields (w : BitVec 32) : encJ (immJ w) (rdOf w) (opcodeOf w) = w := by
  apply eq_of_bits; intro i hi
  simp only [encJ, immJ, opcodeOf, rdOf, bitAt, BitVec.extractLsb, BitVec.getLsbD_extractLsb', BitVec.getLsbD_append]
  interval_cases i <;> simp

theorem encCi_fields (w : BitVec 16) : encCi (cFunct3Of w) (immCi w) (cRdOf w) (quadrantOf w) = w := by
  apply eq_of_bits; intro i hi
  simp only [encCi, immCi, quadrantOf, cFunct3Of, cRdOf, bitAt, BitVec.extractLsb, BitVec.getLsbD_extractLsb', BitVec.getLsbD_append]
  interval_cases i <;> simp

theorem encCiw_fields (w : BitVec 16) (hq : quadrantOf w = 0b00#2) (hf : cFunct3Of w = 0b000#3) : encCiw (immAddi4spn w) (cRd'Of w) = w := by
  apply eq_of_bits; intro i hi
  have b0 := congrArg (fun v => BitVec.getLsbD v 0) hq
  have b1 := congrArg (fun v => BitVec.getLsbD v 1) hq
  have f0 := congrArg (fun v => BitVec.getLsbD v 0) hf
  have f1 := congrArg (fun v => BitVec.getLsbD v 1) hf
  have f2 := congrArg (fun v => BitVec.getLsbD v 2) hf
  simp only [encCiw, immAddi4spn, quadrantOf, cFunct3Of, cRd'Of, cReg, cField, bitAt, BitVec.extractLsb, BitVec.getLsbD_extractLsb', BitVec.getLsbD_append] at *
  interval_cases i <;> simp_all

theorem encClw_fields (w : BitVec 16) (hq : quadrantOf w = 0b00#2) : encClw (cFunct3Of w) (immClw w) (cRs1'Of w) (cRd'Of w) = w := by
  apply eq_of_bits; intro i hi
  have b0 := congrArg (fun v => BitVec.getLsbD v 0) hq
  have b1 := congrArg (fun v => BitVec.getLsbD v 1) hq
  simp only [encClw, immClw, quadrantOf, cFunct3Of, cRs1'Of, cRd'Of, cReg, cField, bitAt, BitVec.extractLsb, BitVec.getLsbD_extractLsb', BitVec.getLsbD_append] at *
  interval_cases i <;> simp_all

theorem encCld_fields (w : BitVec 16) (hq : quadrantOf w = 0b00#2) : encCld (cFunct3Of w) (immCld w) (cRs1'Of w) (cRd'Of w) = w := by
  apply eq_of_bits; intro i hi
  have b0 := congrArg (fun v => BitVec.getLsbD v 0) hq
  have b1 := congrArg (fun v => BitVec.getLsbD v 1) hq
  simp only [encCld, immCld, quadrantOf, cFunct3Of, cRs1'Of, cRd'Of, cReg, cField, BitVec.extractLsb, BitVec.getLsbD_extractLsb', BitVec.getLsbD_append] at *
  interval_cases i <;> simp_all

theorem encCj_fields (w : BitVec 16) (hq : quadrantOf w = 0b01#2) : encCj (cFunct3Of w) (immCj w) = w := by
  apply eq_of_bits; intro i hi
  have b0 := congrArg (fun v => BitVec.getLsbD v 0) hq
  have b1 := congrArg (fun v => BitVec.getLsbD v 1) hq
  simp only [encCj, immCj, quadrantOf, cFunct3Of, bitAt, BitVec.extractLsb, BitVec.getLsbD_extractLsb', BitVec.getLsbD_append] at *
  interval_cases i <;> simp_all

theorem encCb_fields (w : BitVec 16) (hq : quadrantOf w = 0b01#2) : encCb (cFunct3Of w) (immCb w) (cRs1'Of w) = w := by
  apply eq_of_bits; intro i hi
  have b0 := congrArg (fun v => BitVec.getLsbD v 0) hq
  have b1 := congrArg (fun v => BitVec.getLsbD v 1) hq
  simp only [encCb, immCb, quadrantOf, cFunct3Of, cRs1'Of, cReg, cField, bitAt, BitVec.extractLsb, BitVec.getLsbD_extractLsb', BitVec.getLsbD_append] at *
  interval_cases i <;> simp_all

theorem encCbAlu_fields (w : BitVec 16) (hq : quadrantOf w = 0b01#2) (hf : cFunct3Of w = 0b100#3) : encCbAlu (w.extractLsb' 10 2) (immCi w) (cRs1'Of w) = w := by
  apply eq_of_bits; intro i hi
  have b0 := congrArg (fun v => BitVec.getLsbD v 0) hq
  have b1 := congrArg (fun v => BitVec.getLsbD v 1) hq
  have f0 := congrArg (fun v => BitVec.getLsbD v 0) hf
  have f1 := congrArg (fun v => BitVec.getLsbD v 1) hf
  have f2 := congrArg (fun v => BitVec.getLsbD v 2) hf
  simp only [encCbAlu, immCi, quadrantOf, cFunct3Of, cRs1'Of, cReg, cField, bitAt, BitVec.extractLsb, BitVec.getLsbD_extractLsb', BitVec.getLsbD_append] at *
  interval_cases i <;> simp_all

theorem encCa_fields (w : BitVec 16) (hq : quadrantOf w = 0b01#2) : encCa (w.extractLsb' 10 6) (cRs1'Of w) (w.extractLsb' 5 2) (cRd'Of w) = w := by
  apply eq_of_bits; intro i hi
  have b0 := congrArg (fun v => BitVec.getLsbD v 0) hq
  have b1 := congrArg (fun v => BitVec.getLsbD v 1) hq
  simp only [encCa, quadrantOf, cRs1'Of, cRd'Of, cReg, cField, BitVec.extractLsb, BitVec.getLsbD_extractLsb', BitVec.getLsbD_append] at *
  interval_cases i <;> simp_all

theorem encCr_fields (w : BitVec 16) (hq : quadrantOf w = 0b10#2) : encCr (w.extractLsb' 12 4) (cRdOf w) (cRs2Of w) = w := by
  apply eq_of_bits; intro i hi
  have b0 := congrArg (fun v => BitVec.getLsbD v 0) hq
  have b1 := congrArg (fun v => BitVec.getLsbD v 1) hq
  simp only [encCr, quadrantOf, cRdOf, cRs2Of, BitVec.extractLsb, BitVec.getLsbD_extractLsb', BitVec.getLsbD_append] at *
  interval_cases i <;> simp_all

theorem encLwsp_fields (w : BitVec 16) (hq : quadrantOf w = 0b10#2) (hf : cFunct3Of w = 0b010#3) : encLwsp (immLwsp w) (cRdOf w) = w := by
  apply eq_of_bits; intro i hi
  have b0 := congrArg (fun v => BitVec.getLsbD v 0) hq
  have b1 := congrArg (fun v => BitVec.getLsbD v 1) hq
  have f0 := congrArg (fun v => BitVec.getLsbD v 0) hf
  have f1 := congrArg (fun v => BitVec.getLsbD v 1) hf
  have f2 := congrArg (fun v => BitVec.getLsbD v 2) hf
  simp only [encLwsp, immLwsp, quadrantOf, cFunct3Of, cRdOf, bitAt, BitVec.extractLsb, BitVec.getLsbD_extractLsb', BitVec.getLsbD_append] at *
  interval_cases i <;> simp_all

theorem encLdsp_fields (w : BitVec 16) (hq : quadrantOf w = 0b10#2) (hf : cFunct3Of w = 0b011#3) : encLdsp (immLdsp w) (cRdOf w) = w := by
  apply eq_of_bits; intro i hi
  have b0 := congrArg (fun v => BitVec.getLsbD v 0) hq
  have b1 := congrArg (fun v => BitVec.getLsbD v 1) hq
  have f0 := congrArg (fun v => BitVec.getLsbD v 0) hf
  have f1 := congrArg (fun v => BitVec.getLsbD v 1) hf
  have f2 := congrArg (fun v => BitVec.getLsbD v 2) hf
  simp only [encLdsp, immLdsp, quadrantOf, cFunct3Of, cRdOf, bitAt, BitVec.extractLsb, BitVec.getLsbD_extractLsb', BitVec.getLsbD_append] at *
  interval_cases i <;> simp_all

theorem encSwsp_fields (w : BitVec 16) (hq : quadrantOf w = 0b10#2) (hf : cFunct3Of w = 0b110#3) : encSwsp (immSwsp w) (cRs2Of w) = w := by
  apply eq_of_bits; intro i hi
  have b0 := congrArg (fun v => BitVec.getLsbD v 0) hq
  have b1 := congrArg (fun v => BitVec.getLsbD v 1) hq
  have f0 := congrArg (fun v => BitVec.getLsbD v 0) hf
  have f1 := congrArg (fun v => BitVec.getLsbD v 1) hf
  have f2 := congrArg (fun v => BitVec.getLsbD v 2) hf
  simp only [encSwsp, immSwsp, quadrantOf, cFunct3Of, cRs2Of, BitVec.extractLsb, BitVec.getLsbD_extractLsb', BitVec.getLsbD_append] at *
  interval_cases i <;> simp_all

theorem encSdsp_fields (w : BitVec 16) (hq : quadrantOf w = 0b10#2) (hf : cFunct3Of w = 0b111#3) : encSdsp (immSdsp w) (cRs2Of w) = w := by
  apply eq_of_bits; intro i hi
  have b0 := congrArg (fun v => BitVec.getLsbD v 0) hq
  have b1 := congrArg (fun v => BitVec.getLsbD v 1) hq
  have f0 := congrArg (fun v => BitVec.getLsbD v 0) hf
  have f1 := congrArg (fun v => BitVec.getLsbD v 1) hf
  have f2 := congrArg (fun v => BitVec.getLsbD v 2) hf
  simp only [encSdsp, immSdsp, quadrantOf, cFunct3Of, cRs2Of, BitVec.extractLsb, BitVec.getLsbD_extractLsb', BitVec.getLsbD_append] at *
  interval_cases i <;> simp_all

theorem encAddi16sp_fields (w : BitVec 16) (hq : quadrantOf w = 0b01#2) (hf : cFunct3Of w = 0b011#3) (hd : cRdOf w = 2#5) :
    encAddi16sp (immAddi16sp w) = w := by
  apply eq_of_bits; intro i hi
  have b0 := congrArg (fun v => BitVec.getLsbD v 0) hq
  have b1 := congrArg (fun v => BitVec.getLsbD v 1) hq
  have f0 := congrArg (fun v => BitVec.getLsbD v 0) hf
  have f1 := congrArg (fun v => BitVec.getLsbD v 1) hf
  have f2 := congrArg (fun v => BitVec.getLsbD v 2) hf
  have d0 := congrArg (fun v => BitVec.getLsbD v 0) hd
  have d1 := congrArg (fun v => BitVec.getLsbD v 1) hd
  have d2 := congrArg (fun v => BitVec.getLsbD v 2) hd
  have d3 := congrArg (fun v => BitVec.getLsbD v 3) hd
  have d4 := congrArg (fun v => BitVec.getLsbD v 4) hd
  simp only [encAddi16sp, immAddi16sp, quadrantOf, cFunct3Of, cRdOf, bitAt, BitVec.extractLsb, BitVec.getLsbD_extractLsb',
    BitVec.getLsbD_append] at *
  interval_cases i <;> simp_all

/-- A vector laid out with k zeros at the bottom is a multiple of 2^k. -/
theorem multipleOf_append {n : Nat} (v : BitVec n) (k : Nat) : multipleOf (2 ^ k) (v ++ 0#k) = true := by
  simp [multipleOf, BitVec.toNat_append, Nat.shiftLeft_eq]


/-! ### The length of an instruction -/

theorem low2_eq (w : BitVec 32) : w.extractLsb' 0 2 = (opcodeOf w).extractLsb' 0 2 := by
  apply eq_of_bits; intro i hi
  simp only [opcodeOf, BitVec.extractLsb, BitVec.getLsbD_extractLsb']
  interval_cases i <;> simp

theorem mid3_eq (w : BitVec 32) : w.extractLsb' 2 3 = (opcodeOf w).extractLsb' 2 3 := by
  apply eq_of_bits; intro i hi
  simp only [opcodeOf, BitVec.extractLsb, BitVec.getLsbD_extractLsb']
  interval_cases i <;> simp

/-! ### The immediate extractor never fails (30_encoding.md R78) -/

/-- A field ending in a 0 bit. -/
theorem even_append {n : Nat} (v : BitVec n) (k : Nat) : (v ++ 0#(k + 1)).toNat % 2 = 0 := by
  rw [BitVec.toNat_append, BitVec.toNat_ofNat, Nat.zero_mod, Nat.or_zero, Nat.shiftLeft_eq, pow_succ, ← Nat.mul_assoc]; omega

@[simp] theorem extractI_eq (w : BitVec 32) : extractI w = .ok (.ofField true false (immI w)) :=
  Machine.Immediate.extract_ok _ _ (by decide) _ nofun
@[simp] theorem extractS_eq (w : BitVec 32) : extractS w = .ok (.ofField true false (immS w)) :=
  Machine.Immediate.extract_ok _ _ (by decide) _ nofun
@[simp] theorem extractB_eq (w : BitVec 32) : extractB w = .ok (.ofField true true (immB w)) :=
  Machine.Immediate.extract_ok _ _ (by decide) _ (fun _ => even_append _ 0)
@[simp] theorem extractU_eq (w : BitVec 32) :
    extractU w = .ok ((Machine.Immediate.ofField false false (immU w)).leftShift 12) := by
  rw [extractU, Machine.Immediate.extract_ok false false (by decide) _ nofun]; rfl
@[simp] theorem extractJ_eq (w : BitVec 32) : extractJ w = .ok (.ofField true true (immJ w)) :=
  Machine.Immediate.extract_ok _ _ (by decide) _ (fun _ => even_append _ 0)
@[simp] theorem extractShamt5_eq (w : BitVec 32) : extractShamt5 w = .ok (.ofField false false (shamt5 w)) :=
  Machine.Immediate.extract_ok _ _ (by decide) _ nofun
@[simp] theorem extractShamt6_eq (w : BitVec 32) : extractShamt6 w = .ok (.ofField false false (shamt6 w)) :=
  Machine.Immediate.extract_ok _ _ (by decide) _ nofun
@[simp] theorem extractUimm_eq (w : BitVec 32) : extractUimm w = .ok (.ofField false false (rs1Of w)) :=
  Machine.Immediate.extract_ok _ _ (by decide) _ nofun
@[simp] theorem extractAddi4spn_eq (h : BitVec 16) : extractAddi4spn h = .ok (.ofField false true (immAddi4spn h)) :=
  Machine.Immediate.extract_ok _ _ (by decide) _ (fun _ => even_append _ 1)
@[simp] theorem extractClw_eq (h : BitVec 16) : extractClw h = .ok (.ofField false true (immClw h)) :=
  Machine.Immediate.extract_ok _ _ (by decide) _ (fun _ => even_append _ 1)
@[simp] theorem extractCld_eq (h : BitVec 16) : extractCld h = .ok (.ofField false true (immCld h)) :=
  Machine.Immediate.extract_ok _ _ (by decide) _ (fun _ => even_append _ 2)
@[simp] theorem extractCi_eq (h : BitVec 16) : extractCi h = .ok (.ofField true false (immCi h)) :=
  Machine.Immediate.extract_ok _ _ (by decide) _ nofun
@[simp] theorem extractAddi16sp_eq (h : BitVec 16) : extractAddi16sp h = .ok (.ofField true true (immAddi16sp h)) :=
  Machine.Immediate.extract_ok _ _ (by decide) _ (fun _ => even_append _ 3)
@[simp] theorem extractCshamt_eq (h : BitVec 16) : extractCshamt h = .ok (.ofField false false (immCi h)) :=
  Machine.Immediate.extract_ok _ _ (by decide) _ nofun
@[simp] theorem extractLwsp_eq (h : BitVec 16) : extractLwsp h = .ok (.ofField false true (immLwsp h)) :=
  Machine.Immediate.extract_ok _ _ (by decide) _ (fun _ => even_append _ 1)
@[simp] theorem extractLdsp_eq (h : BitVec 16) : extractLdsp h = .ok (.ofField false true (immLdsp h)) :=
  Machine.Immediate.extract_ok _ _ (by decide) _ (fun _ => even_append _ 2)
@[simp] theorem extractSwsp_eq (h : BitVec 16) : extractSwsp h = .ok (.ofField false true (immSwsp h)) :=
  Machine.Immediate.extract_ok _ _ (by decide) _ (fun _ => even_append _ 1)
@[simp] theorem extractSdsp_eq (h : BitVec 16) : extractSdsp h = .ok (.ofField false true (immSdsp h)) :=
  Machine.Immediate.extract_ok _ _ (by decide) _ (fun _ => even_append _ 2)
@[simp] theorem extractCj_eq (h : BitVec 16) : extractCj h = .ok (.ofField true true (immCj h)) :=
  Machine.Immediate.extract_ok _ _ (by decide) _ (fun _ => even_append _ 0)
@[simp] theorem extractCb_eq (h : BitVec 16) : extractCb h = .ok (.ofField true true (immCb h)) :=
  Machine.Immediate.extract_ok _ _ (by decide) _ (fun _ => even_append _ 0)
@[simp] theorem extractClui_eq (h : BitVec 16) :
    extractClui h = .ok ((Machine.Immediate.ofField true false (immCi h)).leftShift 12) := by
  rw [extractClui, Machine.Immediate.extract_ok true false (by decide) _ nofun]; rfl

/-- Whatever the variant, its Immediate is extracted without an error. -/
theorem extractImmediate_ok (w : BitVec 32) (i : Instr) :
    extractImmediate w i = none ∨ ∃ im, extractImmediate w i = some (.ok im) := by
  cases i <;> simp [extractImmediate]

/-- Decoding is the row's match alone (30_encoding.md R86): no extraction fails. -/
theorem decode_eq (c : Config) (w : BitVec 32) :
    decode c w = match decodeRow c w with | some i => .ok i | none => .error .invalidEncoding := by
  unfold decode
  cases decodeRow c w with
  | none => rfl
  | some i => rcases extractImmediate_ok w i with h | ⟨im, h⟩ <;> simp only [h]

theorem decode_ok_iff (c : Config) (w : BitVec 32) (i : Instr) : decode c w = .ok i ↔ decodeRow c w = some i := by
  rw [decode_eq]; cases decodeRow c w <;> simp

/-- A decode that gives no instruction is InvalidEncoding (60_exceptions.md R239, R241). -/
theorem decode_error {c : Config} {w : BitVec 32} {e : DecodeError} (h : decode c w = .error e) :
    e = .invalidEncoding ∧ decodeRow c w = none := by
  rw [decode_eq] at h
  cases hr : decodeRow c w with
  | none => rw [hr] at h; exact ⟨by cases h; rfl, rfl⟩
  | some i => rw [hr] at h; cases h

/-! ### From a major opcode or a quadrant to the decoder of it -/

/-- A 32-bit instruction is decoded by its major opcode, whatever the configuration's C (30_encoding.md R69). -/
theorem decode_word (c : Config) (w : BitVec 32) (i : Instr) (op : BitVec 7) (h : opcodeOf w = op)
    (h2 : op.extractLsb' 0 2 = 0b11#2) (h3 : op.extractLsb' 2 3 ≠ 0b111#3) (hd : decode32 c.xlen w = some i) :
    decode c w = .ok i := by
  have a := low2_eq w
  have b := mid3_eq w
  rw [h] at a b
  simp only [decode_eq, decodeRow, a, b, h2, h3, if_true, if_false, hd]

theorem low2_half (h : BitVec 16) : (h.setWidth 32).extractLsb' 0 2 = quadrantOf h := by
  apply eq_of_bits; intro i hi
  simp only [quadrantOf, BitVec.extractLsb, BitVec.getLsbD_extractLsb', BitVec.getLsbD_setWidth]
  interval_cases i <;> simp

/-- A 16-bit instruction is decoded by its quadrant, when C is enabled (30_encoding.md R69). -/
theorem decode_half (c : Config) (h : BitVec 16) (i : Instr) (q : BitVec 2) (hc : c.cEnabled = true)
    (hq : quadrantOf h = q) (h3 : q ≠ 0b11#2) (hd : decode16 c.xlen h = some i) : decode c (h.setWidth 32) = .ok i := by
  simp only [decode_eq, decodeRow, low2_half, hq, h3, if_false, hc, if_true, low_half, hd]

end Sys2Proof
end

