-- ==== Sys2Proof/Laws/Memory.lean ====
section
/-! SUPPORT. Memory: read after write, what a store leaves alone, and that every operation keeps the canonical form
and stays inside the space. -/

namespace Sys2Proof.Machine

@[simp] theorem Memory.read_nil (a : Nat) : Memory.read [] a = 0 := rfl

/-- A filtered memory reads as before at the addresses kept. -/
theorem Memory.read_filter_ne (m : Memory) {a a' : Nat} (h : a' ≠ a) :
    Memory.read (m.filter (fun c => c.1 != a)) a' = m.read a' := by
  induction m with
  | nil => rfl
  | cons c m ih =>
    obtain ⟨k, b⟩ := c
    by_cases hk : k = a
    · subst hk; simp [Memory.read, Ne.symm h, ih]
    · simp [Memory.read, hk, ih]

/-- An address filtered out reads 0. -/
theorem Memory.read_filter_same (m : Memory) (a : Nat) : Memory.read (m.filter (fun c => c.1 != a)) a = 0 := by
  induction m with
  | nil => rfl
  | cons c m ih =>
    obtain ⟨k, b⟩ := c
    by_cases hk : k = a <;> simp [Memory.read, hk, ih]

theorem Memory.read_insert_ne (m : Memory) {a a' : Nat} (b : Byte) (h : a' ≠ a) :
    Memory.read (m.insert a b) a' = m.read a' := by
  induction m with
  | nil => simp [Memory.insert, Memory.read, Ne.symm h]
  | cons c m ih =>
    obtain ⟨k, d⟩ := c
    by_cases hlt : a < k <;> simp [Memory.insert, Memory.read, hlt, ih, Ne.symm h]

theorem Memory.read_insert_same (m : Memory) (a : Nat) (b : Byte) (h : ∀ c ∈ m, c.1 ≠ a) :
    Memory.read (m.insert a b) a = b := by
  induction m with
  | nil => simp [Memory.insert, Memory.read]
  | cons c m ih =>
    obtain ⟨k, d⟩ := c
    have hk : k ≠ a := h (k, d) (by simp)
    have ih := ih (fun e he => h e (by simp [he]))
    by_cases hlt : a < k <;> simp [Memory.insert, Memory.read, hlt, ih, hk]

/-- A read after a write to the same address gives the byte written. -/
@[simp] theorem Memory.read_write_same (m : Memory) (a : Nat) (b : Byte) : (m.write a b).read a = b := by
  by_cases hb : b = 0
  · simp [Memory.write, hb, Memory.read_filter_same]
  · simp only [Memory.write, hb, if_false]
    exact Memory.read_insert_same _ _ _ (by simp)

/-- A write leaves every other address alone. -/
theorem Memory.read_write_ne (m : Memory) {a a' : Nat} (b : Byte) (h : a' ≠ a) : (m.write a b).read a' = m.read a' := by
  by_cases hb : b = 0
  · simp [Memory.write, hb, Memory.read_filter_ne m h]
  · simp only [Memory.write, hb, if_false]
    rw [Memory.read_insert_ne _ b h, Memory.read_filter_ne m h]

/-! ### The canonical form -/

/-- The canonical form in terms of the list: rising addresses, no entry that reads as an unlisted byte. -/
theorem Memory.wf_iff (m : Memory) : m.wf = true ↔ m.Pairwise (fun c d => c.1 < d.1) ∧ ∀ c ∈ m, c.2 ≠ 0 := by
  induction m with
  | nil => simp [Memory.wf]
  | cons c m ih =>
    obtain ⟨a, b⟩ := c
    cases m with
    | nil => simp [Memory.wf]
    | cons d m =>
      obtain ⟨a', b'⟩ := d
      simp only [Memory.wf, Bool.and_eq_true, decide_eq_true_eq, ih, bne_iff_ne]
      constructor
      · rintro ⟨⟨hb, hlt⟩, hp, hn⟩
        refine ⟨List.pairwise_cons.2 ⟨?_, hp⟩, ?_⟩
        · intro e he
          rcases List.mem_cons.1 he with rfl | he
          · exact hlt
          · exact hlt.trans ((List.pairwise_cons.1 hp).1 e he)
        · intro e he
          rcases List.mem_cons.1 he with rfl | he
          · exact hb
          · exact hn e he
      · rintro ⟨hp, hn⟩
        have hp' := List.pairwise_cons.1 hp
        exact ⟨⟨hn (a, b) (by simp), hp'.1 (a', b') (by simp)⟩, hp'.2, fun e he => hn e (by simp [List.mem_cons.1 he])⟩

theorem Memory.mem_insert (m : Memory) (a : Nat) (b : Byte) (e : Host.Cell) : e ∈ m.insert a b ↔ e = (a, b) ∨ e ∈ m := by
  induction m with
  | nil => simp [Memory.insert]
  | cons c m ih =>
    obtain ⟨k, d⟩ := c
    by_cases hlt : a < k
    · simp [Memory.insert, hlt]
    · simp only [Memory.insert, hlt, if_false, List.mem_cons, ih]; tauto

theorem Memory.insert_wf (m : Memory) (a : Nat) (b : Byte) (hb : b ≠ 0) (ha : ∀ c ∈ m, c.1 ≠ a) (h : m.wf = true) :
    (m.insert a b).wf = true := by
  rw [Memory.wf_iff] at h ⊢
  refine ⟨?_, fun e he => ?_⟩
  · obtain ⟨hp, -⟩ := h
    induction m with
    | nil => simp [Memory.insert]
    | cons c m ih =>
      obtain ⟨k, d⟩ := c
      have hp' := List.pairwise_cons.1 hp
      have hk : k ≠ a := ha (k, d) (by simp)
      by_cases hlt : a < k
      · simp only [Memory.insert, hlt, if_true]
        refine List.pairwise_cons.2 ⟨fun e he => ?_, hp⟩
        rcases List.mem_cons.1 he with rfl | he
        · exact hlt
        · exact hlt.trans (hp'.1 e he)
      · simp only [Memory.insert, hlt, if_false]
        refine List.pairwise_cons.2 ⟨fun e he => ?_, ih (fun c hc => ha c (by simp [hc])) hp'.2⟩
        rcases (Memory.mem_insert m a b e).1 he with rfl | he
        · exact Nat.lt_of_le_of_ne (Nat.le_of_not_lt hlt) hk
        · exact hp'.1 e he
  · rcases (Memory.mem_insert m a b e).1 he with rfl | he
    · exact hb
    · exact h.2 e he

/-- A write keeps the canonical form. -/
theorem Memory.write_wf (m : Memory) (a : Nat) (b : Byte) (h : m.wf = true) : (m.write a b).wf = true := by
  have hf : Memory.wf (m.filter (fun c => c.1 != a)) = true := by
    rw [Memory.wf_iff] at h ⊢
    exact ⟨h.1.filter _, fun c hc => h.2 c (List.mem_of_mem_filter hc)⟩
  by_cases hb : b = 0
  · simpa [Memory.write, hb] using hf
  · simp only [Memory.write, hb, if_false]
    exact Memory.insert_wf _ a b hb (by simp) hf

theorem Memory.storeFrom_wf (x : XLen) (n : Nat) : ∀ (m : Memory) (a : Nat) (v : Word), m.wf = true →
    (m.storeFrom x a v n).wf = true := by
  induction n with
  | zero => intro m a v h; exact h
  | succ n ih => intro m a v h; exact ih _ _ _ (Memory.write_wf _ _ _ h)

/-- A store keeps the canonical form. -/
theorem Memory.store_wf (x : XLen) (m : Memory) (a : Word) (n : Nat) (v : Word) (h : m.wf = true) :
    (m.store x a n v).wf = true := Memory.storeFrom_wf x n m _ v h

theorem Memory.storeBytes_wf (x : XLen) (bs : List Byte) : ∀ (m : Memory) (a : Nat), m.wf = true →
    (m.storeBytes x a bs).wf = true := by
  induction bs with
  | nil => intro m a h; exact h
  | cons b bs ih => intro m a h; exact ih _ _ (Memory.write_wf _ _ _ h)

/-- MEM_INIT's memory is canonical, whatever the host lists. -/
theorem Memory.ofCells_wf (cells : List Host.Cell) : (Memory.ofCells cells).wf = true := by
  suffices h : ∀ m : Memory, m.wf = true → Memory.wf (cells.foldl (fun m c => m.write c.1 c.2) m) = true from h [] rfl
  induction cells with
  | nil => exact fun m h => h
  | cons c cells ih => exact fun m h => ih _ (Memory.write_wf _ _ _ h)

theorem State.reset_mem_wf : State.reset.mem.wf = true := rfl

/-- Canonical memories that read alike are equal data. -/
theorem Memory.wf_ext (m m' : Memory) (h : m.wf = true) (h' : m'.wf = true) (hr : ∀ a, m.read a = m'.read a) :
    m = m' := by
  have below : ∀ (m : Memory) (a : Nat), (∀ c ∈ m, a < c.1) → m.read a = 0 := by
    intro m a hm
    induction m with
    | nil => rfl
    | cons c m ih =>
      have hc := hm c (by simp)
      simp only [Memory.read, Nat.ne_of_gt hc, if_false]
      exact ih (fun e he => hm e (by simp [he]))
  rw [Memory.wf_iff] at h h'
  induction m generalizing m' with
  | nil =>
    cases m' with
    | nil => rfl
    | cons c m' => exact absurd (by simpa [Memory.read] using (hr c.1).symm) (h'.2 c (by simp))
  | cons c m ih =>
    cases m' with
    | nil => exact absurd (by simpa [Memory.read] using hr c.1) (h.2 c (by simp))
    | cons d m' =>
      have hp := List.pairwise_cons.1 h.1
      have hp' := List.pairwise_cons.1 h'.1
      have hc := h.2 c (by simp)
      have hd := h'.2 d (by simp)
      have hcd : c.1 = d.1 := by
        rcases Nat.lt_trichotomy c.1 d.1 with hlt | heq | hlt
        · have := hr c.1
          rw [below (d :: m') c.1 (fun e he => by
            rcases List.mem_cons.1 he with rfl | he
            · exact hlt
            · exact hlt.trans (hp'.1 e he))] at this
          exact absurd (by simpa [Memory.read] using this) hc
        · exact heq
        · have := (hr d.1).symm
          rw [below (c :: m) d.1 (fun e he => by
            rcases List.mem_cons.1 he with rfl | he
            · exact hlt
            · exact hlt.trans (hp.1 e he))] at this
          exact absurd (by simpa [Memory.read] using this) hd
      have hb : c.2 = d.2 := by simpa [Memory.read, hcd] using hr c.1
      have htail : m = m' := by
        refine ih m' ⟨hp.2, fun e he => h.2 e (by simp [he])⟩ ⟨hp'.2, fun e he => h'.2 e (by simp [he])⟩ (fun a => ?_)
        by_cases ha : a = c.1
        · rw [below m a (fun e he => ha ▸ hp.1 e he), below m' a (fun e he => ha ▸ hcd ▸ hp'.1 e he)]
        · have := hr a
          simpa [Memory.read, Ne.symm ha, hcd ▸ Ne.symm ha] using this
      rw [htail, Prod.ext hcd hb]

/-! ### Inside the space -/

theorem Memory.write_inSpace (x : XLen) (m : Memory) (a : Nat) (b : Byte) (ha : a < 2 ^ x.bits)
    (h : m.inSpace x = true) : (m.write a b).inSpace x = true := by
  simp only [Memory.inSpace, List.all_eq_true, decide_eq_true_eq] at h ⊢
  intro c hc
  by_cases hb : b = 0
  · simp only [Memory.write, hb, if_true] at hc
    exact h c (List.mem_of_mem_filter hc)
  · simp only [Memory.write, hb, if_false] at hc
    rcases (Memory.mem_insert _ _ _ c).1 hc with rfl | hc
    · exact ha
    · exact h c (List.mem_of_mem_filter hc)

theorem Memory.storeFrom_inSpace (x : XLen) (n : Nat) : ∀ (m : Memory) (a : Nat) (v : Word), m.inSpace x = true →
    (m.storeFrom x a v n).inSpace x = true := by
  induction n with
  | zero => intro m a v h; exact h
  | succ n ih => intro m a v h; exact ih _ _ _ (Memory.write_inSpace x _ _ _ (Nat.mod_lt _ (by positivity)) h)

/-- A store stays inside the space: its addresses wrap (20_memory.md R53). -/
theorem Memory.store_inSpace (x : XLen) (m : Memory) (a : Word) (n : Nat) (v : Word) (h : m.inSpace x = true) :
    (m.store x a n v).inSpace x = true := Memory.storeFrom_inSpace x n m _ v h

/-! ### A store's bytes -/

/-- A store leaves every address outside its bytes alone. -/
theorem Memory.read_storeFrom_outside (x : XLen) (n : Nat) : ∀ (m : Memory) (a : Nat) (v : Word) (a' : Nat),
    (∀ i < n, a' ≠ (a + i) % 2 ^ x.bits) → (m.storeFrom x a v n).read a' = m.read a' := by
  induction n with
  | zero => intro m a v a' h; rfl
  | succ n ih =>
    intro m a v a' h
    rw [Memory.storeFrom, ih _ _ _ _ (fun i hi => by rw [Nat.add_assoc, Nat.add_comm 1 i]; exact h (i + 1) (by omega))]
    exact Memory.read_write_ne _ _ (h 0 (by omega))

/-- The i-th byte a store leaves is byte i of its value, while the bytes do not wrap onto each other. -/
theorem Memory.read_storeFrom_inside (x : XLen) (n : Nat) (hn : n ≤ 2 ^ x.bits) : ∀ (m : Memory) (a : Nat) (v : Word)
    (i : Nat), i < n → (m.storeFrom x a v n).read ((a + i) % 2 ^ x.bits) = (v >>> (8 * i)).setWidth 8 := by
  induction n with
  | zero => intro m a v i hi; omega
  | succ n ih =>
    intro m a v i hi
    cases i with
    | zero =>
      rw [Memory.storeFrom, Memory.read_storeFrom_outside]
      · simp
      · intro j hj h
        rw [Nat.add_zero, Nat.add_assoc] at h
        have := (Nat.ModEq.add_left_cancel' a (show a + 0 ≡ a + (1 + j) [MOD 2 ^ x.bits] from h)).symm
        rw [Nat.ModEq, Nat.zero_mod, Nat.mod_eq_of_lt (by omega)] at this
        omega
    | succ j =>
      have := ih (by omega) (m.write (a % 2 ^ x.bits) (v.setWidth 8)) (a + 1) (v >>> 8) j (by omega)
      rw [show a + (j + 1) = a + 1 + j by omega, Memory.storeFrom, this, ← BitVec.shiftRight_add]
      congr 2; omega

theorem eight_le_pow_bits (x : XLen) : 8 ≤ 2 ^ x.bits := by cases x <;> decide

theorem Granularity.bytes_le (g : Granularity) : g.bytes ≤ 8 := by cases g <;> decide

/-- `value` looks at its n bytes only. -/
theorem Memory.value_congr (x : XLen) (n : Nat) : ∀ (m m' : Memory) (a : Nat),
    (∀ i < n, m.read ((a + i) % 2 ^ x.bits) = m'.read ((a + i) % 2 ^ x.bits)) → m.value x a n = m'.value x a n := by
  induction n with
  | zero => intro m m' a h; rfl
  | succ n ih =>
    intro m m' a h
    have h0 : m.read (a % 2 ^ x.bits) = m'.read (a % 2 ^ x.bits) := h 0 (by omega)
    rw [Memory.value, Memory.value, h0, ih m m' (a + 1) (fun i hi => by
      rw [Nat.add_assoc, Nat.add_comm 1 i]; exact h (i + 1) (by omega))]

/-- n bytes are a number below 256^n. -/
theorem Memory.value_lt (x : XLen) (m : Memory) (n : Nat) : ∀ a, m.value x a n < 256 ^ n := by
  induction n with
  | zero => intro a; simp [Memory.value]
  | succ n ih =>
    intro a
    have h := ih (a + 1)
    have hb := (m.read (a % 2 ^ x.bits)).isLt
    rw [Memory.value, Nat.pow_succ]
    omega

end Sys2Proof.Machine
end

