-- ==== Sys2Proof/Laws/State.lean ====
section
/-! SUPPORT. One lemma per field per update of the state: what each operation of a step leaves in each field. -/

namespace Sys2Proof.Machine

variable (s : State)


@[simp] theorem State.captureRs1_cfg (r : RegIdx) : (s.captureRs1 r).cfg = s.cfg := rfl
@[simp] theorem State.captureRs1_regs (r : RegIdx) : (s.captureRs1 r).regs = s.regs := rfl
@[simp] theorem State.captureRs1_pc (r : RegIdx) : (s.captureRs1 r).pc = s.pc := rfl
@[simp] theorem State.captureRs1_mem (r : RegIdx) : (s.captureRs1 r).mem = s.mem := rfl
@[simp] theorem State.captureRs1_order (r : RegIdx) : (s.captureRs1 r).order = s.order := rfl
@[simp] theorem State.captureRs1_halt (r : RegIdx) : (s.captureRs1 r).halt = s.halt := rfl
@[simp] theorem State.captureRs1_trace (r : RegIdx) : (s.captureRs1 r).trace = s.trace := rfl
@[simp] theorem State.captureRs1_fetched (r : RegIdx) : (s.captureRs1 r).stage.fetched = s.stage.fetched := rfl
@[simp] theorem State.captureRs1_log (r : RegIdx) : (s.captureRs1 r).stage.log = s.stage.log := rfl
@[simp] theorem State.captureRs1_rs1 (r : RegIdx) : (s.captureRs1 r).stage.rs1 = some ⟨r, s.x r⟩ := rfl
@[simp] theorem State.captureRs1_rs2 (r : RegIdx) : (s.captureRs1 r).stage.rs2 = s.stage.rs2 := rfl
@[simp] theorem State.captureRs1_memEvent (r : RegIdx) : (s.captureRs1 r).stage.memEvent = s.stage.memEvent := rfl
@[simp] theorem State.captureRs1_target (r : RegIdx) : (s.captureRs1 r).stage.target = s.stage.target := rfl

@[simp] theorem State.captureRs2_cfg (r : RegIdx) : (s.captureRs2 r).cfg = s.cfg := rfl
@[simp] theorem State.captureRs2_regs (r : RegIdx) : (s.captureRs2 r).regs = s.regs := rfl
@[simp] theorem State.captureRs2_pc (r : RegIdx) : (s.captureRs2 r).pc = s.pc := rfl
@[simp] theorem State.captureRs2_mem (r : RegIdx) : (s.captureRs2 r).mem = s.mem := rfl
@[simp] theorem State.captureRs2_order (r : RegIdx) : (s.captureRs2 r).order = s.order := rfl
@[simp] theorem State.captureRs2_halt (r : RegIdx) : (s.captureRs2 r).halt = s.halt := rfl
@[simp] theorem State.captureRs2_trace (r : RegIdx) : (s.captureRs2 r).trace = s.trace := rfl
@[simp] theorem State.captureRs2_fetched (r : RegIdx) : (s.captureRs2 r).stage.fetched = s.stage.fetched := rfl
@[simp] theorem State.captureRs2_log (r : RegIdx) : (s.captureRs2 r).stage.log = s.stage.log := rfl
@[simp] theorem State.captureRs2_rs1 (r : RegIdx) : (s.captureRs2 r).stage.rs1 = s.stage.rs1 := rfl
@[simp] theorem State.captureRs2_rs2 (r : RegIdx) : (s.captureRs2 r).stage.rs2 = some ⟨r, s.x r⟩ := rfl
@[simp] theorem State.captureRs2_memEvent (r : RegIdx) : (s.captureRs2 r).stage.memEvent = s.stage.memEvent := rfl
@[simp] theorem State.captureRs2_target (r : RegIdx) : (s.captureRs2 r).stage.target = s.stage.target := rfl

@[simp] theorem State.recordMem_cfg (k : MemKind) (g : Granularity) (a d : Word) : (s.recordMem k g a d).cfg = s.cfg := rfl
@[simp] theorem State.recordMem_regs (k : MemKind) (g : Granularity) (a d : Word) : (s.recordMem k g a d).regs = s.regs := rfl
@[simp] theorem State.recordMem_pc (k : MemKind) (g : Granularity) (a d : Word) : (s.recordMem k g a d).pc = s.pc := rfl
@[simp] theorem State.recordMem_mem (k : MemKind) (g : Granularity) (a d : Word) : (s.recordMem k g a d).mem = s.mem := rfl
@[simp] theorem State.recordMem_order (k : MemKind) (g : Granularity) (a d : Word) : (s.recordMem k g a d).order = s.order := rfl
@[simp] theorem State.recordMem_halt (k : MemKind) (g : Granularity) (a d : Word) : (s.recordMem k g a d).halt = s.halt := rfl
@[simp] theorem State.recordMem_trace (k : MemKind) (g : Granularity) (a d : Word) : (s.recordMem k g a d).trace = s.trace := rfl
@[simp] theorem State.recordMem_fetched (k : MemKind) (g : Granularity) (a d : Word) : (s.recordMem k g a d).stage.fetched = s.stage.fetched := rfl
@[simp] theorem State.recordMem_log (k : MemKind) (g : Granularity) (a d : Word) : (s.recordMem k g a d).stage.log = s.stage.log := rfl
@[simp] theorem State.recordMem_rs1 (k : MemKind) (g : Granularity) (a d : Word) : (s.recordMem k g a d).stage.rs1 = s.stage.rs1 := rfl
@[simp] theorem State.recordMem_rs2 (k : MemKind) (g : Granularity) (a d : Word) : (s.recordMem k g a d).stage.rs2 = s.stage.rs2 := rfl
@[simp] theorem State.recordMem_memEvent (k : MemKind) (g : Granularity) (a d : Word) : (s.recordMem k g a d).stage.memEvent = some ⟨k, g, a, d⟩ := rfl
@[simp] theorem State.recordMem_target (k : MemKind) (g : Granularity) (a d : Word) : (s.recordMem k g a d).stage.target = s.stage.target := rfl

@[simp] theorem State.setTarget_cfg (t : Word) : (s.setTarget t).cfg = s.cfg := rfl
@[simp] theorem State.setTarget_regs (t : Word) : (s.setTarget t).regs = s.regs := rfl
@[simp] theorem State.setTarget_pc (t : Word) : (s.setTarget t).pc = s.pc := rfl
@[simp] theorem State.setTarget_mem (t : Word) : (s.setTarget t).mem = s.mem := rfl
@[simp] theorem State.setTarget_order (t : Word) : (s.setTarget t).order = s.order := rfl
@[simp] theorem State.setTarget_halt (t : Word) : (s.setTarget t).halt = s.halt := rfl
@[simp] theorem State.setTarget_trace (t : Word) : (s.setTarget t).trace = s.trace := rfl
@[simp] theorem State.setTarget_fetched (t : Word) : (s.setTarget t).stage.fetched = s.stage.fetched := rfl
@[simp] theorem State.setTarget_log (t : Word) : (s.setTarget t).stage.log = s.stage.log := rfl
@[simp] theorem State.setTarget_rs1 (t : Word) : (s.setTarget t).stage.rs1 = s.stage.rs1 := rfl
@[simp] theorem State.setTarget_rs2 (t : Word) : (s.setTarget t).stage.rs2 = s.stage.rs2 := rfl
@[simp] theorem State.setTarget_memEvent (t : Word) : (s.setTarget t).stage.memEvent = s.stage.memEvent := rfl
@[simp] theorem State.setTarget_target (t : Word) : (s.setTarget t).stage.target = some t := rfl

@[simp] theorem State.writeReg_cfg (r : RegIdx) (v : Word) : (s.writeReg r v).cfg = s.cfg := by
  unfold State.writeReg; split <;> rfl
@[simp] theorem State.writeReg_regs (r : RegIdx) (v : Word) : (s.writeReg r v).regs = s.regs := by
  unfold State.writeReg; split <;> rfl
@[simp] theorem State.writeReg_pc (r : RegIdx) (v : Word) : (s.writeReg r v).pc = s.pc := by
  unfold State.writeReg; split <;> rfl
@[simp] theorem State.writeReg_mem (r : RegIdx) (v : Word) : (s.writeReg r v).mem = s.mem := by
  unfold State.writeReg; split <;> rfl
@[simp] theorem State.writeReg_order (r : RegIdx) (v : Word) : (s.writeReg r v).order = s.order := by
  unfold State.writeReg; split <;> rfl
@[simp] theorem State.writeReg_halt (r : RegIdx) (v : Word) : (s.writeReg r v).halt = s.halt := by
  unfold State.writeReg; split <;> rfl
@[simp] theorem State.writeReg_trace (r : RegIdx) (v : Word) : (s.writeReg r v).trace = s.trace := by
  unfold State.writeReg; split <;> rfl
@[simp] theorem State.writeReg_fetched (r : RegIdx) (v : Word) : (s.writeReg r v).stage.fetched = s.stage.fetched := by
  unfold State.writeReg; split <;> rfl
@[simp] theorem State.writeReg_rs1 (r : RegIdx) (v : Word) : (s.writeReg r v).stage.rs1 = s.stage.rs1 := by
  unfold State.writeReg; split <;> rfl
@[simp] theorem State.writeReg_rs2 (r : RegIdx) (v : Word) : (s.writeReg r v).stage.rs2 = s.stage.rs2 := by
  unfold State.writeReg; split <;> rfl
@[simp] theorem State.writeReg_memEvent (r : RegIdx) (v : Word) : (s.writeReg r v).stage.memEvent = s.stage.memEvent := by
  unfold State.writeReg; split <;> rfl
@[simp] theorem State.writeReg_target (r : RegIdx) (v : Word) : (s.writeReg r v).stage.target = s.stage.target := by
  unfold State.writeReg; split <;> rfl

/-- A write to x0 leaves no record; a write to another register appends one (10_state.md R27, R29). -/
@[simp] theorem State.writeReg_log (r : RegIdx) (v : Word) :
    (s.writeReg r v).stage.log = if r = 0#5 then s.stage.log else s.stage.log ++ [⟨r, s.xlen.wrap v⟩] := by
  unfold State.writeReg; split <;> rfl

@[simp] theorem State.haltWith_cfg (c : Cause) (w : Option RawInsn) : (s.haltWith c w).cfg = s.cfg := rfl
@[simp] theorem State.haltWith_regs (c : Cause) (w : Option RawInsn) : (s.haltWith c w).regs = s.regs := rfl
@[simp] theorem State.haltWith_pc (c : Cause) (w : Option RawInsn) : (s.haltWith c w).pc = s.pc := rfl
@[simp] theorem State.haltWith_mem (c : Cause) (w : Option RawInsn) : (s.haltWith c w).mem = s.mem := rfl
@[simp] theorem State.haltWith_order (c : Cause) (w : Option RawInsn) : (s.haltWith c w).order = s.order := rfl
@[simp] theorem State.haltWith_halt (c : Cause) (w : Option RawInsn) : (s.haltWith c w).halt = .halted c s.pc w := rfl
@[simp] theorem State.haltWith_trace (c : Cause) (w : Option RawInsn) : (s.haltWith c w).trace = s.trace := rfl
@[simp] theorem State.haltWith_stage (c : Cause) (w : Option RawInsn) : (s.haltWith c w).stage = Stage.idle := rfl

@[simp] theorem State.raise_cfg (c : Cause) : (s.raise c).cfg = s.cfg := rfl
@[simp] theorem State.raise_regs (c : Cause) : (s.raise c).regs = s.regs := rfl
@[simp] theorem State.raise_pc (c : Cause) : (s.raise c).pc = s.pc := rfl
@[simp] theorem State.raise_mem (c : Cause) : (s.raise c).mem = s.mem := rfl
@[simp] theorem State.raise_order (c : Cause) : (s.raise c).order = s.order := rfl
@[simp] theorem State.raise_halt (c : Cause) : (s.raise c).halt = .halted c s.pc s.stage.fetched := rfl
@[simp] theorem State.raise_trace (c : Cause) : (s.raise c).trace = s.trace := rfl
@[simp] theorem State.raise_stage (c : Cause) : (s.raise c).stage = Stage.idle := rfl

@[simp] theorem State.retire_cfg (size : InsnSize) : (s.retire size).cfg = s.cfg := rfl
@[simp] theorem State.retire_regs (size : InsnSize) : (s.retire size).regs = commitLog s.regs s.stage.log := rfl
@[simp] theorem State.retire_pc (size : InsnSize) : (s.retire size).pc = s.nextPc size := rfl
@[simp] theorem State.retire_mem (size : InsnSize) : (s.retire size).mem = s.mem := rfl
@[simp] theorem State.retire_order (size : InsnSize) : (s.retire size).order = s.order + 1 := rfl
@[simp] theorem State.retire_halt (size : InsnSize) : (s.retire size).halt = s.halt := rfl
@[simp] theorem State.retire_stage (size : InsnSize) : (s.retire size).stage = Stage.idle := rfl
@[simp] theorem State.retire_trace (size : InsnSize) : (s.retire size).trace = s.trace ++ [s.emission (s.nextPc size)] := rfl

@[simp] theorem State.beginStep_cfg (raw : RawInsn) : (s.beginStep raw).cfg = s.cfg := rfl
@[simp] theorem State.beginStep_regs (raw : RawInsn) : (s.beginStep raw).regs = s.regs := rfl
@[simp] theorem State.beginStep_pc (raw : RawInsn) : (s.beginStep raw).pc = s.pc := rfl
@[simp] theorem State.beginStep_mem (raw : RawInsn) : (s.beginStep raw).mem = s.mem := rfl
@[simp] theorem State.beginStep_order (raw : RawInsn) : (s.beginStep raw).order = s.order := rfl
@[simp] theorem State.beginStep_halt (raw : RawInsn) : (s.beginStep raw).halt = s.halt := rfl
@[simp] theorem State.beginStep_trace (raw : RawInsn) : (s.beginStep raw).trace = s.trace := rfl
@[simp] theorem State.beginStep_fetched (raw : RawInsn) : (s.beginStep raw).stage.fetched = some raw := rfl
@[simp] theorem State.beginStep_log (raw : RawInsn) : (s.beginStep raw).stage.log = [] := rfl
@[simp] theorem State.beginStep_rs1 (raw : RawInsn) : (s.beginStep raw).stage.rs1 = none := rfl
@[simp] theorem State.beginStep_rs2 (raw : RawInsn) : (s.beginStep raw).stage.rs2 = none := rfl
@[simp] theorem State.beginStep_memEvent (raw : RawInsn) : (s.beginStep raw).stage.memEvent = none := rfl
@[simp] theorem State.beginStep_target (raw : RawInsn) : (s.beginStep raw).stage.target = none := rfl

/-! A register read looks only at the configuration and the array, which no operation within a step changes. -/

@[simp] theorem State.captureRs1_x (q : RegIdx) (r : RegIdx) : (s.captureRs1 q).x r = s.x r := rfl
@[simp] theorem State.captureRs2_x (q : RegIdx) (r : RegIdx) : (s.captureRs2 q).x r = s.x r := rfl
@[simp] theorem State.recordMem_x (k : MemKind) (g : Granularity) (a d : Word) (r : RegIdx) : (s.recordMem k g a d).x r = s.x r := rfl
@[simp] theorem State.setTarget_x (t : Word) (r : RegIdx) : (s.setTarget t).x r = s.x r := rfl
@[simp] theorem State.haltWith_x (c : Cause) (w : Option RawInsn) (r : RegIdx) : (s.haltWith c w).x r = s.x r := rfl
@[simp] theorem State.raise_x (c : Cause) (r : RegIdx) : (s.raise c).x r = s.x r := rfl
@[simp] theorem State.beginStep_x (raw : RawInsn) (r : RegIdx) : (s.beginStep raw).x r = s.x r := rfl
@[simp] theorem State.writeReg_x (q : RegIdx) (v : Word) (r : RegIdx) : (s.writeReg q v).x r = s.x r := by
  unfold State.writeReg; split <;> rfl

end Sys2Proof.Machine
end

