-- ==== Sys2Proof/Laws/Ops.lean ====
section
/-! SUPPORT. One lemma per shared operation: all it can do. The meanings of single instructions follow from these by citing
them at the instruction's own operands. -/

namespace Sys2Proof.Machine

open Sys2Proof

variable (s : State)

/-! ### The register file -/

@[simp] theorem State.x_zero : s.x 0#5 = 0#64 := rfl

@[simp] theorem State.wrap_x (r : RegIdx) : s.xlen.wrap (s.x r) = s.x r := by
  unfold State.x; split <;> simp

/-- A write to x0 does nothing (10_state.md R27). -/
@[simp] theorem State.writeReg_zero (v : Word) : s.writeReg 0#5 v = s := rfl

theorem State.x_congr {t : State} (hc : t.cfg = s.cfg) (hr : t.regs = s.regs) (r : RegIdx) : t.x r = s.x r := by
  unfold State.x; rw [hr, State.xlen, hc]

/-- What the register file reads after the commit of at most one record (10_state.md R31). -/
theorem State.x_retire (u : State) (size : InsnSize) (rd : RegIdx) (v : Word)
    (hl : u.stage.log = if rd = 0#5 then [] else [⟨rd, v⟩]) (r : RegIdx) :
    (u.retire size).x r = if r = 0#5 then 0#64 else if r = rd then u.xlen.wrap v else u.x r := by
  by_cases h0 : r = 0#5
  · simp [State.x, h0]
  · have hx : (u.retire size).x r = u.xlen.wrap (commitLog u.regs u.stage.log)[r.toNat] := by
      simp [State.x, h0, State.xlen]
    rw [hx, hl]
    by_cases hd : rd = 0#5
    · subst hd; simp [commitLog, State.x, h0]
    · by_cases hr : r = rd
      · subst hr; simp [commitLog, applyWrite, hd]
      · have hn : rd.toNat ≠ r.toNat := fun h => hr (BitVec.eq_of_toNat_eq h.symm)
        simp [commitLog, applyWrite, hd, hr, h0, State.x, hn]

/-- A retired step that wrote one register at most, from any state that differs from the one execute began in only
within the step and in memory. -/
theorem State.writeReg_retire (u : State) (size : InsnSize) (rd : RegIdx) (v : Word) (hc : u.cfg = s.cfg)
    (hr : u.regs = s.regs) (hp : u.pc = s.pc) (ho : u.order = s.order) (hh : u.halt = s.halt) (ht : u.trace = s.trace)
    (hl : u.stage.log = []) :
    s.RetiresTo ((u.writeReg rd v).retire size) (u.nextPc size) rd (s.xlen.wrap v) u.stage.memEvent := by
  have hx : u.xlen = s.xlen := by rw [State.xlen, hc]
  have hlog : (u.writeReg rd v).stage.log = if rd = 0#5 then [] else [⟨rd, s.xlen.wrap v⟩] := by simp [hl, hx]
  have hn : (u.writeReg rd v).nextPc size = u.nextPc size := by simp [State.nextPc, State.xlen]
  refine ⟨fun r => ?_, by simp [hn], by simp [ho], by simp [hc], by simp [hh], rfl,
    ⟨(u.writeReg rd v).rvfiRecord (u.nextPc size), ?_⟩⟩
  · rw [State.x_retire _ size rd _ hlog, State.writeReg_x, State.x_congr s hc hr]
    simp [State.xlen, hc]
  · simp only [State.retire_trace, State.writeReg_trace, ht, hn, State.emission, State.traceRecord, hlog,
      State.writeReg_memEvent, State.writeReg_pc, hp]

/-- The same without a register write. -/
theorem State.retire_noWrite (u : State) (size : InsnSize) (hc : u.cfg = s.cfg)
    (hr : u.regs = s.regs) (hp : u.pc = s.pc) (ho : u.order = s.order) (hh : u.halt = s.halt) (ht : u.trace = s.trace)
    (hl : u.stage.log = []) : s.RetiresTo (u.retire size) (u.nextPc size) 0#5 0#64 u.stage.memEvent := by
  simpa using s.writeReg_retire u size 0#5 0#64 hc hr hp ho hh ht hl

/-! ### A state as execute finds it -/

theorem State.beginStep_ready (raw : RawInsn) : (s.beginStep raw).Ready := rfl

variable {s}

theorem State.Ready.log (h : s.Ready) : s.stage.log = [] := by rw [h]; rfl
theorem State.Ready.memEvent (h : s.Ready) : s.stage.memEvent = none := by rw [h]; rfl
theorem State.Ready.target (h : s.Ready) : s.stage.target = none := by rw [h]; rfl
theorem State.Ready.rs1 (h : s.Ready) : s.stage.rs1 = none := by rw [h]; rfl
theorem State.Ready.rs2 (h : s.Ready) : s.stage.rs2 = none := by rw [h]; rfl

variable (s)

theorem State.linkValue_eq (size : InsnSize) : s.linkValue size = s.seqPc size := by
  cases size <;> exact XLen.wrap_add_unsigned s.xlen _ _

theorem State.nextPc_seq (u : State) (size : InsnSize) (hc : u.cfg = s.cfg) (hp : u.pc = s.pc)
    (ht : u.stage.target = none) : u.nextPc size = s.seqPc size := by
  rw [← State.linkValue_eq]; simp [State.nextPc, State.linkValue, ht, hp, State.xlen, hc]

theorem State.nextPc_target (u : State) (size : InsnSize) (t : Word) (ht : u.stage.target = some t) :
    u.nextPc size = t := by simp [State.nextPc, ht]

theorem State.wrap_linkValue (size : InsnSize) : s.xlen.wrap (s.linkValue size) = s.seqPc size := by
  rw [State.linkValue_eq]; exact XLen.wrap_ofInt ..

/-! ### The shapes of execution -/

theorem State.writeUpper_next (h : s.Ready) (size : InsnSize) (rd : RegIdx) (v : Word) :
    ∃ t, s.writeUpper size rd v = .next t ∧ s.WritesReg t size rd (s.xlen.wrap v) := by
  refine ⟨_, rfl, ?_, by simp⟩
  have hr := s.writeReg_retire s size rd v rfl rfl rfl rfl rfl rfl h.log
  rwa [s.nextPc_seq s size rfl rfl h.target, h.memEvent] at hr

theorem State.opImm_next (h : s.Ready) (size : InsnSize) (f : Word → Word) (rd rs1 : RegIdx) :
    ∃ t, s.opImm size f rd rs1 = .next t ∧ s.WritesReg t size rd (s.xlen.wrap (f (s.x rs1))) := by
  refine ⟨_, rfl, ?_, by simp⟩
  have hr := s.writeReg_retire (s.captureRs1 rs1) size rd (f (s.x rs1)) rfl rfl rfl rfl rfl rfl h.log
  rwa [s.nextPc_seq (s.captureRs1 rs1) size rfl rfl h.target, State.captureRs1_memEvent, h.memEvent] at hr

theorem State.opReg_next (h : s.Ready) (size : InsnSize) (f : Word → Word → Word) (rd rs1 rs2 : RegIdx) :
    ∃ t, s.opReg size f rd rs1 rs2 = .next t ∧ s.WritesReg t size rd (s.xlen.wrap (f (s.x rs1) (s.x rs2))) := by
  refine ⟨_, rfl, ?_, by simp⟩
  have hr := s.writeReg_retire ((s.captureRs1 rs1).captureRs2 rs2) size rd (f (s.x rs1) (s.x rs2)) rfl rfl rfl rfl rfl
    rfl h.log
  rwa [s.nextPc_seq ((s.captureRs1 rs1).captureRs2 rs2) size rfl rfl h.target, State.captureRs2_memEvent, State.captureRs1_memEvent, h.memEvent] at hr

variable {s}

/-- An instruction that is one `opImm` completes with the value its function gives, at XLEN bits. -/
theorem State.Ready.opImm (h : s.Ready) {size : InsnSize} {f : Word → Word} {rd rs1 : RegIdx} {v : Word} {r : Result}
    (e : r = s.opImm size f rd rs1) (hv : s.xlen.wrap (f (s.x rs1)) = v) :
    ∃ t, r = .next t ∧ s.WritesReg t size rd v := by subst e hv; exact s.opImm_next h ..

theorem State.Ready.opReg (h : s.Ready) {size : InsnSize} {f : Word → Word → Word} {rd rs1 rs2 : RegIdx} {v : Word}
    {r : Result} (e : r = s.opReg size f rd rs1 rs2) (hv : s.xlen.wrap (f (s.x rs1) (s.x rs2)) = v) :
    ∃ t, r = .next t ∧ s.WritesReg t size rd v := by subst e hv; exact s.opReg_next h ..

theorem State.Ready.writeUpper (h : s.Ready) {size : InsnSize} {rd : RegIdx} {w v : Word} {r : Result}
    (e : r = s.writeUpper size rd w) (hv : s.xlen.wrap w = v) :
    ∃ t, r = .next t ∧ s.WritesReg t size rd v := by subst e hv; exact s.writeUpper_next h ..

variable (s)

theorem State.noEffect_next (h : s.Ready) (size : InsnSize) :
    ∃ t, s.noEffect size = .next t ∧ s.WritesReg t size 0#5 0#64 := by
  refine ⟨_, rfl, ?_, by simp⟩
  have hr := s.retire_noWrite s size rfl rfl rfl rfl rfl rfl h.log
  rwa [s.nextPc_seq s size rfl rfl h.target, h.memEvent] at hr

/-- A system stub: the no-op, or UnsupportedOperation (43_system.md R171, R172). -/
theorem State.systemStub_next (h : s.Ready) (size : InsnSize) (hs : s.cfg.strictSystem = false) :
    ∃ t, s.systemStub size = .next t ∧ s.WritesReg t size 0#5 0#64 := by
  simpa [State.systemStub, hs] using s.noEffect_next h size

theorem State.systemStub_halts (size : InsnSize) (hs : s.cfg.strictSystem = true) :
    ∃ t, s.systemStub size = .next t ∧ s.HaltsAt t .unsupportedOperation :=
  ⟨_, by simp only [State.systemStub, hs, if_true, State.finish]; rfl, rfl⟩

/-! ### Control transfers -/

theorem State.targetAligned_iff (t : Word) : s.targetAligned t = true ↔ t.toNat % s.cfg.ialignBytes = 0 := by
  simp [State.targetAligned]

theorem State.pcRelative_eq (i : Int) : s.pcRelative (s.xlen.ofInt i) = s.xlen.ofInt (s.pc.toNat + i) :=
  XLen.wrap_add_ofInt_unsigned ..

theorem State.jumpPc_next (h : s.Ready) (size : InsnSize) (rd : RegIdx) (offset : Word)
    (ha : (s.pcRelative offset).toNat % s.cfg.ialignBytes = 0) :
    ∃ t, s.jumpPc size rd offset = .next t ∧ s.RetiresTo t (s.pcRelative offset) rd (s.seqPc size) none ∧ t.mem = s.mem := by
  have ha' := (s.targetAligned_iff _).2 ha
  refine ⟨_, by simp only [State.jumpPc, State.jumpLink, State.transfer, ha', if_true, Except.map, State.finish]; rfl, ?_,
    by simp⟩
  have hr := s.writeReg_retire (s.setTarget (s.pcRelative offset)) size rd (s.linkValue size) rfl rfl rfl rfl rfl rfl h.log
  rwa [State.nextPc_target _ size _ rfl, State.setTarget_memEvent, h.memEvent, s.wrap_linkValue] at hr

theorem State.jumpPc_halts (size : InsnSize) (rd : RegIdx) (offset : Word)
    (ha : (s.pcRelative offset).toNat % s.cfg.ialignBytes ≠ 0) :
    ∃ t, s.jumpPc size rd offset = .next t ∧ s.HaltsAt t (.misalignedTarget (s.pcRelative offset)) := by
  have ha' : s.targetAligned (s.pcRelative offset) = false := by simpa [State.targetAligned] using ha
  exact ⟨_, by simp only [State.jumpPc, State.jumpLink, State.transfer, ha']; rfl, rfl⟩

theorem State.jumpReg_next (h : s.Ready) (size : InsnSize) (rd rs1 : RegIdx) (offset : Word)
    (ha : (s.jalrTarget rs1 offset).toNat % s.cfg.ialignBytes = 0) :
    ∃ t, s.jumpReg size rd rs1 offset = .next t ∧ s.RetiresTo t (s.jalrTarget rs1 offset) rd (s.seqPc size) none ∧
      t.mem = s.mem := by
  have ha' : (s.captureRs1 rs1).targetAligned (s.jalrTarget rs1 offset) = true := (s.targetAligned_iff _).2 ha
  refine ⟨_, by simp only [State.jumpReg, State.jumpLink, State.transfer, ha', if_true, Except.map, State.finish]; rfl, ?_,
    by simp⟩
  have hr := s.writeReg_retire ((s.captureRs1 rs1).setTarget (s.jalrTarget rs1 offset)) size rd (s.linkValue size)
    rfl rfl rfl rfl rfl rfl h.log
  rwa [State.nextPc_target _ size _ rfl, State.setTarget_memEvent, State.captureRs1_memEvent, h.memEvent,
    s.wrap_linkValue] at hr

theorem State.jumpReg_halts (size : InsnSize) (rd rs1 : RegIdx) (offset : Word)
    (ha : (s.jalrTarget rs1 offset).toNat % s.cfg.ialignBytes ≠ 0) :
    ∃ t, s.jumpReg size rd rs1 offset = .next t ∧ s.HaltsAt t (.misalignedTarget (s.jalrTarget rs1 offset)) := by
  have ha' : (s.captureRs1 rs1).targetAligned (s.jalrTarget rs1 offset) = false := by
    simpa [State.targetAligned] using ha
  exact ⟨_, by simp only [State.jumpReg, State.jumpLink, State.transfer, ha']; rfl, rfl⟩

theorem State.branch_notTaken (h : s.Ready) (size : InsnSize) (cond : Word → Word → Bool) (rs1 rs2 : RegIdx)
    (offset : Word) (hc : cond (s.x rs1) (s.x rs2) = false) :
    ∃ t, s.branch size cond rs1 rs2 offset = .next t ∧ s.WritesReg t size 0#5 0#64 := by
  refine ⟨_, by simp only [State.branch, hc]; rfl, ?_, by simp⟩
  have hr := s.retire_noWrite ((s.captureRs1 rs1).captureRs2 rs2) size rfl rfl rfl rfl rfl rfl h.log
  rwa [s.nextPc_seq ((s.captureRs1 rs1).captureRs2 rs2) size rfl rfl h.target, State.captureRs2_memEvent, State.captureRs1_memEvent, h.memEvent] at hr

theorem State.branch_taken (h : s.Ready) (size : InsnSize) (cond : Word → Word → Bool) (rs1 rs2 : RegIdx)
    (offset : Word) (hc : cond (s.x rs1) (s.x rs2) = true)
    (ha : (s.pcRelative offset).toNat % s.cfg.ialignBytes = 0) :
    ∃ t, s.branch size cond rs1 rs2 offset = .next t ∧ s.RetiresTo t (s.pcRelative offset) 0#5 0#64 none ∧ t.mem = s.mem := by
  have ha' : ((s.captureRs1 rs1).captureRs2 rs2).targetAligned (s.pcRelative offset) = true := (s.targetAligned_iff _).2 ha
  refine ⟨_, by simp only [State.branch, hc, State.transfer, ha', if_true, State.finish]; rfl, ?_, by simp⟩
  have hr := s.retire_noWrite (((s.captureRs1 rs1).captureRs2 rs2).setTarget (s.pcRelative offset)) size
    rfl rfl rfl rfl rfl rfl h.log
  rwa [State.nextPc_target _ size _ rfl, State.setTarget_memEvent, State.captureRs2_memEvent, State.captureRs1_memEvent,
    h.memEvent] at hr

theorem State.branch_halts (size : InsnSize) (cond : Word → Word → Bool) (rs1 rs2 : RegIdx) (offset : Word)
    (hc : cond (s.x rs1) (s.x rs2) = true) (ha : (s.pcRelative offset).toNat % s.cfg.ialignBytes ≠ 0) :
    ∃ t, s.branch size cond rs1 rs2 offset = .next t ∧ s.HaltsAt t (.misalignedTarget (s.pcRelative offset)) := by
  have ha' : ((s.captureRs1 rs1).captureRs2 rs2).targetAligned (s.pcRelative offset) = false := by
    simpa [State.targetAligned] using ha
  exact ⟨_, by simp only [State.branch, hc, State.transfer, ha', if_true]; rfl, rfl⟩

/-! ### Loads and stores -/

theorem State.effectiveAddress_eq (base : RegIdx) (i : Int) :
    s.effectiveAddress base (s.xlen.ofInt i) = s.xlen.ofInt ((s.x base).toNat + i) :=
  XLen.wrap_add_ofInt_unsigned ..

theorem State.accessCheck_none (k : AccessKind) (a : Word) (g : Granularity) :
    s.accessCheck k a g = none ↔ s.Accessible a g.bytes := by
  unfold State.accessCheck State.Accessible
  cases hm : s.cfg.misalignedData <;> by_cases hz : a.toNat % g.bytes = 0 <;>
    cases ha : s.cfg.memAdmits a g.bytes <;> simp [hz]

/-- The checks come in their order: alignment, then admission (20_memory.md R51, R52). -/
theorem State.accessCheck_misaligned (k : AccessKind) (a : Word) (g : Granularity) (hm : s.cfg.misalignedData = .fault)
    (hz : a.toNat % g.bytes ≠ 0) : s.accessCheck k a g = some (.misalignedAccess a) := by
  simp [State.accessCheck, hm, hz]

theorem State.accessCheck_refused (k : AccessKind) (a : Word) (g : Granularity)
    (hm : s.cfg.misalignedData = .split ∨ a.toNat % g.bytes = 0) (ha : s.cfg.memAdmits a g.bytes = false) :
    s.accessCheck k a g = some (.accessFault k a) := by
  rcases hm with hm | hm <;> simp [State.accessCheck, hm, ha]

/-- `value` is the little-endian number of its bytes. -/
theorem State.value_eq_bytesAt (a : Word) (n : Nat) : s.mem.value s.xlen a.toNat n = s.bytesAt a n := by
  have key : ∀ (n : Nat) (a : Nat), s.mem.value s.xlen a n =
      ((List.range n).map (fun k => (s.mem.read ((a + k) % 2 ^ s.xlen.bits)).toNat * 256 ^ k)).sum := by
    intro n
    induction n with
    | zero => intro a; rfl
    | succ n ih =>
      intro a
      rw [Memory.value, ih, List.range_succ_eq_map, List.map_cons, List.sum_cons, List.map_map, ← List.sum_map_mul_left]
      congr 1
      · simp
      · congr 1
        apply List.map_congr_left
        intro k _
        simp only [Function.comp, Nat.succ_eq_add_one, pow_succ]
        rw [show a + (k + 1) = a + 1 + k by omega]; ring
  exact key n a.toNat

theorem State.bytesAt_lt (a : Word) (n : Nat) : s.bytesAt a n < 256 ^ n := by
  rw [← s.value_eq_bytesAt]; exact Memory.value_lt ..

theorem State.toNat_load (a : Word) (g : Granularity) :
    (s.mem.load s.xlen a g.bytes).toNat = s.bytesAt a g.bytes := by
  have h := s.bytesAt_lt a g.bytes
  have h8 : (256 : Nat) ^ g.bytes ≤ 2 ^ 64 := by cases g <;> decide
  rw [Memory.load, State.value_eq_bytesAt, BitVec.toNat_ofNat, Nat.mod_eq_of_lt (lt_of_lt_of_le h h8)]

/-- What a load writes, as an integer, from the n bytes read as the number `b` (20_memory.md R56). -/
def loadResult (e : LoadExt) (n b : Nat) : Int :=
  match e with
  | .sign => sextInt (8 * n) b
  | .zero => b

theorem loadExtend_eq (x : XLen) (g : Granularity) (e : LoadExt) (v : Word) (hv : v.toNat < 256 ^ g.bytes) :
    loadExtend x g e v = x.ofInt (loadResult e g.bytes v.toNat) := by
  have hmod : ∀ n, v.toNat < 2 ^ n → (v.setWidth n).toNat = v.toNat := fun n h => by
    rw [BitVec.toNat_setWidth, Nat.mod_eq_of_lt h]
  cases e <;> cases g <;> simp only [Granularity.bytes] at hv <;> simp only [loadExtend, loadResult, Granularity.bytes] <;>
    first
    | rw [XLen.sext_eq x (by norm_num), toInt_eq_sextInt (by norm_num), hmod _ (lt_of_lt_of_le hv (by norm_num))]
    | rw [XLen.zext_eq x (by norm_num), hmod _ (lt_of_lt_of_le hv (by norm_num))]

theorem State.loadInto_next (h : s.Ready) (size : InsnSize) (g : Granularity) (e : LoadExt) (rd rs1 : RegIdx)
    (disp : Word) (ha : s.Accessible (s.effectiveAddress rs1 disp) g.bytes) :
    ∃ t, s.loadInto size g e rd rs1 disp = .next t ∧
      s.RetiresTo t (s.seqPc size) rd
        (s.xlen.ofInt (loadResult e g.bytes (s.bytesAt (s.effectiveAddress rs1 disp) g.bytes)))
        (some ⟨.load, g, s.effectiveAddress rs1 disp,
          BitVec.ofNat 64 (s.bytesAt (s.effectiveAddress rs1 disp) g.bytes)⟩) ∧
      t.mem = s.mem := by
  have hc : (s.captureRs1 rs1).accessCheck .load (s.effectiveAddress rs1 disp) g = none :=
    (s.accessCheck_none _ _ g).2 ha
  set ea := s.effectiveAddress rs1 disp with hea
  have hld : s.mem.load s.xlen ea g.bytes = BitVec.ofNat 64 (s.bytesAt ea g.bytes) := by
    rw [Memory.load, State.value_eq_bytesAt]
  refine ⟨_, by
    simp only [State.loadInto, State.memRead, ← hea, hc, State.finish]; rfl, ?_, by simp⟩
  have hr := s.writeReg_retire ((s.captureRs1 rs1).recordMem .load g ea (s.mem.load s.xlen ea g.bytes)) size rd
    (loadExtend s.xlen g e (s.mem.load s.xlen ea g.bytes)) rfl rfl rfl rfl rfl rfl h.log
  have hv := congrArg s.xlen.wrap
    (loadExtend_eq s.xlen g e (s.mem.load s.xlen ea g.bytes) (by rw [s.toNat_load]; exact s.bytesAt_lt _ _))
  rw [s.toNat_load, XLen.wrap_ofInt] at hv
  rw [s.nextPc_seq ((s.captureRs1 rs1).recordMem .load g ea (s.mem.load s.xlen ea g.bytes)) size rfl rfl h.target,
    State.recordMem_memEvent, hv] at hr
  rw [← hld]
  exact hr

theorem State.loadInto_halts (size : InsnSize) (g : Granularity) (e : LoadExt) (rd rs1 : RegIdx) (disp : Word) (c : Cause)
    (hc : s.accessCheck .load (s.effectiveAddress rs1 disp) g = some c) :
    ∃ t, s.loadInto size g e rd rs1 disp = .next t ∧ s.HaltsAt t c := by
  have hc' : (s.captureRs1 rs1).accessCheck .load (s.effectiveAddress rs1 disp) g = some c := hc
  exact ⟨_, by simp only [State.loadInto, State.memRead, hc']; rfl, rfl⟩

/-- The value a store moves, as a number (42_load_store.md §3). -/
theorem toNat_storeData (g : Granularity) (v : Word) : (storeData g v).toNat = v.toNat % 256 ^ g.bytes := by
  cases g <;> simp only [storeData, Granularity.bytes, BitVec.toNat_setWidth] <;> omega

theorem State.storeFrom_next (h : s.Ready) (size : InsnSize) (g : Granularity) (rs1 rs2 : RegIdx) (disp : Word)
    (ha : s.Accessible (s.effectiveAddress rs1 disp) g.bytes) :
    ∃ t, s.storeFrom size g rs1 rs2 disp = .next t ∧
      s.RetiresTo t (s.seqPc size) 0#5 0#64
        (some ⟨.store, g, s.effectiveAddress rs1 disp, BitVec.ofNat 64 ((s.x rs2).toNat % 256 ^ g.bytes)⟩) ∧
      t.mem = s.mem.store s.xlen (s.effectiveAddress rs1 disp) g.bytes (storeData g (s.x rs2)) := by
  have hc : ((s.captureRs1 rs1).captureRs2 rs2).accessCheck .store (s.effectiveAddress rs1 disp) g = none :=
    (s.accessCheck_none _ _ g).2 ha
  set ea := s.effectiveAddress rs1 disp with hea
  have hd : storeData g (s.x rs2) = BitVec.ofNat 64 ((s.x rs2).toNat % 256 ^ g.bytes) := by
    apply BitVec.eq_of_toNat_eq
    rw [← toNat_storeData, BitVec.toNat_ofNat, Nat.mod_eq_of_lt (BitVec.isLt _)]
  refine ⟨_, by
    simp only [State.storeFrom, State.memWrite, ← hea, hc, State.finish]; rfl, ?_, rfl⟩
  let u := State.recordMem { (s.captureRs1 rs1).captureRs2 rs2 with
    mem := s.mem.store s.xlen ea g.bytes (storeData g (s.x rs2)) } .store g ea (storeData g (s.x rs2))
  have hr := s.retire_noWrite u size rfl rfl rfl rfl rfl rfl h.log
  rw [s.nextPc_seq u size rfl rfl h.target, State.recordMem_memEvent] at hr
  rw [← hd]
  exact hr

theorem State.storeFrom_halts (size : InsnSize) (g : Granularity) (rs1 rs2 : RegIdx) (disp : Word) (c : Cause)
    (hc : s.accessCheck .store (s.effectiveAddress rs1 disp) g = some c) :
    ∃ t, s.storeFrom size g rs1 rs2 disp = .next t ∧ s.HaltsAt t c := by
  have hc' : ((s.captureRs1 rs1).captureRs2 rs2).accessCheck .store (s.effectiveAddress rs1 disp) g = some c := hc
  exact ⟨_, by simp only [State.storeFrom, State.memWrite, hc']; rfl, rfl⟩

/-- Byte k of what a store leaves (20_memory.md R50). -/
theorem State.read_store_inside (g : Granularity) (ea v : Word) (k : Nat) (hk : k < g.bytes) :
    (s.mem.store s.xlen ea g.bytes (storeData g v)).read ((ea.toNat + k) % 2 ^ s.xlen.bits) =
      BitVec.ofNat 8 (v.toNat / 256 ^ k) := by
  rw [Memory.store, Memory.read_storeFrom_inside _ _ ((Granularity.bytes_le g).trans (eight_le_pow_bits _)) _ _ _ k hk]
  apply BitVec.eq_of_toNat_eq
  rw [BitVec.toNat_setWidth, BitVec.toNat_ushiftRight, toNat_storeData, BitVec.toNat_ofNat, Nat.shiftRight_eq_div_pow]
  have h256 : ∀ j, (2 : Nat) ^ (8 * j) = 256 ^ j := fun j => by rw [Nat.pow_mul]
  obtain ⟨m, hm⟩ : ∃ m, g.bytes = k + 1 + m := ⟨g.bytes - (k + 1), by omega⟩
  rw [h256, show (2 : Nat) ^ 8 = 256 by norm_num, hm, show k + 1 + m = k + (1 + m) by omega, pow_add,
    Nat.mod_mul_right_div_self, pow_add, pow_one, Nat.mod_mul_right_mod]

end Sys2Proof.Machine
end

