-- ==== Sys2Proof/Laws/Exec.lean ====
section
/-! SUPPORT. What exec of each constructor is, as one application of a shared operation: the equations through which a proof
about an instruction reaches the lemma of its shape (Laws/Ops.lean). -/

namespace Sys2Proof.Machine

variable (s : State)

theorem exec_lui (rd : RegIdx) (imm20 : BitVec 20) : exec (.lui rd imm20) s =
    s.writeUpper .four rd (upperOperand s.xlen imm20) := rfl
theorem exec_auipc (rd : RegIdx) (imm20 : BitVec 20) : exec (.auipc rd imm20) s =
    s.writeUpper .four rd (s.pcRelative (upperOperand s.xlen imm20)) := rfl
theorem exec_jal (rd : RegIdx) (imm : BitVec 21) : exec (.jal rd imm) s =
    s.jumpPc .four rd (signedOperand s.xlen imm) := rfl
theorem exec_jalr (rd rs1 : RegIdx) (imm : BitVec 12) : exec (.jalr rd rs1 imm) s =
    s.jumpReg .four rd rs1 (signedOperand s.xlen imm) := rfl
theorem exec_beq (rs1 rs2 : RegIdx) (imm : BitVec 13) : exec (.beq rs1 rs2 imm) s =
    s.branch .four (condEq s.xlen) rs1 rs2 (signedOperand s.xlen imm) := rfl
theorem exec_bne (rs1 rs2 : RegIdx) (imm : BitVec 13) : exec (.bne rs1 rs2 imm) s =
    s.branch .four (condNe s.xlen) rs1 rs2 (signedOperand s.xlen imm) := rfl
theorem exec_blt (rs1 rs2 : RegIdx) (imm : BitVec 13) : exec (.blt rs1 rs2 imm) s =
    s.branch .four (condLt s.xlen) rs1 rs2 (signedOperand s.xlen imm) := rfl
theorem exec_bge (rs1 rs2 : RegIdx) (imm : BitVec 13) : exec (.bge rs1 rs2 imm) s =
    s.branch .four (condGe s.xlen) rs1 rs2 (signedOperand s.xlen imm) := rfl
theorem exec_bltu (rs1 rs2 : RegIdx) (imm : BitVec 13) : exec (.bltu rs1 rs2 imm) s =
    s.branch .four (condLtu s.xlen) rs1 rs2 (signedOperand s.xlen imm) := rfl
theorem exec_bgeu (rs1 rs2 : RegIdx) (imm : BitVec 13) : exec (.bgeu rs1 rs2 imm) s =
    s.branch .four (condGeu s.xlen) rs1 rs2 (signedOperand s.xlen imm) := rfl
theorem exec_lb (rd rs1 : RegIdx) (imm : BitVec 12) : exec (.lb rd rs1 imm) s =
    s.loadInto .four .byte .sign rd rs1 (signedOperand s.xlen imm) := rfl
theorem exec_lh (rd rs1 : RegIdx) (imm : BitVec 12) : exec (.lh rd rs1 imm) s =
    s.loadInto .four .half .sign rd rs1 (signedOperand s.xlen imm) := rfl
theorem exec_lw (rd rs1 : RegIdx) (imm : BitVec 12) : exec (.lw rd rs1 imm) s =
    s.loadInto .four .word .sign rd rs1 (signedOperand s.xlen imm) := rfl
theorem exec_ld (rd rs1 : RegIdx) (imm : BitVec 12) : exec (.ld rd rs1 imm) s =
    s.loadInto .four .double .zero rd rs1 (signedOperand s.xlen imm) := rfl
theorem exec_lbu (rd rs1 : RegIdx) (imm : BitVec 12) : exec (.lbu rd rs1 imm) s =
    s.loadInto .four .byte .zero rd rs1 (signedOperand s.xlen imm) := rfl
theorem exec_lhu (rd rs1 : RegIdx) (imm : BitVec 12) : exec (.lhu rd rs1 imm) s =
    s.loadInto .four .half .zero rd rs1 (signedOperand s.xlen imm) := rfl
theorem exec_lwu (rd rs1 : RegIdx) (imm : BitVec 12) : exec (.lwu rd rs1 imm) s =
    s.loadInto .four .word .zero rd rs1 (signedOperand s.xlen imm) := rfl
theorem exec_sb (rs1 rs2 : RegIdx) (imm : BitVec 12) : exec (.sb rs1 rs2 imm) s =
    s.storeFrom .four .byte rs1 rs2 (signedOperand s.xlen imm) := rfl
theorem exec_sh (rs1 rs2 : RegIdx) (imm : BitVec 12) : exec (.sh rs1 rs2 imm) s =
    s.storeFrom .four .half rs1 rs2 (signedOperand s.xlen imm) := rfl
theorem exec_sw (rs1 rs2 : RegIdx) (imm : BitVec 12) : exec (.sw rs1 rs2 imm) s =
    s.storeFrom .four .word rs1 rs2 (signedOperand s.xlen imm) := rfl
theorem exec_sd (rs1 rs2 : RegIdx) (imm : BitVec 12) : exec (.sd rs1 rs2 imm) s =
    s.storeFrom .four .double rs1 rs2 (signedOperand s.xlen imm) := rfl
theorem exec_addi (rd rs1 : RegIdx) (imm : BitVec 12) : exec (.addi rd rs1 imm) s =
    s.opImm .four (fun a => a + signedOperand s.xlen imm) rd rs1 := rfl
theorem exec_slti (rd rs1 : RegIdx) (imm : BitVec 12) : exec (.slti rd rs1 imm) s =
    s.opImm .four (fun a => boolWord (condLt s.xlen a (signedOperand s.xlen imm))) rd rs1 := rfl
theorem exec_sltiu (rd rs1 : RegIdx) (imm : BitVec 12) : exec (.sltiu rd rs1 imm) s =
    s.opImm .four (fun a => boolWord (condLtu s.xlen a (signedOperand s.xlen imm))) rd rs1 := rfl
theorem exec_xori (rd rs1 : RegIdx) (imm : BitVec 12) : exec (.xori rd rs1 imm) s =
    s.opImm .four (fun a => a ^^^ signedOperand s.xlen imm) rd rs1 := rfl
theorem exec_ori (rd rs1 : RegIdx) (imm : BitVec 12) : exec (.ori rd rs1 imm) s =
    s.opImm .four (fun a => a ||| signedOperand s.xlen imm) rd rs1 := rfl
theorem exec_andi (rd rs1 : RegIdx) (imm : BitVec 12) : exec (.andi rd rs1 imm) s =
    s.opImm .four (fun a => a &&& signedOperand s.xlen imm) rd rs1 := rfl
theorem exec_slli32 (rd rs1 : RegIdx) (shamt : BitVec 5) : exec (.slli32 rd rs1 shamt) s =
    s.opImm .four (fun a => s.xlen.sll a shamt.toNat) rd rs1 := rfl
theorem exec_slli64 (rd rs1 : RegIdx) (shamt : BitVec 6) : exec (.slli64 rd rs1 shamt) s =
    s.opImm .four (fun a => s.xlen.sll a shamt.toNat) rd rs1 := rfl
theorem exec_srli32 (rd rs1 : RegIdx) (shamt : BitVec 5) : exec (.srli32 rd rs1 shamt) s =
    s.opImm .four (fun a => s.xlen.srl a shamt.toNat) rd rs1 := rfl
theorem exec_srli64 (rd rs1 : RegIdx) (shamt : BitVec 6) : exec (.srli64 rd rs1 shamt) s =
    s.opImm .four (fun a => s.xlen.srl a shamt.toNat) rd rs1 := rfl
theorem exec_srai32 (rd rs1 : RegIdx) (shamt : BitVec 5) : exec (.srai32 rd rs1 shamt) s =
    s.opImm .four (fun a => s.xlen.sra a shamt.toNat) rd rs1 := rfl
theorem exec_srai64 (rd rs1 : RegIdx) (shamt : BitVec 6) : exec (.srai64 rd rs1 shamt) s =
    s.opImm .four (fun a => s.xlen.sra a shamt.toNat) rd rs1 := rfl
theorem exec_add (rd rs1 rs2 : RegIdx) : exec (.add rd rs1 rs2) s =
    s.opReg .four (fun a b => a + b) rd rs1 rs2 := rfl
theorem exec_sub (rd rs1 rs2 : RegIdx) : exec (.sub rd rs1 rs2) s =
    s.opReg .four (fun a b => a - b) rd rs1 rs2 := rfl
theorem exec_sll (rd rs1 rs2 : RegIdx) : exec (.sll rd rs1 rs2) s =
    s.opReg .four (fun a b => s.xlen.sll a (s.xlen.shiftAmount b)) rd rs1 rs2 := rfl
theorem exec_slt (rd rs1 rs2 : RegIdx) : exec (.slt rd rs1 rs2) s =
    s.opReg .four (fun a b => boolWord (condLt s.xlen a b)) rd rs1 rs2 := rfl
theorem exec_sltu (rd rs1 rs2 : RegIdx) : exec (.sltu rd rs1 rs2) s =
    s.opReg .four (fun a b => boolWord (condLtu s.xlen a b)) rd rs1 rs2 := rfl
theorem exec_xor (rd rs1 rs2 : RegIdx) : exec (.xor rd rs1 rs2) s =
    s.opReg .four (fun a b => a ^^^ b) rd rs1 rs2 := rfl
theorem exec_srl (rd rs1 rs2 : RegIdx) : exec (.srl rd rs1 rs2) s =
    s.opReg .four (fun a b => s.xlen.srl a (s.xlen.shiftAmount b)) rd rs1 rs2 := rfl
theorem exec_sra (rd rs1 rs2 : RegIdx) : exec (.sra rd rs1 rs2) s =
    s.opReg .four (fun a b => s.xlen.sra a (s.xlen.shiftAmount b)) rd rs1 rs2 := rfl
theorem exec_or (rd rs1 rs2 : RegIdx) : exec (.or rd rs1 rs2) s =
    s.opReg .four (fun a b => a ||| b) rd rs1 rs2 := rfl
theorem exec_and (rd rs1 rs2 : RegIdx) : exec (.and rd rs1 rs2) s =
    s.opReg .four (fun a b => a &&& b) rd rs1 rs2 := rfl
theorem exec_fence (fm pred succ : BitVec 4) (rs1 rd : RegIdx) : exec (.fence fm pred succ rs1 rd) s =
    s.noEffect .four := rfl
theorem exec_ecall : exec (.ecall) s =
    s.systemStub .four := rfl
theorem exec_ebreak : exec (.ebreak) s =
    s.systemStub .four := rfl
theorem exec_csrrw (rd rs1 : RegIdx) (csr : BitVec 12) : exec (.csrrw rd rs1 csr) s =
    s.systemStub .four := rfl
theorem exec_csrrs (rd rs1 : RegIdx) (csr : BitVec 12) : exec (.csrrs rd rs1 csr) s =
    s.systemStub .four := rfl
theorem exec_csrrc (rd rs1 : RegIdx) (csr : BitVec 12) : exec (.csrrc rd rs1 csr) s =
    s.systemStub .four := rfl
theorem exec_csrrwi (rd : RegIdx) (uimm : BitVec 5) (csr : BitVec 12) : exec (.csrrwi rd uimm csr) s =
    s.systemStub .four := rfl
theorem exec_csrrsi (rd : RegIdx) (uimm : BitVec 5) (csr : BitVec 12) : exec (.csrrsi rd uimm csr) s =
    s.systemStub .four := rfl
theorem exec_csrrci (rd : RegIdx) (uimm : BitVec 5) (csr : BitVec 12) : exec (.csrrci rd uimm csr) s =
    s.systemStub .four := rfl
theorem exec_addiw (rd rs1 : RegIdx) (imm : BitVec 12) : exec (.addiw rd rs1 imm) s =
    s.opImm .four (fun a => wordResult s.xlen (low32 (a + signedOperand s.xlen imm))) rd rs1 := rfl
theorem exec_slliw (rd rs1 : RegIdx) (shamt : BitVec 5) : exec (.slliw rd rs1 shamt) s =
    s.opImm .four (fun a => wordResult s.xlen (low32 a <<< shamt.toNat)) rd rs1 := rfl
theorem exec_srliw (rd rs1 : RegIdx) (shamt : BitVec 5) : exec (.srliw rd rs1 shamt) s =
    s.opImm .four (fun a => wordResult s.xlen (low32 a >>> shamt.toNat)) rd rs1 := rfl
theorem exec_sraiw (rd rs1 : RegIdx) (shamt : BitVec 5) : exec (.sraiw rd rs1 shamt) s =
    s.opImm .four (fun a => wordResult s.xlen ((low32 a).sshiftRight shamt.toNat)) rd rs1 := rfl
theorem exec_addw (rd rs1 rs2 : RegIdx) : exec (.addw rd rs1 rs2) s =
    s.opReg .four (fun a b => wordResult s.xlen (low32 (a + b))) rd rs1 rs2 := rfl
theorem exec_subw (rd rs1 rs2 : RegIdx) : exec (.subw rd rs1 rs2) s =
    s.opReg .four (fun a b => wordResult s.xlen (low32 (a - b))) rd rs1 rs2 := rfl
theorem exec_sllw (rd rs1 rs2 : RegIdx) : exec (.sllw rd rs1 rs2) s =
    s.opReg .four (fun a b => wordResult s.xlen (low32 a <<< shiftAmountW b)) rd rs1 rs2 := rfl
theorem exec_srlw (rd rs1 rs2 : RegIdx) : exec (.srlw rd rs1 rs2) s =
    s.opReg .four (fun a b => wordResult s.xlen (low32 a >>> shiftAmountW b)) rd rs1 rs2 := rfl
theorem exec_sraw (rd rs1 rs2 : RegIdx) : exec (.sraw rd rs1 rs2) s =
    s.opReg .four (fun a b => wordResult s.xlen ((low32 a).sshiftRight (shiftAmountW b))) rd rs1 rs2 := rfl
theorem exec_cAddi4spn (rd : RegIdx) (nzuimm : BitVec 10) : exec (.cAddi4spn rd nzuimm) s =
    s.opImm .two (fun a => a + unsignedOperand s.xlen nzuimm) rd 2 := rfl
theorem exec_cLw (rd rs1 : RegIdx) (uimm : BitVec 7) : exec (.cLw rd rs1 uimm) s =
    s.loadInto .two .word .sign rd rs1 (unsignedOperand s.xlen uimm) := rfl
theorem exec_cLd (rd rs1 : RegIdx) (uimm : BitVec 8) : exec (.cLd rd rs1 uimm) s =
    s.loadInto .two .double .zero rd rs1 (unsignedOperand s.xlen uimm) := rfl
theorem exec_cSw (rs1 rs2 : RegIdx) (uimm : BitVec 7) : exec (.cSw rs1 rs2 uimm) s =
    s.storeFrom .two .word rs1 rs2 (unsignedOperand s.xlen uimm) := rfl
theorem exec_cSd (rs1 rs2 : RegIdx) (uimm : BitVec 8) : exec (.cSd rs1 rs2 uimm) s =
    s.storeFrom .two .double rs1 rs2 (unsignedOperand s.xlen uimm) := rfl
theorem exec_cNop (imm : BitVec 6) : exec (.cNop imm) s =
    s.opImm .two (fun a => a + signedOperand s.xlen imm) 0 0 := rfl
theorem exec_cAddi (rd : RegIdx) (imm : BitVec 6) : exec (.cAddi rd imm) s =
    s.opImm .two (fun a => a + signedOperand s.xlen imm) rd rd := rfl
theorem exec_cJal (imm : BitVec 12) : exec (.cJal imm) s =
    s.jumpPc .two 1 (signedOperand s.xlen imm) := rfl
theorem exec_cAddiw (rd : RegIdx) (imm : BitVec 6) : exec (.cAddiw rd imm) s =
    s.opImm .two (fun a => wordResult s.xlen (low32 (a + signedOperand s.xlen imm))) rd rd := rfl
theorem exec_cLi (rd : RegIdx) (imm : BitVec 6) : exec (.cLi rd imm) s =
    s.opImm .two (fun a => a + signedOperand s.xlen imm) rd 0 := rfl
theorem exec_cAddi16sp (nzimm : BitVec 10) : exec (.cAddi16sp nzimm) s =
    s.opImm .two (fun a => a + signedOperand s.xlen nzimm) 2 2 := rfl
theorem exec_cLui (rd : RegIdx) (nzimm : BitVec 6) : exec (.cLui rd nzimm) s =
    s.writeUpper .two rd (cLuiOperand s.xlen nzimm) := rfl
theorem exec_cSrli (rd : RegIdx) (shamt : BitVec 6) : exec (.cSrli rd shamt) s =
    s.opImm .two (fun a => s.xlen.srl a shamt.toNat) rd rd := rfl
theorem exec_cSrai (rd : RegIdx) (shamt : BitVec 6) : exec (.cSrai rd shamt) s =
    s.opImm .two (fun a => s.xlen.sra a shamt.toNat) rd rd := rfl
theorem exec_cAndi (rd : RegIdx) (imm : BitVec 6) : exec (.cAndi rd imm) s =
    s.opImm .two (fun a => a &&& signedOperand s.xlen imm) rd rd := rfl
theorem exec_cSub (rd rs2 : RegIdx) : exec (.cSub rd rs2) s =
    s.opReg .two (fun a b => a - b) rd rd rs2 := rfl
theorem exec_cXor (rd rs2 : RegIdx) : exec (.cXor rd rs2) s =
    s.opReg .two (fun a b => a ^^^ b) rd rd rs2 := rfl
theorem exec_cOr (rd rs2 : RegIdx) : exec (.cOr rd rs2) s =
    s.opReg .two (fun a b => a ||| b) rd rd rs2 := rfl
theorem exec_cAnd (rd rs2 : RegIdx) : exec (.cAnd rd rs2) s =
    s.opReg .two (fun a b => a &&& b) rd rd rs2 := rfl
theorem exec_cSubw (rd rs2 : RegIdx) : exec (.cSubw rd rs2) s =
    s.opReg .two (fun a b => wordResult s.xlen (low32 (a - b))) rd rd rs2 := rfl
theorem exec_cAddw (rd rs2 : RegIdx) : exec (.cAddw rd rs2) s =
    s.opReg .two (fun a b => wordResult s.xlen (low32 (a + b))) rd rd rs2 := rfl
theorem exec_cJ (imm : BitVec 12) : exec (.cJ imm) s =
    s.jumpPc .two 0 (signedOperand s.xlen imm) := rfl
theorem exec_cBeqz (rs1 : RegIdx) (imm : BitVec 9) : exec (.cBeqz rs1 imm) s =
    s.branch .two (condEq s.xlen) rs1 0 (signedOperand s.xlen imm) := rfl
theorem exec_cBnez (rs1 : RegIdx) (imm : BitVec 9) : exec (.cBnez rs1 imm) s =
    s.branch .two (condNe s.xlen) rs1 0 (signedOperand s.xlen imm) := rfl
theorem exec_cSlli (rd : RegIdx) (shamt : BitVec 6) : exec (.cSlli rd shamt) s =
    s.opImm .two (fun a => s.xlen.sll a shamt.toNat) rd rd := rfl
theorem exec_cLwsp (rd : RegIdx) (uimm : BitVec 8) : exec (.cLwsp rd uimm) s =
    s.loadInto .two .word .sign rd 2 (unsignedOperand s.xlen uimm) := rfl
theorem exec_cLdsp (rd : RegIdx) (uimm : BitVec 9) : exec (.cLdsp rd uimm) s =
    s.loadInto .two .double .zero rd 2 (unsignedOperand s.xlen uimm) := rfl
theorem exec_cJr (rs1 : RegIdx) : exec (.cJr rs1) s =
    s.jumpReg .two 0 rs1 0 := rfl
theorem exec_cMv (rd rs2 : RegIdx) : exec (.cMv rd rs2) s =
    s.opReg .two (fun a b => a + b) rd 0 rs2 := rfl
theorem exec_cEbreak : exec (.cEbreak) s =
    s.systemStub .two := rfl
theorem exec_cJalr (rs1 : RegIdx) : exec (.cJalr rs1) s =
    s.jumpReg .two 1 rs1 0 := rfl
theorem exec_cAdd (rd rs2 : RegIdx) : exec (.cAdd rd rs2) s =
    s.opReg .two (fun a b => a + b) rd rd rs2 := rfl
theorem exec_cSwsp (rs2 : RegIdx) (uimm : BitVec 8) : exec (.cSwsp rs2 uimm) s =
    s.storeFrom .two .word 2 rs2 (unsignedOperand s.xlen uimm) := rfl
theorem exec_cSdsp (rs2 : RegIdx) (uimm : BitVec 9) : exec (.cSdsp rs2 uimm) s =
    s.storeFrom .two .double 2 rs2 (unsignedOperand s.xlen uimm) := rfl

end Sys2Proof.Machine
end

