-- ==== Sys2Proof/Laws/Operands.lean ====
section
/-! SUPPORT. The operand forms and the comparisons in terms of integers: immediates, upper immediates, word results, targets. -/

namespace Sys2Proof.Machine

open Sys2Proof

variable (x : XLen) (s : State)

theorem signedOperand_eq {n : Nat} (imm : BitVec n) : signedOperand x imm = x.ofInt imm.toInt := by
  rw [signedOperand, Immediate.operand_eq, Immediate.ofField_signed]

theorem unsignedOperand_eq {n : Nat} (imm : BitVec n) : unsignedOperand x imm = x.ofInt imm.toNat := by
  rw [unsignedOperand, Immediate.operand_eq, Immediate.ofField_unsigned]

@[simp] theorem shamtOperand_eq {n : Nat} (shamt : BitVec n) : shamtOperand shamt = shamt.toNat := rfl

/-- A 12-bit immediate is held without wrapping. -/
theorem asSigned_imm12 (imm : BitVec 12) : x.asSigned (x.ofInt imm.toInt) = imm.toInt := by
  have h1 := BitVec.le_toInt imm
  have h2 := BitVec.toInt_lt (x := imm)
  apply XLen.asSigned_ofInt <;> cases x <;> simp only [XLen.bits] <;> omega

theorem upperOperand_eq (imm20 : BitVec 20) :
    upperOperand x imm20 = x.ofInt (sextInt 32 (imm20.toNat * 2 ^ 12)) := by
  rw [upperOperand, XLen.sext_eq x (by norm_num), toInt_eq_sextInt (by norm_num)]
  refine congrArg x.ofInt (sextInt_congr ?_)
  rw [BitVec.toNat_ofInt, Int.toNat_of_nonneg (Int.emod_nonneg _ (by norm_num))]
  push_cast; rw [Int.emod_emod]; rfl

theorem cLuiOperand_eq (field : BitVec 6) : cLuiOperand x field = x.ofInt (field.toInt * 2 ^ 12) := by
  rw [cLuiOperand, Immediate.operand_eq, Immediate.leftShift, Immediate.ofField_signed]

/-! ### Bitwise results stay XLEN bits wide -/

theorem wrap_xor (a b : Word) (ha : x.wrap a = a) (hb : x.wrap b = b) : x.wrap (a ^^^ b) = a ^^^ b := by
  cases x
  · simp only [XLen.wrap] at *
    rw [← ha, ← hb]; apply BitVec.eq_of_getLsbD_eq; intro i hi; simp
  · rfl

theorem wrap_or (a b : Word) (ha : x.wrap a = a) (hb : x.wrap b = b) : x.wrap (a ||| b) = a ||| b := by
  cases x
  · simp only [XLen.wrap] at *
    rw [← ha, ← hb]; apply BitVec.eq_of_getLsbD_eq; intro i hi; simp
  · rfl

theorem wrap_and (a b : Word) (ha : x.wrap a = a) (hb : x.wrap b = b) : x.wrap (a &&& b) = a &&& b := by
  cases x
  · simp only [XLen.wrap] at *
    rw [← ha, ← hb]; apply BitVec.eq_of_getLsbD_eq; intro i hi; simp
  · rfl

/-! ### Comparisons of register values -/

theorem wrap_boolWord (p : Prop) [Decidable p] : x.wrap (boolWord (decide p)) = if p then 1 else 0 := by
  by_cases h : p <;> simp only [boolWord, h, decide_true, decide_false, if_true, if_false] <;> cases x <;> rfl

theorem State.asUnsigned_x (r : RegIdx) : s.xlen.asUnsigned (s.x r) = (s.x r).toNat := by
  rw [XLen.asUnsigned, s.wrap_x]

theorem State.condEq_x (r q : RegIdx) : condEq s.xlen (s.x r) (s.x q) = decide (s.x r = s.x q) := by
  rw [condEq, s.wrap_x, s.wrap_x, Bool.eq_iff_iff]; simp

theorem State.condNe_x (r q : RegIdx) : condNe s.xlen (s.x r) (s.x q) = decide (s.x r ≠ s.x q) := by
  rw [condNe, s.wrap_x, s.wrap_x, Bool.eq_iff_iff]; simp

theorem State.condLtu_x (r q : RegIdx) : condLtu s.xlen (s.x r) (s.x q) = decide ((s.x r).toNat < (s.x q).toNat) := by
  rw [condLtu, s.asUnsigned_x, s.asUnsigned_x]

theorem State.condGeu_x (r q : RegIdx) : condGeu s.xlen (s.x r) (s.x q) = decide ((s.x r).toNat ≥ (s.x q).toNat) := by
  rw [condGeu, s.asUnsigned_x, s.asUnsigned_x]

theorem State.wrap_srl_x (r : RegIdx) (k : Nat) :
    s.xlen.wrap (s.xlen.srl (s.x r) k) = s.xlen.ofInt ((s.x r).toNat / 2 ^ k) := by
  rw [XLen.wrap_srl, s.wrap_x]; norm_cast

/-! ### Word results -/

theorem wrap_wordResult (v : BitVec 32) (i : Int) (h : (v.toNat : Int) % 2 ^ 32 = i % 2 ^ 32) :
    x.wrap (wordResult x v) = x.ofInt (sextInt 32 i) := by rw [wordResult_eq x v i h, XLen.wrap_ofInt]

theorem low32_add (a b : Word) : ((low32 (a + b)).toNat : Int) % 2 ^ 32 = ((a.toNat : Int) + b.toNat) % 2 ^ 32 := by
  rw [toNat_low32, Int.natCast_mod]; push_cast; rw [Int.emod_emod]; exact toNat_add_emod XLen.rv32 a b

theorem low32_sub (a b : Word) : ((low32 (a - b)).toNat : Int) % 2 ^ 32 = ((a.toNat : Int) - b.toNat) % 2 ^ 32 := by
  rw [toNat_low32, Int.natCast_mod]; push_cast; rw [Int.emod_emod]; exact toNat_sub_emod XLen.rv32 a b

theorem low32_addImm (a : Word) {n : Nat} (imm : BitVec n) :
    ((low32 (a + signedOperand x imm)).toNat : Int) % 2 ^ 32 = ((a.toNat : Int) + imm.toInt) % 2 ^ 32 := by
  rw [low32_add, Int.add_emod]
  have h : ((signedOperand x imm).toNat : Int) % 2 ^ 32 = imm.toInt % 2 ^ 32 := by
    rw [signedOperand_eq, XLen.toNat_ofInt, Int.toNat_of_nonneg (Int.emod_nonneg _ (by positivity))]
    exact Int.emod_emod_of_dvd _ (by cases x <;> norm_num [XLen.bits])
  rw [h, ← Int.add_emod]

theorem low32_sll (a : Word) (k : Nat) :
    ((low32 a <<< k).toNat : Int) % 2 ^ 32 = ((a.toNat : Int) * 2 ^ k) % 2 ^ 32 := by
  rw [BitVec.toNat_shiftLeft, toNat_low32, Nat.shiftLeft_eq]; push_cast; rw [Int.emod_emod]; simp [Int.mul_emod]

theorem low32_srl (a : Word) (k : Nat) :
    ((low32 a >>> k).toNat : Int) % 2 ^ 32 = ((a.toNat : Int) % 2 ^ 32 / 2 ^ k) % 2 ^ 32 := by
  rw [BitVec.toNat_ushiftRight, toNat_low32, Nat.shiftRight_eq_div_pow]; push_cast; rfl

theorem wrap_wordResult_sra (a : Word) (k : Nat) :
    x.wrap (wordResult x ((low32 a).sshiftRight k)) = x.ofInt (sextInt 32 a.toNat / 2 ^ k) := by
  have hs : sextInt 32 ((low32 a).toNat : Int) = sextInt 32 a.toNat :=
    sextInt_congr (by rw [toNat_low32, Int.natCast_mod]; exact Int.emod_emod_of_dvd _ (by norm_num))
  rw [wordResult, XLen.sext_eq x (by norm_num), XLen.wrap_ofInt, BitVec.toInt_sshiftRight, Int.shiftRight_eq_div_pow,
    toInt_eq_sextInt (by norm_num), hs]
  push_cast; rfl

/-! ### Targets -/

theorem State.pcRelative_signed {n : Nat} (imm : BitVec n) :
    s.pcRelative (signedOperand s.xlen imm) = s.pcTarget imm.toInt := by
  rw [signedOperand_eq, State.pcRelative_eq]; rfl

/-- Clearing bit 0 is rounding down to an even number (41_control_transfer.md R147). -/
theorem and_not_one (v : Word) : v &&& ~~~1#64 = BitVec.ofNat 64 (v.toNat / 2 * 2) := by
  apply BitVec.eq_of_getLsbD_eq
  intro i hi
  rcases i with _ | i
  · have h0 : (1#64).getLsbD 0 = true := rfl
    rw [BitVec.getLsbD_and, BitVec.getLsbD_not, h0, BitVec.getLsbD_ofNat, Nat.testBit_zero]
    simp
  · have h1 : (1#64).getLsbD (i + 1) = false := by simp
    rw [BitVec.getLsbD_and, BitVec.getLsbD_not, h1, BitVec.getLsbD_ofNat, Nat.mul_comm, ← Nat.pow_one 2,
      Nat.testBit_two_pow_mul]
    simp [hi, BitVec.getLsbD, Nat.testBit_succ]

theorem State.jalrTarget_eq (rs1 : RegIdx) (i : Int) :
    s.jalrTarget rs1 (s.xlen.ofInt i) = s.jumpTarget rs1 i := by
  unfold State.jalrTarget State.jumpTarget
  rw [XLen.wrap_add_ofInt_unsigned]
  simp only
  split
  · exact and_not_one _
  · rfl

theorem State.jalrTarget_zero (rs1 : RegIdx) : s.jalrTarget rs1 0 = s.jumpTarget rs1 0 := by
  rw [← State.jalrTarget_eq, show s.xlen.ofInt 0 = 0#64 from by cases s.xlen <;> rfl]; rfl

theorem State.targetOk_iff (t : Word) : s.TargetOk t ↔ t.toNat % s.cfg.ialignBytes = 0 := Iff.rfl

/-! ### Addresses and the two checks -/

theorem State.effectiveAddress_signed (base : RegIdx) {n : Nat} (imm : BitVec n) :
    s.effectiveAddress base (signedOperand s.xlen imm) = s.xlen.ofInt ((s.x base).toNat + imm.toInt) := by
  rw [signedOperand_eq, State.effectiveAddress_eq]

theorem State.effectiveAddress_unsigned (base : RegIdx) {n : Nat} (imm : BitVec n) :
    s.effectiveAddress base (unsignedOperand s.xlen imm) = s.xlen.ofInt ((s.x base).toNat + imm.toNat) := by
  rw [unsignedOperand_eq, State.effectiveAddress_eq]

theorem State.accessCheck_some (k : AccessKind) (a : Word) (g : Granularity) (c : Cause) :
    s.accessCheck k a g = some c ↔ s.FaultsWith k a g.bytes c := by
  unfold State.accessCheck State.FaultsWith
  cases hm : s.cfg.misalignedData <;> by_cases hz : a.toNat % g.bytes = 0 <;>
    cases ha : s.cfg.memAdmits a g.bytes <;> simp [hz, eq_comm]

end Sys2Proof.Machine
end

