-- ==== Sys2Proof/Laws/PerInstr.lean ====
section
/-! SUPPORT. For every instruction: the length its encoding announces in its low two bits is its size
(30_encoding.md R69), and a 16-bit instruction fills the low half only. -/

namespace Sys2Proof.Laws

/-- A 32-bit instruction's low two bits are 11; a 16-bit instruction's are not, and nothing stands above its 16 bits. -/
def LengthIs (raw : RawInsn) (size : InsnSize) : Prop :=
  raw.size = size ∧ (raw.bits.extractLsb' 0 2 = 0b11#2 ↔ size = .four) ∧
    (size = .two → raw.bits.extractLsb' 16 16 = 0#16)

theorem rawWord_length (w : BitVec 32) (h : (opcodeOf w).extractLsb' 0 2 = 0b11#2) :
    LengthIs (rawWord w) .four := by
  refine ⟨rfl, ?_, nofun⟩
  simp [rawWord, low2_eq, h]

theorem rawHalf_length (v : BitVec 16) (h : quadrantOf v ≠ 0b11#2) :
    LengthIs (rawHalf v) .two := by
  refine ⟨rfl, ?_, fun _ => ?_⟩
  · simp [rawHalf, low2_half, h]
  · apply eq_of_bits
    intro i hi
    simp [rawHalf]

namespace Encoding

/-- The encoding announces the instruction's size (30_encoding.md R69). -/
def Statement (i : Instr) : Prop := LengthIs (encode i) i.size

theorem lui (rd : RegIdx) (imm20 : BitVec 20) : Statement (.lui rd imm20) :=
  rawWord_length _ (by simp)

theorem auipc (rd : RegIdx) (imm20 : BitVec 20) : Statement (.auipc rd imm20) :=
  rawWord_length _ (by simp)

theorem jal (rd : RegIdx) (imm : BitVec 21) : Statement (.jal rd imm) :=
  rawWord_length _ (by simp)

theorem jalr (rd rs1 : RegIdx) (imm : BitVec 12) : Statement (.jalr rd rs1 imm) :=
  rawWord_length _ (by simp)

theorem beq (rs1 rs2 : RegIdx) (imm : BitVec 13) : Statement (.beq rs1 rs2 imm) :=
  rawWord_length _ (by simp)

theorem bne (rs1 rs2 : RegIdx) (imm : BitVec 13) : Statement (.bne rs1 rs2 imm) :=
  rawWord_length _ (by simp)

theorem blt (rs1 rs2 : RegIdx) (imm : BitVec 13) : Statement (.blt rs1 rs2 imm) :=
  rawWord_length _ (by simp)

theorem bge (rs1 rs2 : RegIdx) (imm : BitVec 13) : Statement (.bge rs1 rs2 imm) :=
  rawWord_length _ (by simp)

theorem bltu (rs1 rs2 : RegIdx) (imm : BitVec 13) : Statement (.bltu rs1 rs2 imm) :=
  rawWord_length _ (by simp)

theorem bgeu (rs1 rs2 : RegIdx) (imm : BitVec 13) : Statement (.bgeu rs1 rs2 imm) :=
  rawWord_length _ (by simp)

theorem lb (rd rs1 : RegIdx) (imm : BitVec 12) : Statement (.lb rd rs1 imm) :=
  rawWord_length _ (by simp)

theorem lh (rd rs1 : RegIdx) (imm : BitVec 12) : Statement (.lh rd rs1 imm) :=
  rawWord_length _ (by simp)

theorem lw (rd rs1 : RegIdx) (imm : BitVec 12) : Statement (.lw rd rs1 imm) :=
  rawWord_length _ (by simp)

theorem ld (rd rs1 : RegIdx) (imm : BitVec 12) : Statement (.ld rd rs1 imm) :=
  rawWord_length _ (by simp)

theorem lbu (rd rs1 : RegIdx) (imm : BitVec 12) : Statement (.lbu rd rs1 imm) :=
  rawWord_length _ (by simp)

theorem lhu (rd rs1 : RegIdx) (imm : BitVec 12) : Statement (.lhu rd rs1 imm) :=
  rawWord_length _ (by simp)

theorem lwu (rd rs1 : RegIdx) (imm : BitVec 12) : Statement (.lwu rd rs1 imm) :=
  rawWord_length _ (by simp)

theorem sb (rs1 rs2 : RegIdx) (imm : BitVec 12) : Statement (.sb rs1 rs2 imm) :=
  rawWord_length _ (by simp)

theorem sh (rs1 rs2 : RegIdx) (imm : BitVec 12) : Statement (.sh rs1 rs2 imm) :=
  rawWord_length _ (by simp)

theorem sw (rs1 rs2 : RegIdx) (imm : BitVec 12) : Statement (.sw rs1 rs2 imm) :=
  rawWord_length _ (by simp)

theorem sd (rs1 rs2 : RegIdx) (imm : BitVec 12) : Statement (.sd rs1 rs2 imm) :=
  rawWord_length _ (by simp)

theorem addi (rd rs1 : RegIdx) (imm : BitVec 12) : Statement (.addi rd rs1 imm) :=
  rawWord_length _ (by simp)

theorem slti (rd rs1 : RegIdx) (imm : BitVec 12) : Statement (.slti rd rs1 imm) :=
  rawWord_length _ (by simp)

theorem sltiu (rd rs1 : RegIdx) (imm : BitVec 12) : Statement (.sltiu rd rs1 imm) :=
  rawWord_length _ (by simp)

theorem xori (rd rs1 : RegIdx) (imm : BitVec 12) : Statement (.xori rd rs1 imm) :=
  rawWord_length _ (by simp)

theorem ori (rd rs1 : RegIdx) (imm : BitVec 12) : Statement (.ori rd rs1 imm) :=
  rawWord_length _ (by simp)

theorem andi (rd rs1 : RegIdx) (imm : BitVec 12) : Statement (.andi rd rs1 imm) :=
  rawWord_length _ (by simp)

theorem slli32 (rd rs1 : RegIdx) (shamt : BitVec 5) : Statement (.slli32 rd rs1 shamt) :=
  rawWord_length _ (by simp)

theorem slli64 (rd rs1 : RegIdx) (shamt : BitVec 6) : Statement (.slli64 rd rs1 shamt) :=
  rawWord_length _ (by simp)

theorem srli32 (rd rs1 : RegIdx) (shamt : BitVec 5) : Statement (.srli32 rd rs1 shamt) :=
  rawWord_length _ (by simp)

theorem srli64 (rd rs1 : RegIdx) (shamt : BitVec 6) : Statement (.srli64 rd rs1 shamt) :=
  rawWord_length _ (by simp)

theorem srai32 (rd rs1 : RegIdx) (shamt : BitVec 5) : Statement (.srai32 rd rs1 shamt) :=
  rawWord_length _ (by simp)

theorem srai64 (rd rs1 : RegIdx) (shamt : BitVec 6) : Statement (.srai64 rd rs1 shamt) :=
  rawWord_length _ (by simp)

theorem add (rd rs1 rs2 : RegIdx) : Statement (.add rd rs1 rs2) :=
  rawWord_length _ (by simp)

theorem sub (rd rs1 rs2 : RegIdx) : Statement (.sub rd rs1 rs2) :=
  rawWord_length _ (by simp)

theorem sll (rd rs1 rs2 : RegIdx) : Statement (.sll rd rs1 rs2) :=
  rawWord_length _ (by simp)

theorem slt (rd rs1 rs2 : RegIdx) : Statement (.slt rd rs1 rs2) :=
  rawWord_length _ (by simp)

theorem sltu (rd rs1 rs2 : RegIdx) : Statement (.sltu rd rs1 rs2) :=
  rawWord_length _ (by simp)

theorem xor (rd rs1 rs2 : RegIdx) : Statement (.xor rd rs1 rs2) :=
  rawWord_length _ (by simp)

theorem srl (rd rs1 rs2 : RegIdx) : Statement (.srl rd rs1 rs2) :=
  rawWord_length _ (by simp)

theorem sra (rd rs1 rs2 : RegIdx) : Statement (.sra rd rs1 rs2) :=
  rawWord_length _ (by simp)

theorem or (rd rs1 rs2 : RegIdx) : Statement (.or rd rs1 rs2) :=
  rawWord_length _ (by simp)

theorem and (rd rs1 rs2 : RegIdx) : Statement (.and rd rs1 rs2) :=
  rawWord_length _ (by simp)

theorem fence (fm pred succ : BitVec 4) (rs1 rd : RegIdx) : Statement (.fence fm pred succ rs1 rd) :=
  rawWord_length _ (by simp)

theorem ecall : Statement (.ecall) :=
  rawWord_length _ (by decide)

theorem ebreak : Statement (.ebreak) :=
  rawWord_length _ (by decide)

theorem csrrw (rd rs1 : RegIdx) (csr : BitVec 12) : Statement (.csrrw rd rs1 csr) :=
  rawWord_length _ (by simp)

theorem csrrs (rd rs1 : RegIdx) (csr : BitVec 12) : Statement (.csrrs rd rs1 csr) :=
  rawWord_length _ (by simp)

theorem csrrc (rd rs1 : RegIdx) (csr : BitVec 12) : Statement (.csrrc rd rs1 csr) :=
  rawWord_length _ (by simp)

theorem csrrwi (rd : RegIdx) (uimm : BitVec 5) (csr : BitVec 12) : Statement (.csrrwi rd uimm csr) :=
  rawWord_length _ (by simp)

theorem csrrsi (rd : RegIdx) (uimm : BitVec 5) (csr : BitVec 12) : Statement (.csrrsi rd uimm csr) :=
  rawWord_length _ (by simp)

theorem csrrci (rd : RegIdx) (uimm : BitVec 5) (csr : BitVec 12) : Statement (.csrrci rd uimm csr) :=
  rawWord_length _ (by simp)

theorem addiw (rd rs1 : RegIdx) (imm : BitVec 12) : Statement (.addiw rd rs1 imm) :=
  rawWord_length _ (by simp)

theorem slliw (rd rs1 : RegIdx) (shamt : BitVec 5) : Statement (.slliw rd rs1 shamt) :=
  rawWord_length _ (by simp)

theorem srliw (rd rs1 : RegIdx) (shamt : BitVec 5) : Statement (.srliw rd rs1 shamt) :=
  rawWord_length _ (by simp)

theorem sraiw (rd rs1 : RegIdx) (shamt : BitVec 5) : Statement (.sraiw rd rs1 shamt) :=
  rawWord_length _ (by simp)

theorem addw (rd rs1 rs2 : RegIdx) : Statement (.addw rd rs1 rs2) :=
  rawWord_length _ (by simp)

theorem subw (rd rs1 rs2 : RegIdx) : Statement (.subw rd rs1 rs2) :=
  rawWord_length _ (by simp)

theorem sllw (rd rs1 rs2 : RegIdx) : Statement (.sllw rd rs1 rs2) :=
  rawWord_length _ (by simp)

theorem srlw (rd rs1 rs2 : RegIdx) : Statement (.srlw rd rs1 rs2) :=
  rawWord_length _ (by simp)

theorem sraw (rd rs1 rs2 : RegIdx) : Statement (.sraw rd rs1 rs2) :=
  rawWord_length _ (by simp)

theorem cAddi4spn (rd : RegIdx) (nzuimm : BitVec 10) : Statement (.cAddi4spn rd nzuimm) :=
  rawHalf_length _ (by simp)

theorem cLw (rd rs1 : RegIdx) (uimm : BitVec 7) : Statement (.cLw rd rs1 uimm) :=
  rawHalf_length _ (by simp)

theorem cLd (rd rs1 : RegIdx) (uimm : BitVec 8) : Statement (.cLd rd rs1 uimm) :=
  rawHalf_length _ (by simp)

theorem cSw (rs1 rs2 : RegIdx) (uimm : BitVec 7) : Statement (.cSw rs1 rs2 uimm) :=
  rawHalf_length _ (by simp)

theorem cSd (rs1 rs2 : RegIdx) (uimm : BitVec 8) : Statement (.cSd rs1 rs2 uimm) :=
  rawHalf_length _ (by simp)

theorem cNop (imm : BitVec 6) : Statement (.cNop imm) :=
  rawHalf_length _ (by simp)

theorem cAddi (rd : RegIdx) (imm : BitVec 6) : Statement (.cAddi rd imm) :=
  rawHalf_length _ (by simp)

theorem cJal (imm : BitVec 12) : Statement (.cJal imm) :=
  rawHalf_length _ (by simp)

theorem cAddiw (rd : RegIdx) (imm : BitVec 6) : Statement (.cAddiw rd imm) :=
  rawHalf_length _ (by simp)

theorem cLi (rd : RegIdx) (imm : BitVec 6) : Statement (.cLi rd imm) :=
  rawHalf_length _ (by simp)

theorem cAddi16sp (nzimm : BitVec 10) : Statement (.cAddi16sp nzimm) :=
  rawHalf_length _ (by simp)

theorem cLui (rd : RegIdx) (nzimm : BitVec 6) : Statement (.cLui rd nzimm) :=
  rawHalf_length _ (by simp)

theorem cSrli (rd : RegIdx) (shamt : BitVec 6) : Statement (.cSrli rd shamt) :=
  rawHalf_length _ (by simp)

theorem cSrai (rd : RegIdx) (shamt : BitVec 6) : Statement (.cSrai rd shamt) :=
  rawHalf_length _ (by simp)

theorem cAndi (rd : RegIdx) (imm : BitVec 6) : Statement (.cAndi rd imm) :=
  rawHalf_length _ (by simp)

theorem cSub (rd rs2 : RegIdx) : Statement (.cSub rd rs2) :=
  rawHalf_length _ (by simp)

theorem cXor (rd rs2 : RegIdx) : Statement (.cXor rd rs2) :=
  rawHalf_length _ (by simp)

theorem cOr (rd rs2 : RegIdx) : Statement (.cOr rd rs2) :=
  rawHalf_length _ (by simp)

theorem cAnd (rd rs2 : RegIdx) : Statement (.cAnd rd rs2) :=
  rawHalf_length _ (by simp)

theorem cSubw (rd rs2 : RegIdx) : Statement (.cSubw rd rs2) :=
  rawHalf_length _ (by simp)

theorem cAddw (rd rs2 : RegIdx) : Statement (.cAddw rd rs2) :=
  rawHalf_length _ (by simp)

theorem cJ (imm : BitVec 12) : Statement (.cJ imm) :=
  rawHalf_length _ (by simp)

theorem cBeqz (rs1 : RegIdx) (imm : BitVec 9) : Statement (.cBeqz rs1 imm) :=
  rawHalf_length _ (by simp)

theorem cBnez (rs1 : RegIdx) (imm : BitVec 9) : Statement (.cBnez rs1 imm) :=
  rawHalf_length _ (by simp)

theorem cSlli (rd : RegIdx) (shamt : BitVec 6) : Statement (.cSlli rd shamt) :=
  rawHalf_length _ (by simp)

theorem cLwsp (rd : RegIdx) (uimm : BitVec 8) : Statement (.cLwsp rd uimm) :=
  rawHalf_length _ (by simp)

theorem cLdsp (rd : RegIdx) (uimm : BitVec 9) : Statement (.cLdsp rd uimm) :=
  rawHalf_length _ (by simp)

theorem cJr (rs1 : RegIdx) : Statement (.cJr rs1) :=
  rawHalf_length _ (by simp)

theorem cMv (rd rs2 : RegIdx) : Statement (.cMv rd rs2) :=
  rawHalf_length _ (by simp)

theorem cEbreak : Statement (.cEbreak) :=
  rawHalf_length _ (by decide)

theorem cJalr (rs1 : RegIdx) : Statement (.cJalr rs1) :=
  rawHalf_length _ (by simp)

theorem cAdd (rd rs2 : RegIdx) : Statement (.cAdd rd rs2) :=
  rawHalf_length _ (by simp)

theorem cSwsp (rs2 : RegIdx) (uimm : BitVec 8) : Statement (.cSwsp rs2 uimm) :=
  rawHalf_length _ (by simp)

theorem cSdsp (rs2 : RegIdx) (uimm : BitVec 9) : Statement (.cSdsp rs2 uimm) :=
  rawHalf_length _ (by simp)

end Encoding

end Sys2Proof.Laws
end

