-- ==== Sys2Proof/Laws/Step.lean ====
section
/-! SUPPORT. All a step can do, said once: how execution of any instruction ends, and the cases of a step. Invariants of
the machine follow from these without unfolding an instruction. -/

namespace Sys2Proof.Machine

open Sys2Proof

/-- What execute may leave of the state it began in: the architectural state untouched but for memory, at most one
record more, at most one aligned target. -/
structure State.Executed (s u : State) : Prop where
  cfg : u.cfg = s.cfg
  regs : u.regs = s.regs
  pc : u.pc = s.pc
  order : u.order = s.order
  halt : u.halt = s.halt
  trace : u.trace = s.trace
  fetched : u.stage.fetched = s.stage.fetched
  log : u.stage.log = s.stage.log ∨
    ∃ r v, r ≠ 0#5 ∧ s.xlen.wrap v = v ∧ u.stage.log = s.stage.log ++ [⟨r, v⟩]
  target : u.stage.target = s.stage.target ∨
    ∃ t, u.stage.target = some t ∧ s.xlen.wrap t = t ∧ t.toNat % s.cfg.ialignBytes = 0
  mem : u.mem = s.mem ∨ ∃ a n v, u.mem = s.mem.store s.xlen a n v

/-- What execute leaves for the emitter: the captures of the sources `src` and a memory event exactly for a data access. -/
structure State.Captured (s u : State) (src : RegIdx × RegIdx) (acc : Option DataAccess) : Prop where
  rs1 : u.stage.rs1.getD ⟨0, 0⟩ = ⟨src.1, s.x src.1⟩
  rs2 : u.stage.rs2.getD ⟨0, 0⟩ = ⟨src.2, s.x src.2⟩
  event : u.stage.memEvent = none ↔ acc = none

/-- JALR and its compressed forms. -/
def isJalr : Instr → Bool
  | .jalr .. | .cJr .. | .cJalr .. => true
  | _ => false

/-- The causes execution of an instruction can raise, and when. -/
def mayRaise (i : Instr) (s : State) : Cause → Prop
  | .invalidEncoding => False
  | .invalidImmediate => False
  | .unsupportedOperation => isStrictStub i = true ∧ s.cfg.strictSystem = true
  | .misalignedTarget t => ¬s.TargetOk t ∧
      ((∃ off : Int, t = s.pcTarget off ∧ (i.wellFormed s.cfg = true → off % 2 = 0)) ∨
        (isJalr i = true ∧ ∃ rs1 off, t = s.jumpTarget rs1 off))
  | .misalignedAccess ea => ∃ a, dataAccess i = some a ∧ s.FaultsWith a.kind ea a.gran.bytes (.misalignedAccess ea)
  | .accessFault k ea => ∃ a, dataAccess i = some a ∧ s.FaultsWith a.kind ea a.gran.bytes (.accessFault k ea)

/-- How execution of an instruction ends: retired with what it left, or a fault taken from the state it began in. -/
def Ends (i : Instr) (s : State) (size : InsnSize) (r : Result) : Prop :=
  (∃ u, s.Executed u ∧ (s.Ready → s.Captured u (sourceRegs i) (dataAccess i)) ∧
      ((∀ a, dataAccess i = some a → a.kind ≠ .store) → u.mem = s.mem) ∧ r = .next (u.retire size)) ∨
    (∃ c, mayRaise i s c ∧ r = .next (s.raise c))

variable {s : State} {i : Instr}

theorem State.Executed.base : s.Executed s :=
  ⟨rfl, rfl, rfl, rfl, rfl, rfl, rfl, .inl rfl, .inl rfl, .inl rfl⟩

/-- A register write keeps `Executed` when nothing has been logged yet. -/
theorem State.Executed.writeReg {u : State} (h : s.Executed u) (hl : u.stage.log = s.stage.log) (rd : RegIdx) (v : Word) :
    s.Executed (u.writeReg rd v) := by
  have hx : u.xlen = s.xlen := by rw [State.xlen, h.cfg]
  refine ⟨by simp [h.cfg], by simp [h.regs], by simp [h.pc], by simp [h.order], by simp [h.halt], by simp [h.trace],
    by simp [h.fetched], ?_, by simpa using h.target, by simpa using h.mem⟩
  by_cases hr : rd = 0#5
  · exact .inl (by simp [hr, hl])
  · exact .inr ⟨rd, s.xlen.wrap v, hr, by simp, by simp [hr, hl, hx]⟩

theorem State.Executed.captureRs1 {u : State} (h : s.Executed u) (r : RegIdx) : s.Executed (u.captureRs1 r) :=
  ⟨h.cfg, h.regs, h.pc, h.order, h.halt, h.trace, h.fetched, h.log, h.target, h.mem⟩

theorem State.Executed.captureRs2 {u : State} (h : s.Executed u) (r : RegIdx) : s.Executed (u.captureRs2 r) :=
  ⟨h.cfg, h.regs, h.pc, h.order, h.halt, h.trace, h.fetched, h.log, h.target, h.mem⟩

theorem State.Executed.recordMem {u : State} (h : s.Executed u) (k : MemKind) (g : Granularity) (a d : Word) :
    s.Executed (u.recordMem k g a d) :=
  ⟨h.cfg, h.regs, h.pc, h.order, h.halt, h.trace, h.fetched, h.log, h.target, h.mem⟩

theorem State.Executed.setTarget {u : State} (h : s.Executed u) (t : Word) (hw : s.xlen.wrap t = t)
    (ha : t.toNat % s.cfg.ialignBytes = 0) : s.Executed (u.setTarget t) :=
  ⟨h.cfg, h.regs, h.pc, h.order, h.halt, h.trace, h.fetched, h.log, .inr ⟨t, rfl, hw, ha⟩, h.mem⟩

theorem ends_writeUpper (hsrc : sourceRegs i = (0, 0)) (hacc : dataAccess i = none) (size : InsnSize) (rd : RegIdx)
    (v : Word) : Ends i s size (s.writeUpper size rd v) := by
  refine .inl ⟨_, State.Executed.writeReg State.Executed.base rfl rd v, fun h => ?_, fun _ => by simp, rfl⟩
  rw [hsrc, hacc]
  exact ⟨by simp [h.rs1], by simp [h.rs2], by simp [h.memEvent]⟩

theorem ends_opImm {rs1 : RegIdx} (hsrc : sourceRegs i = (rs1, 0)) (hacc : dataAccess i = none) (size : InsnSize)
    (f : Word → Word) (rd : RegIdx) : Ends i s size (s.opImm size f rd rs1) := by
  refine .inl ⟨_, State.Executed.writeReg (State.Executed.base.captureRs1 rs1) rfl rd _, fun h => ?_, fun _ => by simp, rfl⟩
  rw [hsrc, hacc]
  exact ⟨by simp, by simp [h.rs2], by simp [h.memEvent]⟩

theorem ends_opReg {rs1 rs2 : RegIdx} (hsrc : sourceRegs i = (rs1, rs2)) (hacc : dataAccess i = none) (size : InsnSize)
    (f : Word → Word → Word) (rd : RegIdx) : Ends i s size (s.opReg size f rd rs1 rs2) := by
  refine .inl ⟨_, State.Executed.writeReg ((State.Executed.base.captureRs1 rs1).captureRs2 rs2) rfl rd _, fun h => ?_,
    fun _ => by simp, rfl⟩
  rw [hsrc, hacc]
  exact ⟨by simp, by simp, by simp [h.memEvent]⟩

theorem ends_noEffect (hsrc : sourceRegs i = (0, 0)) (hacc : dataAccess i = none) (size : InsnSize) :
    Ends i s size (s.noEffect size) := by
  refine .inl ⟨s, State.Executed.base, fun h => ?_, fun _ => rfl, rfl⟩
  rw [hsrc, hacc]
  exact ⟨by simp [h.rs1], by simp [h.rs2], by simp [h.memEvent]⟩

theorem ends_systemStub (hsrc : sourceRegs i = (0, 0)) (hacc : dataAccess i = none) (hst : isStrictStub i = true)
    (size : InsnSize) : Ends i s size (s.systemStub size) := by
  by_cases hs : s.cfg.strictSystem = true
  · exact .inr ⟨.unsupportedOperation, ⟨hst, hs⟩, by simp [State.systemStub, hs, State.finish]⟩
  · simpa [State.systemStub, hs] using ends_noEffect hsrc hacc size

theorem wrap_pcTarget (i : Int) : s.xlen.wrap (s.pcTarget i) = s.pcTarget i := XLen.wrap_ofInt ..

theorem wrap_jumpTarget (rs1 : RegIdx) (i : Int) : s.xlen.wrap (s.jumpTarget rs1 i) = s.jumpTarget rs1 i := by
  unfold State.jumpTarget
  simp only
  split
  · rw [← and_not_one]
    cases hx : s.xlen
    · apply BitVec.eq_of_getLsbD_eq
      intro k hk
      have h := congrArg (fun v : Word => v.getLsbD k) (XLen.wrap_ofInt .rv32 ((s.x rs1).toNat + i))
      simp only [XLen.wrap, BitVec.getLsbD_setWidth, BitVec.getLsbD_and] at h ⊢
      rw [← h]; by_cases h32 : k < 32 <;> simp [h32, hk]
    · rfl
  · exact XLen.wrap_ofInt ..

/-- A jump ends with its link and its target, or with MisalignedTarget. -/
theorem ends_jumpPc {off : Int} (hsrc : sourceRegs i = (0, 0)) (hacc : dataAccess i = none)
    (heven : i.wellFormed s.cfg = true → off % 2 = 0) (size : InsnSize) (rd : RegIdx) (offset : Word)
    (ho : s.pcRelative offset = s.pcTarget off) : Ends i s size (s.jumpPc size rd offset) := by
  by_cases ha : (s.pcTarget off).toNat % s.cfg.ialignBytes = 0
  · have ha' : s.targetAligned (s.pcTarget off) = true := (s.targetAligned_iff _).2 ha
    refine .inl ⟨(s.setTarget (s.pcTarget off)).writeReg rd (s.linkValue size), 
      State.Executed.writeReg (State.Executed.base.setTarget _ (wrap_pcTarget off) ha) rfl rd _, fun h => ?_, fun _ => by simp,
      by simp only [State.jumpPc, State.jumpLink, State.transfer, ho, ha', if_true, Except.map, State.finish]⟩
    rw [hsrc, hacc]
    exact ⟨by simp [h.rs1], by simp [h.rs2], by simp [h.memEvent]⟩
  · have ha' : s.targetAligned (s.pcTarget off) = false := by simpa [State.targetAligned] using ha
    exact .inr ⟨.misalignedTarget (s.pcTarget off), ⟨ha, .inl ⟨off, rfl, heven⟩⟩,
      by simp only [State.jumpPc, State.jumpLink, State.transfer, ho, ha']; rfl⟩

theorem ends_jumpReg {rs1 : RegIdx} {off : Int} (hsrc : sourceRegs i = (rs1, 0)) (hacc : dataAccess i = none)
    (hj : isJalr i = true) (size : InsnSize) (rd : RegIdx) (offset : Word)
    (ho : s.jalrTarget rs1 offset = s.jumpTarget rs1 off) : Ends i s size (s.jumpReg size rd rs1 offset) := by
  by_cases ha : (s.jumpTarget rs1 off).toNat % s.cfg.ialignBytes = 0
  · have ha' : (s.captureRs1 rs1).targetAligned (s.jumpTarget rs1 off) = true := (s.targetAligned_iff _).2 ha
    refine .inl ⟨((s.captureRs1 rs1).setTarget (s.jumpTarget rs1 off)).writeReg rd ((s.captureRs1 rs1).linkValue size),
      State.Executed.writeReg ((State.Executed.base.captureRs1 rs1).setTarget _ (wrap_jumpTarget rs1 off) ha) rfl rd _, fun h => ?_, fun _ => by simp,
      by simp only [State.jumpReg, State.jumpLink, State.transfer, ho, ha', if_true, Except.map, State.finish]⟩
    rw [hsrc, hacc]
    exact ⟨by simp, by simp [h.rs2], by simp [h.memEvent]⟩
  · have ha' : (s.captureRs1 rs1).targetAligned (s.jumpTarget rs1 off) = false := by
      simpa [State.targetAligned] using ha
    exact .inr ⟨.misalignedTarget (s.jumpTarget rs1 off), ⟨ha, .inr ⟨hj, rs1, off, rfl⟩⟩,
      by simp only [State.jumpReg, State.jumpLink, State.transfer, ho, ha']; rfl⟩

theorem ends_branch {rs1 rs2 : RegIdx} {off : Int} (hsrc : sourceRegs i = (rs1, rs2)) (hacc : dataAccess i = none)
    (heven : i.wellFormed s.cfg = true → off % 2 = 0) (size : InsnSize) (cond : Word → Word → Bool) (offset : Word)
    (ho : s.pcRelative offset = s.pcTarget off) : Ends i s size (s.branch size cond rs1 rs2 offset) := by
  cases hc : cond (s.x rs1) (s.x rs2)
  · refine .inl ⟨_, (State.Executed.base.captureRs1 rs1).captureRs2 rs2, fun h => ?_, fun _ => by simp,
      by simp only [State.branch, hc]; rfl⟩
    rw [hsrc, hacc]
    exact ⟨by simp, by simp, by simp [h.memEvent]⟩
  · by_cases ha : (s.pcTarget off).toNat % s.cfg.ialignBytes = 0
    · have ha' : ((s.captureRs1 rs1).captureRs2 rs2).targetAligned (s.pcTarget off) = true := (s.targetAligned_iff _).2 ha
      refine .inl ⟨((s.captureRs1 rs1).captureRs2 rs2).setTarget (s.pcTarget off),
        ((State.Executed.base.captureRs1 rs1).captureRs2 rs2).setTarget _ (wrap_pcTarget off) ha, fun h => ?_, fun _ => by simp,
        by simp only [State.branch, hc, State.transfer, ho, ha', if_true, State.finish]⟩
      rw [hsrc, hacc]
      exact ⟨by simp, by simp, by simp [h.memEvent]⟩
    · have ha' : ((s.captureRs1 rs1).captureRs2 rs2).targetAligned (s.pcTarget off) = false := by
        simpa [State.targetAligned] using ha
      exact .inr ⟨.misalignedTarget (s.pcTarget off), ⟨ha, .inl ⟨off, rfl, heven⟩⟩,
        by simp only [State.branch, hc, State.transfer, ho, ha', if_true]; rfl⟩

/-- A fault of a data access is one the instruction may raise. -/
theorem mayRaise_access {a : DataAccess} (hacc : dataAccess i = some a) {ea : Word} {c : Cause}
    (hc : s.accessCheck a.kind ea a.gran = some c) : mayRaise i s c := by
  have h := (s.accessCheck_some a.kind ea a.gran c).1 hc
  rcases h with ⟨h1, h2, rfl⟩ | ⟨h1, h2, rfl⟩
  · exact ⟨a, hacc, .inl ⟨h1, h2, rfl⟩⟩
  · exact ⟨a, hacc, .inr ⟨h1, h2, rfl⟩⟩

theorem ends_loadInto {rs1 : RegIdx} {d : Int} {g : Granularity} (hsrc : sourceRegs i = (rs1, 0))
    (hacc : dataAccess i = some ⟨.load, rs1, d, g⟩) (size : InsnSize) (e : LoadExt) (rd : RegIdx) (disp : Word) :
    Ends i s size (s.loadInto size g e rd rs1 disp) := by
  cases hc : s.accessCheck .load (s.effectiveAddress rs1 disp) g with
  | some c =>
    have hc' : (s.captureRs1 rs1).accessCheck .load (s.effectiveAddress rs1 disp) g = some c := hc
    exact .inr ⟨c, mayRaise_access hacc hc, by simp only [State.loadInto, State.memRead, hc']; rfl⟩
  | none =>
    have hc' : (s.captureRs1 rs1).accessCheck .load (s.effectiveAddress rs1 disp) g = none := hc
    refine .inl ⟨_, State.Executed.writeReg ((State.Executed.base.captureRs1 rs1).recordMem .load g (s.effectiveAddress rs1 disp)
      (s.mem.load s.xlen (s.effectiveAddress rs1 disp) g.bytes)) rfl rd _, fun h => ?_, fun _ => by simp,
      by simp only [State.loadInto, State.memRead, hc']; rfl⟩
    rw [hsrc, hacc]
    exact ⟨by simp, by simp [h.rs2], by simp⟩

theorem ends_storeFrom {rs1 rs2 : RegIdx} {d : Int} {g : Granularity} (hsrc : sourceRegs i = (rs1, rs2))
    (hacc : dataAccess i = some ⟨.store, rs1, d, g⟩) (size : InsnSize) (disp : Word) :
    Ends i s size (s.storeFrom size g rs1 rs2 disp) := by
  cases hc : s.accessCheck .store (s.effectiveAddress rs1 disp) g with
  | some c =>
    have hc' : ((s.captureRs1 rs1).captureRs2 rs2).accessCheck .store (s.effectiveAddress rs1 disp) g = some c := hc
    exact .inr ⟨c, mayRaise_access hacc hc, by simp only [State.storeFrom, State.memWrite, hc']; rfl⟩
  | none =>
    have hc' : ((s.captureRs1 rs1).captureRs2 rs2).accessCheck .store (s.effectiveAddress rs1 disp) g = none := hc
    refine .inl ⟨State.recordMem { (s.captureRs1 rs1).captureRs2 rs2 with
        mem := s.mem.store s.xlen (s.effectiveAddress rs1 disp) g.bytes (storeData g (s.x rs2)) } .store g
        (s.effectiveAddress rs1 disp) (storeData g (s.x rs2)),
      ⟨rfl, rfl, rfl, rfl, rfl, rfl, rfl, .inl rfl, .inl rfl, .inr ⟨_, _, _, rfl⟩⟩, fun h => ?_, fun hn => ?_,
      by simp only [State.storeFrom, State.memWrite, hc']; rfl⟩
    · rw [hsrc, hacc]
      exact ⟨by simp [State.recordMem, State.captureRs1, State.captureRs2, State.x],
        by simp [State.recordMem, State.captureRs1, State.captureRs2, State.x], by simp⟩
    · exact absurd rfl (hn _ hacc)

/-- A field with its low bit 0 has an even signed value. -/
theorem toInt_even {n : Nat} (hn : 0 < n) (v : BitVec n) (h : v.toNat % 2 = 0) : v.toInt % 2 = 0 := by
  obtain ⟨m, rfl⟩ : ∃ m, n = m + 1 := ⟨n - 1, by omega⟩
  rw [BitVec.toInt_eq_toNat_cond, Nat.pow_succ]
  split <;> omega

/-- How any instruction ends: one line per constructor, by its shape. -/
theorem exec_ends (i : Instr) (s : State) : Ends i s i.size (exec i s) := by
  cases i with
  | lui rd imm20 => rw [exec_lui]; exact ends_writeUpper rfl rfl _ _ _
  | auipc rd imm20 => rw [exec_auipc]; exact ends_writeUpper rfl rfl _ _ _
  | jal rd imm => rw [exec_jal]; exact ends_jumpPc rfl rfl (fun h => by simp [Instr.wellFormed, Instr.gate, Instr.fieldsOk, multipleOf] at h; exact toInt_even (by norm_num) _ (by omega)) _ _ _ (State.pcRelative_signed s imm)
  | jalr rd rs1 imm => rw [exec_jalr]; exact ends_jumpReg (off := imm.toInt) rfl rfl rfl _ _ _ (by rw [signedOperand_eq, State.jalrTarget_eq])
  | beq rs1 rs2 imm => rw [exec_beq]; exact ends_branch rfl rfl (fun h => by simp [Instr.wellFormed, Instr.gate, Instr.fieldsOk, multipleOf] at h; exact toInt_even (by norm_num) _ (by omega)) _ _ _ (State.pcRelative_signed s imm)
  | bne rs1 rs2 imm => rw [exec_bne]; exact ends_branch rfl rfl (fun h => by simp [Instr.wellFormed, Instr.gate, Instr.fieldsOk, multipleOf] at h; exact toInt_even (by norm_num) _ (by omega)) _ _ _ (State.pcRelative_signed s imm)
  | blt rs1 rs2 imm => rw [exec_blt]; exact ends_branch rfl rfl (fun h => by simp [Instr.wellFormed, Instr.gate, Instr.fieldsOk, multipleOf] at h; exact toInt_even (by norm_num) _ (by omega)) _ _ _ (State.pcRelative_signed s imm)
  | bge rs1 rs2 imm => rw [exec_bge]; exact ends_branch rfl rfl (fun h => by simp [Instr.wellFormed, Instr.gate, Instr.fieldsOk, multipleOf] at h; exact toInt_even (by norm_num) _ (by omega)) _ _ _ (State.pcRelative_signed s imm)
  | bltu rs1 rs2 imm => rw [exec_bltu]; exact ends_branch rfl rfl (fun h => by simp [Instr.wellFormed, Instr.gate, Instr.fieldsOk, multipleOf] at h; exact toInt_even (by norm_num) _ (by omega)) _ _ _ (State.pcRelative_signed s imm)
  | bgeu rs1 rs2 imm => rw [exec_bgeu]; exact ends_branch rfl rfl (fun h => by simp [Instr.wellFormed, Instr.gate, Instr.fieldsOk, multipleOf] at h; exact toInt_even (by norm_num) _ (by omega)) _ _ _ (State.pcRelative_signed s imm)
  | lb rd rs1 imm => rw [exec_lb]; exact ends_loadInto rfl rfl _ _ _ _
  | lh rd rs1 imm => rw [exec_lh]; exact ends_loadInto rfl rfl _ _ _ _
  | lw rd rs1 imm => rw [exec_lw]; exact ends_loadInto rfl rfl _ _ _ _
  | ld rd rs1 imm => rw [exec_ld]; exact ends_loadInto rfl rfl _ _ _ _
  | lbu rd rs1 imm => rw [exec_lbu]; exact ends_loadInto rfl rfl _ _ _ _
  | lhu rd rs1 imm => rw [exec_lhu]; exact ends_loadInto rfl rfl _ _ _ _
  | lwu rd rs1 imm => rw [exec_lwu]; exact ends_loadInto rfl rfl _ _ _ _
  | sb rs1 rs2 imm => rw [exec_sb]; exact ends_storeFrom rfl rfl _ _
  | sh rs1 rs2 imm => rw [exec_sh]; exact ends_storeFrom rfl rfl _ _
  | sw rs1 rs2 imm => rw [exec_sw]; exact ends_storeFrom rfl rfl _ _
  | sd rs1 rs2 imm => rw [exec_sd]; exact ends_storeFrom rfl rfl _ _
  | addi rd rs1 imm => rw [exec_addi]; exact ends_opImm rfl rfl _ _ _
  | slti rd rs1 imm => rw [exec_slti]; exact ends_opImm rfl rfl _ _ _
  | sltiu rd rs1 imm => rw [exec_sltiu]; exact ends_opImm rfl rfl _ _ _
  | xori rd rs1 imm => rw [exec_xori]; exact ends_opImm rfl rfl _ _ _
  | ori rd rs1 imm => rw [exec_ori]; exact ends_opImm rfl rfl _ _ _
  | andi rd rs1 imm => rw [exec_andi]; exact ends_opImm rfl rfl _ _ _
  | slli32 rd rs1 shamt => rw [exec_slli32]; exact ends_opImm rfl rfl _ _ _
  | slli64 rd rs1 shamt => rw [exec_slli64]; exact ends_opImm rfl rfl _ _ _
  | srli32 rd rs1 shamt => rw [exec_srli32]; exact ends_opImm rfl rfl _ _ _
  | srli64 rd rs1 shamt => rw [exec_srli64]; exact ends_opImm rfl rfl _ _ _
  | srai32 rd rs1 shamt => rw [exec_srai32]; exact ends_opImm rfl rfl _ _ _
  | srai64 rd rs1 shamt => rw [exec_srai64]; exact ends_opImm rfl rfl _ _ _
  | add rd rs1 rs2 => rw [exec_add]; exact ends_opReg rfl rfl _ _ _
  | sub rd rs1 rs2 => rw [exec_sub]; exact ends_opReg rfl rfl _ _ _
  | sll rd rs1 rs2 => rw [exec_sll]; exact ends_opReg rfl rfl _ _ _
  | slt rd rs1 rs2 => rw [exec_slt]; exact ends_opReg rfl rfl _ _ _
  | sltu rd rs1 rs2 => rw [exec_sltu]; exact ends_opReg rfl rfl _ _ _
  | xor rd rs1 rs2 => rw [exec_xor]; exact ends_opReg rfl rfl _ _ _
  | srl rd rs1 rs2 => rw [exec_srl]; exact ends_opReg rfl rfl _ _ _
  | sra rd rs1 rs2 => rw [exec_sra]; exact ends_opReg rfl rfl _ _ _
  | or rd rs1 rs2 => rw [exec_or]; exact ends_opReg rfl rfl _ _ _
  | and rd rs1 rs2 => rw [exec_and]; exact ends_opReg rfl rfl _ _ _
  | fence fm pred succ rs1 rd => rw [exec_fence]; exact ends_noEffect rfl rfl _
  | ecall => rw [exec_ecall]; exact ends_systemStub rfl rfl rfl _
  | ebreak => rw [exec_ebreak]; exact ends_systemStub rfl rfl rfl _
  | csrrw rd rs1 csr => rw [exec_csrrw]; exact ends_systemStub rfl rfl rfl _
  | csrrs rd rs1 csr => rw [exec_csrrs]; exact ends_systemStub rfl rfl rfl _
  | csrrc rd rs1 csr => rw [exec_csrrc]; exact ends_systemStub rfl rfl rfl _
  | csrrwi rd uimm csr => rw [exec_csrrwi]; exact ends_systemStub rfl rfl rfl _
  | csrrsi rd uimm csr => rw [exec_csrrsi]; exact ends_systemStub rfl rfl rfl _
  | csrrci rd uimm csr => rw [exec_csrrci]; exact ends_systemStub rfl rfl rfl _
  | addiw rd rs1 imm => rw [exec_addiw]; exact ends_opImm rfl rfl _ _ _
  | slliw rd rs1 shamt => rw [exec_slliw]; exact ends_opImm rfl rfl _ _ _
  | srliw rd rs1 shamt => rw [exec_srliw]; exact ends_opImm rfl rfl _ _ _
  | sraiw rd rs1 shamt => rw [exec_sraiw]; exact ends_opImm rfl rfl _ _ _
  | addw rd rs1 rs2 => rw [exec_addw]; exact ends_opReg rfl rfl _ _ _
  | subw rd rs1 rs2 => rw [exec_subw]; exact ends_opReg rfl rfl _ _ _
  | sllw rd rs1 rs2 => rw [exec_sllw]; exact ends_opReg rfl rfl _ _ _
  | srlw rd rs1 rs2 => rw [exec_srlw]; exact ends_opReg rfl rfl _ _ _
  | sraw rd rs1 rs2 => rw [exec_sraw]; exact ends_opReg rfl rfl _ _ _
  | cAddi4spn rd nzuimm => rw [exec_cAddi4spn]; exact ends_opImm rfl rfl _ _ _
  | cLw rd rs1 uimm => rw [exec_cLw]; exact ends_loadInto rfl rfl _ _ _ _
  | cLd rd rs1 uimm => rw [exec_cLd]; exact ends_loadInto rfl rfl _ _ _ _
  | cSw rs1 rs2 uimm => rw [exec_cSw]; exact ends_storeFrom rfl rfl _ _
  | cSd rs1 rs2 uimm => rw [exec_cSd]; exact ends_storeFrom rfl rfl _ _
  | cNop imm => rw [exec_cNop]; exact ends_opImm rfl rfl _ _ _
  | cAddi rd imm => rw [exec_cAddi]; exact ends_opImm rfl rfl _ _ _
  | cJal imm => rw [exec_cJal]; exact ends_jumpPc rfl rfl (fun h => by simp [Instr.wellFormed, Instr.gate, Instr.fieldsOk, multipleOf] at h; exact toInt_even (by norm_num) _ (by omega)) _ _ _ (State.pcRelative_signed s imm)
  | cAddiw rd imm => rw [exec_cAddiw]; exact ends_opImm rfl rfl _ _ _
  | cLi rd imm => rw [exec_cLi]; exact ends_opImm rfl rfl _ _ _
  | cAddi16sp nzimm => rw [exec_cAddi16sp]; exact ends_opImm rfl rfl _ _ _
  | cLui rd nzimm => rw [exec_cLui]; exact ends_writeUpper rfl rfl _ _ _
  | cSrli rd shamt => rw [exec_cSrli]; exact ends_opImm rfl rfl _ _ _
  | cSrai rd shamt => rw [exec_cSrai]; exact ends_opImm rfl rfl _ _ _
  | cAndi rd imm => rw [exec_cAndi]; exact ends_opImm rfl rfl _ _ _
  | cSub rd rs2 => rw [exec_cSub]; exact ends_opReg rfl rfl _ _ _
  | cXor rd rs2 => rw [exec_cXor]; exact ends_opReg rfl rfl _ _ _
  | cOr rd rs2 => rw [exec_cOr]; exact ends_opReg rfl rfl _ _ _
  | cAnd rd rs2 => rw [exec_cAnd]; exact ends_opReg rfl rfl _ _ _
  | cSubw rd rs2 => rw [exec_cSubw]; exact ends_opReg rfl rfl _ _ _
  | cAddw rd rs2 => rw [exec_cAddw]; exact ends_opReg rfl rfl _ _ _
  | cJ imm => rw [exec_cJ]; exact ends_jumpPc rfl rfl (fun h => by simp [Instr.wellFormed, Instr.gate, Instr.fieldsOk, multipleOf] at h; exact toInt_even (by norm_num) _ (by omega)) _ _ _ (State.pcRelative_signed s imm)
  | cBeqz rs1 imm => rw [exec_cBeqz]; exact ends_branch rfl rfl (fun h => by simp [Instr.wellFormed, Instr.gate, Instr.fieldsOk, multipleOf] at h; exact toInt_even (by norm_num) _ (by omega)) _ _ _ (State.pcRelative_signed s imm)
  | cBnez rs1 imm => rw [exec_cBnez]; exact ends_branch rfl rfl (fun h => by simp [Instr.wellFormed, Instr.gate, Instr.fieldsOk, multipleOf] at h; exact toInt_even (by norm_num) _ (by omega)) _ _ _ (State.pcRelative_signed s imm)
  | cSlli rd shamt => rw [exec_cSlli]; exact ends_opImm rfl rfl _ _ _
  | cLwsp rd uimm => rw [exec_cLwsp]; exact ends_loadInto rfl rfl _ _ _ _
  | cLdsp rd uimm => rw [exec_cLdsp]; exact ends_loadInto rfl rfl _ _ _ _
  | cJr rs1 => rw [exec_cJr]; exact ends_jumpReg rfl rfl rfl _ _ _ (State.jalrTarget_zero s rs1)
  | cMv rd rs2 => rw [exec_cMv]; exact ends_opReg rfl rfl _ _ _
  | cEbreak => rw [exec_cEbreak]; exact ends_systemStub rfl rfl rfl _
  | cJalr rs1 => rw [exec_cJalr]; exact ends_jumpReg rfl rfl rfl _ _ _ (State.jalrTarget_zero s rs1)
  | cAdd rd rs2 => rw [exec_cAdd]; exact ends_opReg rfl rfl _ _ _
  | cSwsp rs2 uimm => rw [exec_cSwsp]; exact ends_storeFrom rfl rfl _ _
  | cSdsp rs2 uimm => rw [exec_cSdsp]; exact ends_storeFrom rfl rfl _ _

/-- Execution of an instruction always answers a next state: a fault is one too. -/
theorem exec_next (i : Instr) (s : State) : ∃ t, exec i s = .next t := by
  rcases exec_ends i s with ⟨u, -, -, -, h⟩ | ⟨c, -, h⟩ <;> exact ⟨_, h⟩

/-- The cases of a step that answers a next state. -/
theorem step_cases {s t : State} (h : step s = .next t) :
    s.cfg.valid = true ∧ s.halt = .running ∧
      ((∃ c, s.fetch = .error c ∧ t = s.haltWith c none) ∨
        (∃ raw e, s.fetch = .ok raw ∧ decode s.cfg raw.bits = .error e ∧
          t = (s.beginStep raw).raise .invalidEncoding) ∨
        ∃ raw i, s.fetch = .ok raw ∧ decode s.cfg raw.bits = .ok i ∧ exec i (s.beginStep raw) = .next t) := by
  unfold step at h
  split at h
  · rename_i hv
    refine ⟨hv, ?_⟩
    split at h
    · cases h
    · rename_i hr
      refine ⟨hr, ?_⟩
      split at h
      · rename_i c hf; cases h; exact .inl ⟨c, hf, rfl⟩
      · rename_i raw hf
        split at h
        · rename_i e hd; cases h; exact .inr (.inl ⟨raw, e, hf, hd, by rw [(decode_error hd).1]; rfl⟩)
        · rename_i i hd; exact .inr (.inr ⟨raw, i, hf, hd, h⟩)
  · cases h

/-- A running state with a valid configuration always takes a step. -/
theorem step_next (s : State) (hv : s.cfg.valid = true) (hr : s.halt = .running) : ∃ t, step s = .next t := by
  unfold step
  rw [if_pos hv, hr]
  simp only
  cases s.fetch with
  | error c => exact ⟨_, rfl⟩
  | ok raw =>
    simp only
    cases decode s.cfg raw.bits with
    | error e => exact ⟨_, rfl⟩
    | ok i => exact exec_next i _

/-- A fetch raises AccessFault(fetch) only. -/
theorem fetch_error {s : State} {c : Cause} (h : s.fetch = .error c) : ∃ a, c = .accessFault .fetch a := by
  unfold State.fetch at h
  simp only at h
  repeat' split at h
  all_goals first | (cases h; exact ⟨_, rfl⟩) | cases h

end Sys2Proof.Machine
end

