-- ==== Sys2Proof/Tests/Slice0.lean ====
section
/-! SUPPORT. Tests: ill-formed terms, every row's decoding from a word written from its fields, one-step vectors of
95_test_vectors.md, and a witness for the hypotheses of every statement that has some. -/

namespace Sys2Proof.Tests

open Sys2Proof Sys2Proof.Machine

/-! ### Configurations and launch states (95_test_vectors.md section 0) -/

def rv32 : Config := { Config.default with xlen := .rv32, cEnabled := false }
def rv64 : Config := { Config.default with cEnabled := false }
def rv32c : Config := { Config.default with xlen := .rv32 }
def rv64c : Config := Config.default
def strict (c : Config) : Config := { c with strictSystem := true }
def faulting (c : Config) : Config := { c with misalignedData := .fault }
def keepLsb (c : Config) : Config := { c with jalrClearLsb := false }
/-- MEM_ADMITS of LS-12: only [0, 0x1000) and [0xFFFFF000, 2^32). -/
def admitting (c : Config) : Config :=
  { c with refusedWindows := [⟨0x1000, 0xFFFFEFFF, 1⟩, ⟨0x1000, 0xFFFFEFFF, 2⟩, ⟨0x1000, 0xFFFFEFFF, 4⟩] }

/-- A launch state: the reset state at `pc`, with registers and memory bytes set. -/
def launch (c : Config) (pc : Word) (regs : List RegWrite) (cells : List Host.Cell) : State :=
  { State.resetWith { c with resetPc := pc } cells with regs := commitLog (Vector.replicate 32 0) regs }

/-- A 16-bit or 32-bit instruction's bytes at pc. -/
def placed (s : State) (raw : RawInsn) : State :=
  { s with mem := s.mem.store s.xlen s.pc (match raw.size with | .two => 2 | .four => 4) (raw.bits.setWidth 64) }

def word (s : State) (w : BitVec 32) : State := placed s (rawWord w)
def half (s : State) (h : BitVec 16) : State := placed s (rawHalf h)

/-- One step retires: the pc, the writes (in the record and in the registers) and the memory event (in the record and,
for a store, in memory). -/
def retires (s : State) (pc : Word) (writes : List RegWrite) (ev : Option MemEvent) : Bool :=
  match step s with
  | .next t =>
    t.halt == .running && t.pc == pc && t.order == 1 && t.trace.map (·.record) == [⟨writes, ev, s.pc, pc⟩]
      && writes.all (fun w => t.x w.index == w.value)
      && ev.all (fun e => e.kind == .load || t.mem.load t.xlen e.address e.granularity.bytes == e.data)
  | _ => false

/-- One step halts with the cause and changes nothing else. -/
def halts (s : State) (c : Cause) (raw : RawInsn) : Bool :=
  match step s with
  | .next t => t == { s with halt := .halted c s.pc (some raw) }
  | _ => false

/-! ### WellFormed refuses an ill-formed term for each of its checks -/

/-- Each gate, off (30_encoding.md R86). -/
theorem test_wf_gates :
    [Instr.wellFormed rv32c (.ld 1 2 0),
      Instr.wellFormed rv64c (.slli32 1 2 3),
      Instr.wellFormed rv32c (.srai64 1 2 3),
      Instr.wellFormed rv64 (.cLi 1 1),
      Instr.wellFormed rv32c (.cLd 8 9 8),
      Instr.wellFormed rv64 (.cSdsp 1 8),
      Instr.wellFormed rv64c (.cJal 2),
      Instr.wellFormed rv32 (.cJal 2)].all (· == false) = true := by decide

/-- An immediate that is no multiple of its scale (30_encoding.md R84). -/
theorem test_wf_scaled :
    [Instr.wellFormed rv32c (.jal 1 3),
      Instr.wellFormed rv32c (.beq 1 2 5),
      Instr.wellFormed rv32c (.bne 1 2 5),
      Instr.wellFormed rv32c (.blt 1 2 5),
      Instr.wellFormed rv32c (.bge 1 2 5),
      Instr.wellFormed rv32c (.bltu 1 2 5),
      Instr.wellFormed rv32c (.bgeu 1 2 5),
      Instr.wellFormed rv32c (.cAddi4spn 8 6),
      Instr.wellFormed rv32c (.cLw 8 8 2),
      Instr.wellFormed rv64c (.cLd 8 8 4),
      Instr.wellFormed rv32c (.cSw 8 8 2),
      Instr.wellFormed rv64c (.cSd 8 8 4),
      Instr.wellFormed rv32c (.cJal 3),
      Instr.wellFormed rv32c (.cAddi16sp 8),
      Instr.wellFormed rv32c (.cJ 1),
      Instr.wellFormed rv32c (.cBeqz 8 3),
      Instr.wellFormed rv32c (.cBnez 8 3),
      Instr.wellFormed rv32c (.cLwsp 1 2),
      Instr.wellFormed rv64c (.cLdsp 1 4),
      Instr.wellFormed rv32c (.cSwsp 1 2),
      Instr.wellFormed rv64c (.cSdsp 1 4)].all (· == false) = true := by decide

/-- A zero immediate or x0 where the row excludes it, and C.LUI of x2 (opcode_table.json). -/
theorem test_wf_zero :
    [Instr.wellFormed rv32c (.cAddi4spn 8 0),
      Instr.wellFormed rv32c (.cAddi 0 1),
      Instr.wellFormed rv64c (.cAddiw 0 1),
      Instr.wellFormed rv32c (.cAddi16sp 0),
      Instr.wellFormed rv32c (.cLui 2 1),
      Instr.wellFormed rv32c (.cLui 1 0),
      Instr.wellFormed rv32c (.cLwsp 0 4),
      Instr.wellFormed rv64c (.cLdsp 0 8),
      Instr.wellFormed rv32c (.cJr 0),
      Instr.wellFormed rv32c (.cJalr 0),
      Instr.wellFormed rv32c (.cMv 1 0),
      Instr.wellFormed rv32c (.cAdd 1 0)].all (· == false) = true := by decide

/-- A 6-bit shamt above 31 on RV32 (30_encoding.md R99). -/
theorem test_wf_shamt :
    [Instr.wellFormed rv32c (.cSrli 8 32),
      Instr.wellFormed rv32c (.cSrai 8 32),
      Instr.wellFormed rv32c (.cSlli 1 32)].all (· == false) = true := by decide

/-- A register no 3-bit field names (30_encoding.md R83). -/
theorem test_wf_creg :
    [Instr.wellFormed rv32c (.cAddi4spn 7 4),
      Instr.wellFormed rv32c (.cLw 16 8 4),
      Instr.wellFormed rv32c (.cLw 8 7 4),
      Instr.wellFormed rv64c (.cLd 16 8 8),
      Instr.wellFormed rv64c (.cLd 8 7 8),
      Instr.wellFormed rv32c (.cSw 7 8 4),
      Instr.wellFormed rv32c (.cSw 8 16 4),
      Instr.wellFormed rv64c (.cSd 7 8 8),
      Instr.wellFormed rv64c (.cSd 8 16 8),
      Instr.wellFormed rv32c (.cSrli 7 1),
      Instr.wellFormed rv32c (.cSrai 16 1),
      Instr.wellFormed rv32c (.cAndi 7 1),
      Instr.wellFormed rv32c (.cSub 7 8),
      Instr.wellFormed rv32c (.cSub 8 7),
      Instr.wellFormed rv32c (.cXor 7 8),
      Instr.wellFormed rv32c (.cXor 8 7),
      Instr.wellFormed rv32c (.cOr 7 8),
      Instr.wellFormed rv32c (.cOr 8 7),
      Instr.wellFormed rv32c (.cAnd 7 8),
      Instr.wellFormed rv32c (.cAnd 8 7),
      Instr.wellFormed rv64c (.cSubw 7 8),
      Instr.wellFormed rv64c (.cSubw 8 16),
      Instr.wellFormed rv64c (.cAddw 7 8),
      Instr.wellFormed rv64c (.cAddw 8 16),
      Instr.wellFormed rv32c (.cBeqz 7 2),
      Instr.wellFormed rv32c (.cBnez 16 2)].all (· == false) = true := by decide

/-- Well-formed terms at the edges of the same checks. -/
theorem test_wf_edges :
    [Instr.wellFormed rv32 (.slli32 1 2 31), Instr.wellFormed rv64 (.slli64 1 2 63), Instr.wellFormed rv32c (.cJal 0x800),
      Instr.wellFormed rv32c (.cSrli 15 31), Instr.wellFormed rv64c (.cSlli 0 63), Instr.wellFormed rv64c (.cLdsp 31 504),
      Instr.wellFormed rv32c (.cLui 0 1), Instr.wellFormed rv32c (.cAddi4spn 8 1020), Instr.wellFormed rv32c (.cMv 0 1),
      Instr.wellFormed rv32c (.cAddi16sp 0x200)].all id = true := by decide

/-! ### Every row decoded from a word written from its fields (opcode_table.json; 30_encoding.md R70, R71, R82 to R84) -/

theorem test_decode_lui : (decode rv32 0b11101001110110100101_10011_0110111#32).toOption = some (.lui 19 0xe9da5) := by
  decide
theorem test_decode_auipc : (decode rv32 0b11101001110110100101_10011_0010111#32).toOption = some (.auipc 19 0xe9da5) := by
  decide
theorem test_decode_jal : (decode rv32 0b1_1011010010_1_01101001_10011_1101111#32).toOption = some (.jal 19 0x169da4) := by
  decide
theorem test_decode_jalr : (decode rv32 0b110110100101_01010_000_10011_1100111#32).toOption = some (.jalr 19 10 0xda5) := by
  decide
theorem test_decode_beq : (decode rv32 0b1_101101_10101_01010_000_0010_1_1100011#32).toOption = some (.beq 10 21 0x1da4) := by
  decide
theorem test_decode_bne : (decode rv32 0b1_101101_10101_01010_001_0010_1_1100011#32).toOption = some (.bne 10 21 0x1da4) := by
  decide
theorem test_decode_blt : (decode rv32 0b1_101101_10101_01010_100_0010_1_1100011#32).toOption = some (.blt 10 21 0x1da4) := by
  decide
theorem test_decode_bge : (decode rv32 0b1_101101_10101_01010_101_0010_1_1100011#32).toOption = some (.bge 10 21 0x1da4) := by
  decide
theorem test_decode_bltu : (decode rv32 0b1_101101_10101_01010_110_0010_1_1100011#32).toOption = some (.bltu 10 21 0x1da4) := by
  decide
theorem test_decode_bgeu : (decode rv32 0b1_101101_10101_01010_111_0010_1_1100011#32).toOption = some (.bgeu 10 21 0x1da4) := by
  decide
theorem test_decode_lb : (decode rv32 0b110110100101_01010_000_10011_0000011#32).toOption = some (.lb 19 10 0xda5) := by
  decide
theorem test_decode_lh : (decode rv32 0b110110100101_01010_001_10011_0000011#32).toOption = some (.lh 19 10 0xda5) := by
  decide
theorem test_decode_lw : (decode rv32 0b110110100101_01010_010_10011_0000011#32).toOption = some (.lw 19 10 0xda5) := by
  decide
theorem test_decode_ld : (decode rv64 0b110110100101_01010_011_10011_0000011#32).toOption = some (.ld 19 10 0xda5) := by
  decide
theorem test_decode_lbu : (decode rv32 0b110110100101_01010_100_10011_0000011#32).toOption = some (.lbu 19 10 0xda5) := by
  decide
theorem test_decode_lhu : (decode rv32 0b110110100101_01010_101_10011_0000011#32).toOption = some (.lhu 19 10 0xda5) := by
  decide
theorem test_decode_lwu : (decode rv64 0b110110100101_01010_110_10011_0000011#32).toOption = some (.lwu 19 10 0xda5) := by
  decide
theorem test_decode_sb : (decode rv32 0b1101101_10101_01010_000_00101_0100011#32).toOption = some (.sb 10 21 0xda5) := by
  decide
theorem test_decode_sh : (decode rv32 0b1101101_10101_01010_001_00101_0100011#32).toOption = some (.sh 10 21 0xda5) := by
  decide
theorem test_decode_sw : (decode rv32 0b1101101_10101_01010_010_00101_0100011#32).toOption = some (.sw 10 21 0xda5) := by
  decide
theorem test_decode_sd : (decode rv64 0b1101101_10101_01010_011_00101_0100011#32).toOption = some (.sd 10 21 0xda5) := by
  decide
theorem test_decode_addi : (decode rv32 0b110110100101_01010_000_10011_0010011#32).toOption = some (.addi 19 10 0xda5) := by
  decide
theorem test_decode_slti : (decode rv32 0b110110100101_01010_010_10011_0010011#32).toOption = some (.slti 19 10 0xda5) := by
  decide
theorem test_decode_sltiu : (decode rv32 0b110110100101_01010_011_10011_0010011#32).toOption = some (.sltiu 19 10 0xda5) := by
  decide
theorem test_decode_xori : (decode rv32 0b110110100101_01010_100_10011_0010011#32).toOption = some (.xori 19 10 0xda5) := by
  decide
theorem test_decode_ori : (decode rv32 0b110110100101_01010_110_10011_0010011#32).toOption = some (.ori 19 10 0xda5) := by
  decide
theorem test_decode_andi : (decode rv32 0b110110100101_01010_111_10011_0010011#32).toOption = some (.andi 19 10 0xda5) := by
  decide
theorem test_decode_slli32 : (decode rv32 0b0000000_10101_01010_001_10011_0010011#32).toOption = some (.slli32 19 10 0x15) := by
  decide
theorem test_decode_slli64 : (decode rv64 0b000000_100101_01010_001_10011_0010011#32).toOption = some (.slli64 19 10 0x25) := by
  decide
theorem test_decode_srli32 : (decode rv32 0b0000000_10101_01010_101_10011_0010011#32).toOption = some (.srli32 19 10 0x15) := by
  decide
theorem test_decode_srli64 : (decode rv64 0b000000_100101_01010_101_10011_0010011#32).toOption = some (.srli64 19 10 0x25) := by
  decide
theorem test_decode_srai32 : (decode rv32 0b0100000_10101_01010_101_10011_0010011#32).toOption = some (.srai32 19 10 0x15) := by
  decide
theorem test_decode_srai64 : (decode rv64 0b010000_100101_01010_101_10011_0010011#32).toOption = some (.srai64 19 10 0x25) := by
  decide
theorem test_decode_add : (decode rv32 0b0000000_10101_01010_000_10011_0110011#32).toOption = some (.add 19 10 21) := by
  decide
theorem test_decode_sub : (decode rv32 0b0100000_10101_01010_000_10011_0110011#32).toOption = some (.sub 19 10 21) := by
  decide
theorem test_decode_sll : (decode rv32 0b0000000_10101_01010_001_10011_0110011#32).toOption = some (.sll 19 10 21) := by
  decide
theorem test_decode_slt : (decode rv32 0b0000000_10101_01010_010_10011_0110011#32).toOption = some (.slt 19 10 21) := by
  decide
theorem test_decode_sltu : (decode rv32 0b0000000_10101_01010_011_10011_0110011#32).toOption = some (.sltu 19 10 21) := by
  decide
theorem test_decode_xor : (decode rv32 0b0000000_10101_01010_100_10011_0110011#32).toOption = some (.xor 19 10 21) := by
  decide
theorem test_decode_srl : (decode rv32 0b0000000_10101_01010_101_10011_0110011#32).toOption = some (.srl 19 10 21) := by
  decide
theorem test_decode_sra : (decode rv32 0b0100000_10101_01010_101_10011_0110011#32).toOption = some (.sra 19 10 21) := by
  decide
theorem test_decode_or : (decode rv32 0b0000000_10101_01010_110_10011_0110011#32).toOption = some (.or 19 10 21) := by
  decide
theorem test_decode_and : (decode rv32 0b0000000_10101_01010_111_10011_0110011#32).toOption = some (.and 19 10 21) := by
  decide
theorem test_decode_fence : (decode rv32 0b100000110001_01010_000_10011_0001111#32).toOption = some (.fence 0x8 0x3 0x1 10 19) := by
  decide
theorem test_decode_ecall : (decode rv32 0b000000000000_00000_000_00000_1110011#32).toOption = some .ecall := by
  decide
theorem test_decode_ebreak : (decode rv32 0b000000000001_00000_000_00000_1110011#32).toOption = some .ebreak := by
  decide
theorem test_decode_csrrw : (decode rv64 0b110110100101_01010_001_10011_1110011#32).toOption = some (.csrrw 19 10 0xda5) := by
  decide
theorem test_decode_csrrs : (decode rv64 0b110110100101_01010_010_10011_1110011#32).toOption = some (.csrrs 19 10 0xda5) := by
  decide
theorem test_decode_csrrc : (decode rv64 0b110110100101_01010_011_10011_1110011#32).toOption = some (.csrrc 19 10 0xda5) := by
  decide
theorem test_decode_csrrwi : (decode rv64 0b110110100101_10101_101_10011_1110011#32).toOption = some (.csrrwi 19 0x15 0xda5) := by
  decide
theorem test_decode_csrrsi : (decode rv64 0b110110100101_10101_110_10011_1110011#32).toOption = some (.csrrsi 19 0x15 0xda5) := by
  decide
theorem test_decode_csrrci : (decode rv64 0b110110100101_10101_111_10011_1110011#32).toOption = some (.csrrci 19 0x15 0xda5) := by
  decide
theorem test_decode_addiw : (decode rv64 0b110110100101_01010_000_10011_0011011#32).toOption = some (.addiw 19 10 0xda5) := by
  decide
theorem test_decode_slliw : (decode rv64 0b0000000_10101_01010_001_10011_0011011#32).toOption = some (.slliw 19 10 0x15) := by
  decide
theorem test_decode_srliw : (decode rv64 0b0000000_10101_01010_101_10011_0011011#32).toOption = some (.srliw 19 10 0x15) := by
  decide
theorem test_decode_sraiw : (decode rv64 0b0100000_10101_01010_101_10011_0011011#32).toOption = some (.sraiw 19 10 0x15) := by
  decide
theorem test_decode_addw : (decode rv64 0b0000000_10101_01010_000_10011_0111011#32).toOption = some (.addw 19 10 21) := by
  decide
theorem test_decode_subw : (decode rv64 0b0100000_10101_01010_000_10011_0111011#32).toOption = some (.subw 19 10 21) := by
  decide
theorem test_decode_sllw : (decode rv64 0b0000000_10101_01010_001_10011_0111011#32).toOption = some (.sllw 19 10 21) := by
  decide
theorem test_decode_srlw : (decode rv64 0b0000000_10101_01010_101_10011_0111011#32).toOption = some (.srlw 19 10 21) := by
  decide
theorem test_decode_sraw : (decode rv64 0b0100000_10101_01010_101_10011_0111011#32).toOption = some (.sraw 19 10 21) := by
  decide
theorem test_decode_cAddi4spn : (decode rv64c (BitVec.setWidth 32 0b000_10111010_001_00#16)).toOption = some (.cAddi4spn 9 0x3a4) := by
  decide
theorem test_decode_cLw : (decode rv64c (BitVec.setWidth 32 0b010_100_100_11_001_00#16)).toOption = some (.cLw 9 12 0x64) := by
  decide
theorem test_decode_cLd : (decode rv64c (BitVec.setWidth 32 0b011_100_100_10_001_00#16)).toOption = some (.cLd 9 12 0xa0) := by
  decide
theorem test_decode_cSw : (decode rv64c (BitVec.setWidth 32 0b110_100_100_11_110_00#16)).toOption = some (.cSw 12 14 0x64) := by
  decide
theorem test_decode_cSd : (decode rv64c (BitVec.setWidth 32 0b111_100_100_10_110_00#16)).toOption = some (.cSd 12 14 0xa0) := by
  decide
theorem test_decode_cNop : (decode rv64c (BitVec.setWidth 32 0b000_1_00000_00101_01#16)).toOption = some (.cNop 0x25) := by
  decide
theorem test_decode_cAddi : (decode rv64c (BitVec.setWidth 32 0b000_1_01001_00101_01#16)).toOption = some (.cAddi 9 0x25) := by
  decide
theorem test_decode_cJal : (decode rv32c (BitVec.setWidth 32 0b001_10011010101_01#16)).toOption = some (.cJal 0xda4) := by
  decide
theorem test_decode_cAddiw : (decode rv64c (BitVec.setWidth 32 0b001_1_01001_00101_01#16)).toOption = some (.cAddiw 9 0x25) := by
  decide
theorem test_decode_cLi : (decode rv64c (BitVec.setWidth 32 0b010_1_01001_00101_01#16)).toOption = some (.cLi 9 0x25) := by
  decide
theorem test_decode_cAddi16sp : (decode rv64c (BitVec.setWidth 32 0b011_1_00010_00111_01#16)).toOption = some (.cAddi16sp 0x3a0) := by
  decide
theorem test_decode_cLui : (decode rv64c (BitVec.setWidth 32 0b011_1_01001_00101_01#16)).toOption = some (.cLui 9 0x25) := by
  decide
theorem test_decode_cSrli : (decode rv64c (BitVec.setWidth 32 0b100_1_00_001_00101_01#16)).toOption = some (.cSrli 9 0x25) := by
  decide
theorem test_decode_cSrai : (decode rv64c (BitVec.setWidth 32 0b100_1_01_001_00101_01#16)).toOption = some (.cSrai 9 0x25) := by
  decide
theorem test_decode_cAndi : (decode rv64c (BitVec.setWidth 32 0b100_1_10_001_00101_01#16)).toOption = some (.cAndi 9 0x25) := by
  decide
theorem test_decode_cSub : (decode rv64c (BitVec.setWidth 32 0b100011_001_00_110_01#16)).toOption = some (.cSub 9 14) := by
  decide
theorem test_decode_cXor : (decode rv64c (BitVec.setWidth 32 0b100011_001_01_110_01#16)).toOption = some (.cXor 9 14) := by
  decide
theorem test_decode_cOr : (decode rv64c (BitVec.setWidth 32 0b100011_001_10_110_01#16)).toOption = some (.cOr 9 14) := by
  decide
theorem test_decode_cAnd : (decode rv64c (BitVec.setWidth 32 0b100011_001_11_110_01#16)).toOption = some (.cAnd 9 14) := by
  decide
theorem test_decode_cSubw : (decode rv64c (BitVec.setWidth 32 0b100111_001_00_110_01#16)).toOption = some (.cSubw 9 14) := by
  decide
theorem test_decode_cAddw : (decode rv64c (BitVec.setWidth 32 0b100111_001_01_110_01#16)).toOption = some (.cAddw 9 14) := by
  decide
theorem test_decode_cJ : (decode rv64c (BitVec.setWidth 32 0b101_10011010101_01#16)).toOption = some (.cJ 0xda4) := by
  decide
theorem test_decode_cBeqz : (decode rv64c (BitVec.setWidth 32 0b110_100_100_10101_01#16)).toOption = some (.cBeqz 12 0x1a4) := by
  decide
theorem test_decode_cBnez : (decode rv64c (BitVec.setWidth 32 0b111_100_100_10101_01#16)).toOption = some (.cBnez 12 0x1a4) := by
  decide
theorem test_decode_cSlli : (decode rv64c (BitVec.setWidth 32 0b000_1_01001_00101_10#16)).toOption = some (.cSlli 9 0x25) := by
  decide
theorem test_decode_cLwsp : (decode rv64c (BitVec.setWidth 32 0b010_1_01001_00110_10#16)).toOption = some (.cLwsp 9 0xa4) := by
  decide
theorem test_decode_cLdsp : (decode rv64c (BitVec.setWidth 32 0b011_1_01001_00110_10#16)).toOption = some (.cLdsp 9 0x1a0) := by
  decide
theorem test_decode_cJr : (decode rv64c (BitVec.setWidth 32 0b1000_01100_00000_10#16)).toOption = some (.cJr 12) := by
  decide
theorem test_decode_cMv : (decode rv64c (BitVec.setWidth 32 0b1000_01001_01110_10#16)).toOption = some (.cMv 9 14) := by
  decide
theorem test_decode_cEbreak : (decode rv64c (BitVec.setWidth 32 0b1001_00000_00000_10#16)).toOption = some .cEbreak := by
  decide
theorem test_decode_cJalr : (decode rv64c (BitVec.setWidth 32 0b1001_01100_00000_10#16)).toOption = some (.cJalr 12) := by
  decide
theorem test_decode_cAdd : (decode rv64c (BitVec.setWidth 32 0b1001_01001_01110_10#16)).toOption = some (.cAdd 9 14) := by
  decide
theorem test_decode_cSwsp : (decode rv64c (BitVec.setWidth 32 0b110_100110_01110_10#16)).toOption = some (.cSwsp 14 0xa4) := by
  decide
theorem test_decode_cSdsp : (decode rv64c (BitVec.setWidth 32 0b111_100110_01110_10#16)).toOption = some (.cSdsp 14 0x1a0) := by
  decide

/-! ### One step, from 95_test_vectors.md (the vector's id in the name) -/

/-- The bytes LS-1 starts from. -/
def loadBytes : List Host.Cell :=
  [(0x100, 0x80), (0x101, 0x7F), (0x102, 0x01), (0x103, 0xFF), (0x104, 0x78), (0x105, 0x56), (0x106, 0x34), (0x107, 0x12)]

/-- addi x1, x1, 1 (signed overflow wraps) -/
theorem test_ALU_2 :
    retires (word (launch rv32c 0x0 [⟨1, 0x7FFFFFFF⟩] []) 0x108093) 0x4 [⟨1, 0x80000000⟩] none = true := by
  decide
/-- addi x0, x1, 5 (HINT: rd = x0) -/
theorem test_ALU_5 :
    retires (word (launch rv32c 0x0 [⟨1, 0x9⟩] []) 0x508013) 0x4 [] none = true := by
  decide
/-- slti x2, x1, 0 -/
theorem test_ALU_6 :
    retires (word (launch rv32c 0x0 [⟨1, 0xFFFFFFFF⟩] []) 0xA113) 0x4 [⟨2, 0x1⟩] none = true := by
  decide
/-- slti x2, x1, 0 -/
theorem test_ALU_7 :
    retires (word (launch rv32c 0x0 [⟨1, 0x7FFFFFFF⟩] []) 0xA113) 0x4 [⟨2, 0x0⟩] none = true := by
  decide
/-- sltiu x2, x1, -1 (imm sign-extended, then unsigned) -/
theorem test_ALU_10 :
    retires (word (launch rv32c 0x0 [⟨1, 0x5⟩] []) 0xFFF0B113) 0x4 [⟨2, 0x1⟩] none = true := by
  decide
/-- xori x2, x1, -1 (not) -/
theorem test_ALU_11 :
    retires (word (launch rv32c 0x0 [⟨1, 0xF0F0F0F⟩] []) 0xFFF0C113) 0x4 [⟨2, 0xF0F0F0F0⟩] none = true := by
  decide
/-- ori x2, x1, -2048 -/
theorem test_ALU_12 :
    retires (word (launch rv32c 0x0 [⟨1, 0x1⟩] []) 0x8000E113) 0x4 [⟨2, 0xFFFFF801⟩] none = true := by
  decide
/-- andi x2, x1, 255 -/
theorem test_ALU_13 :
    retires (word (launch rv32c 0x0 [⟨1, 0x12345678⟩] []) 0xFF0F113) 0x4 [⟨2, 0x78⟩] none = true := by
  decide
/-- slli x2, x1, 31 -/
theorem test_ALU_14 :
    retires (word (launch rv32c 0x0 [⟨1, 0x3⟩] []) 0x1F09113) 0x4 [⟨2, 0x80000000⟩] none = true := by
  decide
/-- srli x2, x1, 31 -/
theorem test_ALU_15 :
    retires (word (launch rv32c 0x0 [⟨1, 0x80000000⟩] []) 0x1F0D113) 0x4 [⟨2, 0x1⟩] none = true := by
  decide
/-- srai x2, x1, 31 -/
theorem test_ALU_16 :
    retires (word (launch rv32c 0x0 [⟨1, 0x80000000⟩] []) 0x41F0D113) 0x4 [⟨2, 0xFFFFFFFF⟩] none = true := by
  decide
/-- add x3, x1, x2 -/
theorem test_ALU_17 :
    retires (word (launch rv32c 0x0 [⟨1, 0xFFFFFFFF⟩, ⟨2, 0x1⟩] []) 0x2081B3) 0x4 [⟨3, 0x0⟩] none = true := by
  decide
/-- add x1, x1, x1 (rd = rs1 = rs2) -/
theorem test_ALU_18 :
    retires (word (launch rv32c 0x0 [⟨1, 0x3⟩] []) 0x1080B3) 0x4 [⟨1, 0x6⟩] none = true := by
  decide
/-- sub x3, x1, x2 -/
theorem test_ALU_19 :
    retires (word (launch rv32c 0x0 [⟨1, 0x0⟩, ⟨2, 0x1⟩] []) 0x402081B3) 0x4 [⟨3, 0xFFFFFFFF⟩] none = true := by
  decide
/-- sub x3, x1, x2 (most negative minus 1) -/
theorem test_ALU_20 :
    retires (word (launch rv32c 0x0 [⟨1, 0x80000000⟩, ⟨2, 0x1⟩] []) 0x402081B3) 0x4 [⟨3, 0x7FFFFFFF⟩] none = true := by
  decide
/-- sll x3, x1, x2 (amount 33 masked to 1) -/
theorem test_ALU_21 :
    retires (word (launch rv32c 0x0 [⟨1, 0x1⟩, ⟨2, 0x21⟩] []) 0x2091B3) 0x4 [⟨3, 0x2⟩] none = true := by
  decide
/-- slt x3, x1, x2 -/
theorem test_ALU_22 :
    retires (word (launch rv32c 0x0 [⟨1, 0xFFFFFFFF⟩, ⟨2, 0x1⟩] []) 0x20A1B3) 0x4 [⟨3, 0x1⟩] none = true := by
  decide
/-- sltu x3, x1, x2 -/
theorem test_ALU_23 :
    retires (word (launch rv32c 0x0 [⟨1, 0xFFFFFFFF⟩, ⟨2, 0x1⟩] []) 0x20B1B3) 0x4 [⟨3, 0x0⟩] none = true := by
  decide
/-- sltu x3, x0, x2 (snez) -/
theorem test_ALU_24 :
    retires (word (launch rv32c 0x0 [⟨2, 0x7⟩] []) 0x2031B3) 0x4 [⟨3, 0x1⟩] none = true := by
  decide
/-- xor x3, x1, x2 -/
theorem test_ALU_25 :
    retires (word (launch rv32c 0x0 [⟨1, 0xFF00FF00⟩, ⟨2, 0xFF00FF0⟩] []) 0x20C1B3) 0x4 [⟨3, 0xF0F0F0F0⟩] none = true := by
  decide
/-- srl x3, x1, x2 -/
theorem test_ALU_26 :
    retires (word (launch rv32c 0x0 [⟨1, 0x80000000⟩, ⟨2, 0x1F⟩] []) 0x20D1B3) 0x4 [⟨3, 0x1⟩] none = true := by
  decide
/-- srl x3, x1, x2 (amount 32 masked to 0) -/
theorem test_ALU_27 :
    retires (word (launch rv32c 0x0 [⟨1, 0x80000000⟩, ⟨2, 0x20⟩] []) 0x20D1B3) 0x4 [⟨3, 0x80000000⟩] none = true := by
  decide
/-- sra x3, x1, x2 -/
theorem test_ALU_28 :
    retires (word (launch rv32c 0x0 [⟨1, 0x80000000⟩, ⟨2, 0x1F⟩] []) 0x4020D1B3) 0x4 [⟨3, 0xFFFFFFFF⟩] none = true := by
  decide
/-- or x3, x1, x2 -/
theorem test_ALU_29 :
    retires (word (launch rv32c 0x0 [⟨1, 0xF0⟩, ⟨2, 0xF⟩] []) 0x20E1B3) 0x4 [⟨3, 0xFF⟩] none = true := by
  decide
/-- and x3, x1, x2 -/
theorem test_ALU_30 :
    retires (word (launch rv32c 0x0 [⟨1, 0xF0⟩, ⟨2, 0x3C⟩] []) 0x20F1B3) 0x4 [⟨3, 0x30⟩] none = true := by
  decide
/-- lui x1, 0xFFFFF -/
theorem test_ALU_32 :
    retires (word (launch rv32c 0x0 [] []) 0xFFFFF0B7) 0x4 [⟨1, 0xFFFFF000⟩] none = true := by
  decide
/-- auipc x1, 0xFFFFF (wraps below 0) -/
theorem test_ALU_34 :
    retires (word (launch rv32c 0x100 [] []) 0xFFFFF097) 0x104 [⟨1, 0xFFFFF100⟩] none = true := by
  decide
/-- lui x1, 0x80000 (sign-extended) -/
theorem test_A64_1 :
    retires (word (launch rv64c 0x0 [] []) 0x800000B7) 0x4 [⟨1, 0xFFFFFFFF80000000⟩] none = true := by
  decide
/-- auipc x1, 0x80000 -/
theorem test_A64_2 :
    retires (word (launch rv64c 0x1000 [] []) 0x80000097) 0x1004 [⟨1, 0xFFFFFFFF80001000⟩] none = true := by
  decide
/-- slli x2, x1, 32 (6-bit shamt) -/
theorem test_A64_4 :
    retires (word (launch rv64c 0x0 [⟨1, 0x1⟩] []) 0x2009113) 0x4 [⟨2, 0x100000000⟩] none = true := by
  decide
/-- srli x2, x1, 63 -/
theorem test_A64_5 :
    retires (word (launch rv64c 0x0 [⟨1, 0x8000000000000000⟩] []) 0x3F0D113) 0x4 [⟨2, 0x1⟩] none = true := by
  decide
/-- srai x2, x1, 63 -/
theorem test_A64_6 :
    retires (word (launch rv64c 0x0 [⟨1, 0x8000000000000000⟩] []) 0x43F0D113) 0x4 [⟨2, 0xFFFFFFFFFFFFFFFF⟩] none = true := by
  decide
/-- sll x3, x1, x2 (amount 33) -/
theorem test_A64_7 :
    retires (word (launch rv64c 0x0 [⟨1, 0x1⟩, ⟨2, 0x21⟩] []) 0x2091B3) 0x4 [⟨3, 0x200000000⟩] none = true := by
  decide
/-- sltiu x2, x1, -1 -/
theorem test_A64_9 :
    retires (word (launch rv64c 0x0 [⟨1, 0xFFFFFFFF⟩] []) 0xFFF0B113) 0x4 [⟨2, 0x1⟩] none = true := by
  decide
/-- addiw x2, x1, 1 -/
theorem test_A64_10 :
    retires (word (launch rv64c 0x0 [⟨1, 0x7FFFFFFF⟩] []) 0x10811B) 0x4 [⟨2, 0xFFFFFFFF80000000⟩] none = true := by
  decide
/-- addiw x2, x1, 0 (sext.w) -/
theorem test_A64_11 :
    retires (word (launch rv64c 0x0 [⟨1, 0x123456789ABCDEF0⟩] []) 0x811B) 0x4 [⟨2, 0xFFFFFFFF9ABCDEF0⟩] none = true := by
  decide
/-- slliw x2, x1, 31 -/
theorem test_A64_12 :
    retires (word (launch rv64c 0x0 [⟨1, 0x1⟩] []) 0x1F0911B) 0x4 [⟨2, 0xFFFFFFFF80000000⟩] none = true := by
  decide
/-- srliw x2, x1, 31 -/
theorem test_A64_13 :
    retires (word (launch rv64c 0x0 [⟨1, 0xFFFFFFFF80000000⟩] []) 0x1F0D11B) 0x4 [⟨2, 0x1⟩] none = true := by
  decide
/-- srliw x2, x1, 0 (result sign-extended) -/
theorem test_A64_14 :
    retires (word (launch rv64c 0x0 [⟨1, 0x80000000⟩] []) 0xD11B) 0x4 [⟨2, 0xFFFFFFFF80000000⟩] none = true := by
  decide
/-- sraiw x2, x1, 1 -/
theorem test_A64_15 :
    retires (word (launch rv64c 0x0 [⟨1, 0x80000000⟩] []) 0x4010D11B) 0x4 [⟨2, 0xFFFFFFFFC0000000⟩] none = true := by
  decide
/-- addw x3, x1, x2 -/
theorem test_A64_16 :
    retires (word (launch rv64c 0x0 [⟨1, 0x7FFFFFFF⟩, ⟨2, 0x1⟩] []) 0x2081BB) 0x4 [⟨3, 0xFFFFFFFF80000000⟩] none = true := by
  decide
/-- addw x3, x1, x2 (upper bits ignored) -/
theorem test_A64_17 :
    retires (word (launch rv64c 0x0 [⟨1, 0xFFFFFFFF00000001⟩, ⟨2, 0x100000001⟩] []) 0x2081BB) 0x4 [⟨3, 0x2⟩] none = true := by
  decide
/-- subw x3, x1, x2 -/
theorem test_A64_18 :
    retires (word (launch rv64c 0x0 [⟨1, 0x0⟩, ⟨2, 0x1⟩] []) 0x402081BB) 0x4 [⟨3, 0xFFFFFFFFFFFFFFFF⟩] none = true := by
  decide
/-- sllw x3, x1, x2 (amount 63 masked to 31) -/
theorem test_A64_19 :
    retires (word (launch rv64c 0x0 [⟨1, 0x1⟩, ⟨2, 0x3F⟩] []) 0x2091BB) 0x4 [⟨3, 0xFFFFFFFF80000000⟩] none = true := by
  decide
/-- srlw x3, x1, x2 -/
theorem test_A64_20 :
    retires (word (launch rv64c 0x0 [⟨1, 0xFFFFFFFFFFFFFFFF⟩, ⟨2, 0x4⟩] []) 0x20D1BB) 0x4 [⟨3, 0xFFFFFFF⟩] none = true := by
  decide
/-- sraw x3, x1, x2 -/
theorem test_A64_21 :
    retires (word (launch rv64c 0x0 [⟨1, 0x80000000⟩, ⟨2, 0x4⟩] []) 0x4020D1BB) 0x4 [⟨3, 0xFFFFFFFFF8000000⟩] none = true := by
  decide
/-- jal x0, 8 at the top of memory (target wraps) -/
theorem test_CT_2 :
    retires (word (launch rv32c 0xFFFFFFFC [] []) 0x80006F) 0x4 [] none = true := by
  decide
/-- jal x0, 2 (target not 4-aligned, C disabled) -/
theorem test_CT_3 :
    halts (word (launch rv32 0x0 [] []) 0x20006F) (.misalignedTarget 0x2) (rawWord 0x20006F) = true := by
  decide
/-- jalr x1, 4(x1) (rd = rs1: old x1 used) -/
theorem test_CT_6 :
    retires (word (launch rv32c 0x40 [⟨1, 0x200⟩] []) 0x4080E7) 0x204 [⟨1, 0x44⟩] none = true := by
  decide
/-- jalr x1, 1(x1), JALR_CLEAR_LSB = false -/
theorem test_CT_8 :
    halts (word (launch (keepLsb rv32c) 0x40 [⟨1, 0x200⟩] []) 0x1080E7) (.misalignedTarget 0x201) (rawWord 0x1080E7) = true := by
  decide
/-- beq x1, x2, 8 (§8 scenario 4) -/
theorem test_CT_12 :
    retires (word (launch rv32c 0x0 [⟨1, 0x5⟩, ⟨2, 0x5⟩] []) 0x208463) 0x8 [] none = true := by
  decide
/-- bne x1, x2, -4 -/
theorem test_CT_13 :
    retires (word (launch rv32c 0x100 [⟨1, 0x1⟩, ⟨2, 0x2⟩] []) 0xFE209EE3) 0xFC [] none = true := by
  decide
/-- bne x1, x2, -4 (equal, not taken) -/
theorem test_CT_14 :
    retires (word (launch rv32c 0x100 [⟨1, 0x2⟩, ⟨2, 0x2⟩] []) 0xFE209EE3) 0x104 [] none = true := by
  decide
/-- blt x1, x2, 8 (signed: -1 < 1) -/
theorem test_CT_15 :
    retires (word (launch rv32c 0x100 [⟨1, 0xFFFFFFFF⟩, ⟨2, 0x1⟩] []) 0x20C463) 0x108 [] none = true := by
  decide
/-- bge x1, x2, 8 (signed: -1 < 1, not taken) -/
theorem test_CT_16 :
    retires (word (launch rv32c 0x100 [⟨1, 0xFFFFFFFF⟩, ⟨2, 0x1⟩] []) 0x20D463) 0x104 [] none = true := by
  decide
/-- bge x1, x2, 8 (equal is taken) -/
theorem test_CT_17 :
    retires (word (launch rv32c 0x100 [⟨1, 0x7⟩, ⟨2, 0x7⟩] []) 0x20D463) 0x108 [] none = true := by
  decide
/-- bltu x1, x2, 8 (unsigned: 0xFFFFFFFF > 1, not taken) -/
theorem test_CT_18 :
    retires (word (launch rv32c 0x100 [⟨1, 0xFFFFFFFF⟩, ⟨2, 0x1⟩] []) 0x20E463) 0x104 [] none = true := by
  decide
/-- bgeu x1, x2, 8 (unsigned, taken) -/
theorem test_CT_19 :
    retires (word (launch rv32c 0x100 [⟨1, 0xFFFFFFFF⟩, ⟨2, 0x1⟩] []) 0x20F463) 0x108 [] none = true := by
  decide
/-- beq x0, x0, 2 (C disabled: misaligned) -/
theorem test_CT_20 :
    halts (word (launch rv32 0x100 [] []) 0x163) (.misalignedTarget 0x102) (rawWord 0x163) = true := by
  decide
/-- lb x1, 0(x2) -/
theorem test_LS_1 :
    retires (word (launch rv32c 0x0 [⟨2, 0x100⟩] loadBytes) 0x10083) 0x4 [⟨1, 0xFFFFFF80⟩] (some ⟨.load, .byte, 0x100, 0x80⟩) = true := by
  decide
/-- lbu x1, 0(x2) -/
theorem test_LS_2 :
    retires (word (launch rv32c 0x0 [⟨2, 0x100⟩] loadBytes) 0x14083) 0x4 [⟨1, 0x80⟩] (some ⟨.load, .byte, 0x100, 0x80⟩) = true := by
  decide
/-- lh x1, 0(x2) -/
theorem test_LS_3 :
    retires (word (launch rv32c 0x0 [⟨2, 0x100⟩] loadBytes) 0x11083) 0x4 [⟨1, 0x7F80⟩] (some ⟨.load, .half, 0x100, 0x7F80⟩) = true := by
  decide
/-- lh x1, 2(x2) -/
theorem test_LS_4 :
    retires (word (launch rv32c 0x0 [⟨2, 0x100⟩] loadBytes) 0x211083) 0x4 [⟨1, 0xFFFFFF01⟩] (some ⟨.load, .half, 0x102, 0xFF01⟩) = true := by
  decide
/-- lhu x1, 2(x2) -/
theorem test_LS_5 :
    retires (word (launch rv32c 0x0 [⟨2, 0x100⟩] loadBytes) 0x215083) 0x4 [⟨1, 0xFF01⟩] (some ⟨.load, .half, 0x102, 0xFF01⟩) = true := by
  decide
/-- lw x1, 1(x2), MISALIGNED_DATA = fault -/
theorem test_LS_9 :
    halts (word (launch (faulting rv32c) 0x0 [⟨2, 0x100⟩] loadBytes) 0x112083) (.misalignedAccess 0x101) (rawWord 0x112083) = true := by
  decide
/-- lw x1, 0(x2), RV64 -/
theorem test_LS_13 :
    retires (word (launch rv64c 0x0 [⟨2, 0x100⟩] loadBytes) 0x12083) 0x4 [⟨1, 0xFFFFFFFFFF017F80⟩] (some ⟨.load, .word, 0x100, 0xFF017F80⟩) = true := by
  decide
/-- lwu x1, 0(x2), RV64 -/
theorem test_LS_14 :
    retires (word (launch rv64c 0x0 [⟨2, 0x100⟩] loadBytes) 0x16083) 0x4 [⟨1, 0xFF017F80⟩] (some ⟨.load, .word, 0x100, 0xFF017F80⟩) = true := by
  decide
/-- ld x1, 0(x2), RV64 -/
theorem test_LS_15 :
    retires (word (launch rv64c 0x0 [⟨2, 0x100⟩] loadBytes) 0x13083) 0x4 [⟨1, 0x12345678FF017F80⟩] (some ⟨.load, .double, 0x100, 0x12345678FF017F80⟩) = true := by
  decide
/-- sb x1, 1(x2) -/
theorem test_LS_16 :
    retires (word (launch rv32c 0x0 [⟨1, 0xABCD⟩, ⟨2, 0x100⟩] []) 0x1100A3) 0x4 [] (some ⟨.store, .byte, 0x101, 0xCD⟩) = true := by
  decide
/-- sh x1, 2(x2) -/
theorem test_LS_17 :
    retires (word (launch rv32c 0x0 [⟨1, 0xABCD⟩, ⟨2, 0x100⟩] []) 0x111123) 0x4 [] (some ⟨.store, .half, 0x102, 0xABCD⟩) = true := by
  decide
/-- sw x1, -4(x0) (address wraps to 0xFFFFFFFC) -/
theorem test_LS_19 :
    retires (word (launch (admitting rv32c) 0x10 [⟨1, 0x11223344⟩] []) 0xFE102E23) 0x14 [] (some ⟨.store, .word, 0xFFFFFFFC, 0x11223344⟩) = true := by
  decide
/-- sw x1, 0(x2), address refused -/
theorem test_LS_21 :
    halts (word (launch (admitting rv32c) 0x0 [⟨1, 0x5⟩, ⟨2, 0x3000⟩] []) 0x112023) (.accessFault .store 0x3000) (rawWord 0x112023) = true := by
  decide
/-- sd x1, 8(x2), RV64 -/
theorem test_LS_22 :
    retires (word (launch rv64c 0x0 [⟨1, 0x1122334455667788⟩, ⟨2, 0x100⟩] []) 0x113423) 0x4 [] (some ⟨.store, .double, 0x108, 0x1122334455667788⟩) = true := by
  decide
/-- fence (pred=0, succ=0, rd=x1: reserved fields) -/
theorem test_SYS_2 :
    retires (word (launch rv32c 0x0 [] []) 0x8F) 0x4 [] none = true := by
  decide
/-- ecall -/
theorem test_SYS_3 :
    retires (word (launch rv32c 0x10 [] []) 0x73) 0x14 [] none = true := by
  decide
/-- ecall, STRICT_SYSTEM = true -/
theorem test_SYS_4 :
    halts (word (launch (strict rv32c) 0x10 [] []) 0x73) .unsupportedOperation (rawWord 0x73) = true := by
  decide
/-- ebreak -/
theorem test_SYS_5 :
    retires (word (launch rv32c 0x10 [] []) 0x100073) 0x14 [] none = true := by
  decide
/-- ebreak, STRICT_SYSTEM = true -/
theorem test_SYS_6 :
    halts (word (launch (strict rv32c) 0x10 [] []) 0x100073) .unsupportedOperation (rawWord 0x100073) = true := by
  decide
/-- fence, STRICT_SYSTEM = true -/
theorem test_SYS_7 :
    retires (word (launch (strict rv32c) 0x0 [] []) 0xFF0000F) 0x4 [] none = true := by
  decide
/-- csrrw x0, 0x340, x5 -/
theorem test_SYS_8 :
    retires (word (launch rv32c 0x0 [⟨5, 0x7⟩] []) 0x34029073) 0x4 [] none = true := by
  decide
/-- csrrs x1, 0xC00, x0 (rdcycle x1) -/
theorem test_SYS_9 :
    retires (word (launch rv32c 0x0 [⟨1, 0x9⟩] []) 0xC00020F3) 0x4 [] none = true := by
  decide
/-- csrrc x1, 0x300, x2 -/
theorem test_SYS_10 :
    retires (word (launch rv32c 0x0 [⟨1, 0x9⟩, ⟨2, 0x1⟩] []) 0x300130F3) 0x4 [] none = true := by
  decide
/-- csrrwi x1, 0x340, 5 -/
theorem test_SYS_11 :
    retires (word (launch rv32c 0x0 [⟨1, 0x9⟩] []) 0x3402D0F3) 0x4 [] none = true := by
  decide
/-- csrrsi x0, 0x300, 8 -/
theorem test_SYS_12 :
    retires (word (launch rv32c 0x0 [] []) 0x30046073) 0x4 [] none = true := by
  decide
/-- csrrci x1, 0x300, 8 -/
theorem test_SYS_13 :
    retires (word (launch rv32c 0x0 [⟨1, 0x9⟩] []) 0x300470F3) 0x4 [] none = true := by
  decide
/-- csrrs x1, 0xC00, x0, STRICT_SYSTEM = true -/
theorem test_SYS_14 :
    halts (word (launch (strict rv32c) 0x0 [⟨1, 0x9⟩] []) 0xC00020F3) .unsupportedOperation (rawWord 0xC00020F3) = true := by
  decide
/-- c.addi4spn x8, sp, 16 -/
theorem test_CV_1 :
    retires (half (launch rv32c 0x0 [⟨2, 0x1000⟩] []) 0x800) 0x2 [⟨8, 0x1010⟩] none = true := by
  decide
/-- c.addi4spn x15, sp, 1020 (largest) -/
theorem test_CV_2 :
    retires (half (launch rv32c 0x0 [⟨2, 0x1000⟩] []) 0x1FFC) 0x2 [⟨15, 0x13FC⟩] none = true := by
  decide
/-- c.lw x8, 4(x9) -/
theorem test_CV_3 :
    retires (half (launch rv32c 0x0 [⟨9, 0x100⟩] loadBytes) 0x40C0) 0x2 [⟨8, 0x12345678⟩] (some ⟨.load, .word, 0x104, 0x12345678⟩) = true := by
  decide
/-- c.lw x8, 0(x9), RV64 (sign-extended) -/
theorem test_CV_4 :
    retires (half (launch rv64c 0x0 [⟨9, 0x100⟩] loadBytes) 0x4080) 0x2 [⟨8, 0xFFFFFFFFFF017F80⟩] (some ⟨.load, .word, 0x100, 0xFF017F80⟩) = true := by
  decide
/-- c.ld x10, 0(x9), RV64 -/
theorem test_CV_5 :
    retires (half (launch rv64c 0x0 [⟨9, 0x100⟩] loadBytes) 0x6088) 0x2 [⟨10, 0x12345678FF017F80⟩] (some ⟨.load, .double, 0x100, 0x12345678FF017F80⟩) = true := by
  decide
/-- c.sw x9, 64(x8) -/
theorem test_CV_6 :
    retires (half (launch rv32c 0x0 [⟨8, 0x100⟩, ⟨9, 0xCAFEBABE⟩] []) 0xC024) 0x2 [] (some ⟨.store, .word, 0x140, 0xCAFEBABE⟩) = true := by
  decide
/-- c.sd x9, 8(x8), RV64 -/
theorem test_CV_7 :
    retires (half (launch rv64c 0x0 [⟨8, 0x100⟩, ⟨9, 0x102030405060708⟩] []) 0xE404) 0x2 [] (some ⟨.store, .double, 0x108, 0x102030405060708⟩) = true := by
  decide
/-- c.nop -/
theorem test_CV_8 :
    retires (half (launch rv32c 0x0 [] []) 0x1) 0x2 [] none = true := by
  decide
/-- c.addi x5, -1 -/
theorem test_CV_9 :
    retires (half (launch rv32c 0x0 [⟨5, 0x0⟩] []) 0x12FD) 0x2 [⟨5, 0xFFFFFFFF⟩] none = true := by
  decide
/-- c.addi x5, 0 (HINT) -/
theorem test_CV_10 :
    retires (half (launch rv32c 0x0 [⟨5, 0x3⟩] []) 0x281) 0x2 [⟨5, 0x3⟩] none = true := by
  decide
/-- c.jal 8 (RV32) -/
theorem test_CV_11 :
    retires (half (launch rv32c 0x100 [] []) 0x2021) 0x108 [⟨1, 0x102⟩] none = true := by
  decide
/-- c.addiw x10, -1, RV64 -/
theorem test_CV_12 :
    retires (half (launch rv64c 0x0 [⟨10, 0x80000000⟩] []) 0x357D) 0x2 [⟨10, 0x7FFFFFFF⟩] none = true := by
  decide
/-- c.li x10, 5 -/
theorem test_CV_13 :
    retires (half (launch rv32c 0x0 [] []) 0x4515) 0x2 [⟨10, 0x5⟩] none = true := by
  decide
/-- c.li x10, -32 -/
theorem test_CV_14 :
    retires (half (launch rv32c 0x0 [] []) 0x5501) 0x2 [⟨10, 0xFFFFFFE0⟩] none = true := by
  decide
/-- c.addi16sp sp, -64 -/
theorem test_CV_15 :
    retires (half (launch rv32c 0x0 [⟨2, 0x1000⟩] []) 0x7139) 0x2 [⟨2, 0xFC0⟩] none = true := by
  decide
/-- c.addi16sp sp, 496 (largest positive) -/
theorem test_CV_16 :
    retires (half (launch rv32c 0x0 [⟨2, 0x1000⟩] []) 0x617D) 0x2 [⟨2, 0x11F0⟩] none = true := by
  decide
/-- c.lui x10, 0xFFFFF -/
theorem test_CV_18 :
    retires (half (launch rv32c 0x0 [] []) 0x757D) 0x2 [⟨10, 0xFFFFF000⟩] none = true := by
  decide
/-- c.lui x10, 0xFFFFF, RV64 -/
theorem test_CV_19 :
    retires (half (launch rv64c 0x0 [] []) 0x757D) 0x2 [⟨10, 0xFFFFFFFFFFFFF000⟩] none = true := by
  decide
/-- c.srli x8, 4 -/
theorem test_CV_20 :
    retires (half (launch rv32c 0x0 [⟨8, 0x80000000⟩] []) 0x8011) 0x2 [⟨8, 0x8000000⟩] none = true := by
  decide
/-- c.srai x8, 4 -/
theorem test_CV_21 :
    retires (half (launch rv32c 0x0 [⟨8, 0x80000000⟩] []) 0x8411) 0x2 [⟨8, 0xF8000000⟩] none = true := by
  decide
/-- c.srai x8, 32, RV64 -/
theorem test_CV_22 :
    retires (half (launch rv64c 0x0 [⟨8, 0x8000000000000000⟩] []) 0x9401) 0x2 [⟨8, 0xFFFFFFFF80000000⟩] none = true := by
  decide
/-- c.andi x8, -16 -/
theorem test_CV_23 :
    retires (half (launch rv32c 0x0 [⟨8, 0x12345678⟩] []) 0x9841) 0x2 [⟨8, 0x12345670⟩] none = true := by
  decide
/-- c.sub x8, x9 -/
theorem test_CV_24 :
    retires (half (launch rv32c 0x0 [⟨8, 0x5⟩, ⟨9, 0x7⟩] []) 0x8C05) 0x2 [⟨8, 0xFFFFFFFE⟩] none = true := by
  decide
/-- c.xor x8, x9 -/
theorem test_CV_25 :
    retires (half (launch rv32c 0x0 [⟨8, 0xFF⟩, ⟨9, 0xF⟩] []) 0x8C25) 0x2 [⟨8, 0xF0⟩] none = true := by
  decide
/-- c.or x8, x9 -/
theorem test_CV_26 :
    retires (half (launch rv32c 0x0 [⟨8, 0xF0⟩, ⟨9, 0xF⟩] []) 0x8C45) 0x2 [⟨8, 0xFF⟩] none = true := by
  decide
/-- c.and x8, x9 -/
theorem test_CV_27 :
    retires (half (launch rv32c 0x0 [⟨8, 0xF0⟩, ⟨9, 0x3C⟩] []) 0x8C65) 0x2 [⟨8, 0x30⟩] none = true := by
  decide
/-- c.subw x8, x9, RV64 -/
theorem test_CV_28 :
    retires (half (launch rv64c 0x0 [⟨8, 0x0⟩, ⟨9, 0x1⟩] []) 0x9C05) 0x2 [⟨8, 0xFFFFFFFFFFFFFFFF⟩] none = true := by
  decide
/-- c.addw x8, x9, RV64 -/
theorem test_CV_29 :
    retires (half (launch rv64c 0x0 [⟨8, 0x7FFFFFFF⟩, ⟨9, 0x1⟩] []) 0x9C25) 0x2 [⟨8, 0xFFFFFFFF80000000⟩] none = true := by
  decide
/-- c.j -2 -/
theorem test_CV_30 :
    retires (half (launch rv32c 0x100 [] []) 0xBFFD) 0xFE [] none = true := by
  decide
/-- c.j 2046 (largest) -/
theorem test_CV_31 :
    retires (half (launch rv32c 0x100 [] []) 0xAFFD) 0x8FE [] none = true := by
  decide
/-- c.beqz x8, 6 (taken) -/
theorem test_CV_32 :
    retires (half (launch rv32c 0x100 [⟨8, 0x0⟩] []) 0xC019) 0x106 [] none = true := by
  decide
/-- c.beqz x8, 6 (not taken) -/
theorem test_CV_33 :
    retires (half (launch rv32c 0x100 [⟨8, 0x1⟩] []) 0xC019) 0x102 [] none = true := by
  decide
/-- c.bnez x9, -256 (most negative) -/
theorem test_CV_34 :
    retires (half (launch rv32c 0x200 [⟨9, 0x1⟩] []) 0xF081) 0x100 [] none = true := by
  decide
/-- c.slli x5, 3 -/
theorem test_CV_35 :
    retires (half (launch rv32c 0x0 [⟨5, 0x1⟩] []) 0x28E) 0x2 [⟨5, 0x8⟩] none = true := by
  decide
/-- c.lwsp x1, 12(sp) -/
theorem test_CV_36 :
    retires (half (launch rv32c 0x0 [⟨2, 0x1000⟩] [(0x100C, 0x04), (0x100D, 0x03), (0x100E, 0x02), (0x100F, 0x01)]) 0x40B2) 0x2 [⟨1, 0x1020304⟩] (some ⟨.load, .word, 0x100C, 0x1020304⟩) = true := by
  decide
/-- c.ldsp x1, 8(sp), RV64 -/
theorem test_CV_37 :
    retires (half (launch rv64c 0x0 [⟨2, 0x1000⟩] [(0x1008, 0x88), (0x1009, 0x77), (0x100A, 0x66), (0x100B, 0x55), (0x100C, 0x44), (0x100D, 0x33), (0x100E, 0x22), (0x100F, 0x11)]) 0x60A2) 0x2 [⟨1, 0x1122334455667788⟩] (some ⟨.load, .double, 0x1008, 0x1122334455667788⟩) = true := by
  decide
/-- c.jr x1 -/
theorem test_CV_38 :
    retires (half (launch rv32c 0x100 [⟨1, 0x202⟩] []) 0x8082) 0x202 [] none = true := by
  decide
/-- c.jr x1, JALR_CLEAR_LSB = true, odd target -/
theorem test_CV_39 :
    retires (half (launch rv32c 0x100 [⟨1, 0x203⟩] []) 0x8082) 0x202 [] none = true := by
  decide
/-- c.mv x5, x6 -/
theorem test_CV_40 :
    retires (half (launch rv32c 0x0 [⟨6, 0x55⟩] []) 0x829A) 0x2 [⟨5, 0x55⟩] none = true := by
  decide
/-- c.ebreak -/
theorem test_CV_41 :
    retires (half (launch rv32c 0x100 [] []) 0x9002) 0x102 [] none = true := by
  decide
/-- c.ebreak, STRICT_SYSTEM = true -/
theorem test_CV_42 :
    halts (half (launch (strict rv32c) 0x100 [] []) 0x9002) .unsupportedOperation (rawHalf 0x9002) = true := by
  decide
/-- c.jalr x5 -/
theorem test_CV_43 :
    retires (half (launch rv32c 0x100 [⟨5, 0x300⟩] []) 0x9282) 0x300 [⟨1, 0x102⟩] none = true := by
  decide
/-- c.jalr x1 (rs1 = link register: old value used) -/
theorem test_CV_44 :
    retires (half (launch rv32c 0x100 [⟨1, 0x300⟩] []) 0x9082) 0x300 [⟨1, 0x102⟩] none = true := by
  decide
/-- c.add x5, x6 -/
theorem test_CV_45 :
    retires (half (launch rv32c 0x0 [⟨5, 0xFFFFFFFF⟩, ⟨6, 0x2⟩] []) 0x929A) 0x2 [⟨5, 0x1⟩] none = true := by
  decide
/-- c.swsp x1, 12(sp) -/
theorem test_CV_46 :
    retires (half (launch rv32c 0x0 [⟨1, 0x1020304⟩, ⟨2, 0x1000⟩] []) 0xC606) 0x2 [] (some ⟨.store, .word, 0x100C, 0x1020304⟩) = true := by
  decide
/-- c.sdsp x1, 8(sp), RV64 -/
theorem test_CV_47 :
    retires (half (launch rv64c 0x0 [⟨1, 0x1122334455667788⟩, ⟨2, 0x1000⟩] []) 0xE406) 0x2 [] (some ⟨.store, .double, 0x1008, 0x1122334455667788⟩) = true := by
  decide

/-! ### Decode failures (95_test_vectors.md section 2.7) -/

/-- mret -/
theorem test_DEC_1 :
    halts (word (launch rv32c 0x20 [] []) 0x30200073) .invalidEncoding (rawWord 0x30200073) = true := by
  decide
/-- fence.i -/
theorem test_DEC_4 :
    halts (word (launch rv32c 0x20 [] []) 0x100F) .invalidEncoding (rawWord 0x100F) = true := by
  decide
/-- mul x3, x1, x2 (M not in hardware) -/
theorem test_DEC_6 :
    halts (word (launch rv32c 0x20 [] []) 0x22081B3) .invalidEncoding (rawWord 0x22081B3) = true := by
  decide
/-- lr.w x1, (x2) (A not in hardware) -/
theorem test_DEC_7 :
    halts (word (launch rv32c 0x20 [] []) 0x1001202F) .invalidEncoding (rawWord 0x1001202F) = true := by
  decide
/-- all-ones word -/
theorem test_DEC_9 :
    halts (word (launch rv32c 0x20 [] []) 0xFFFFFFFF) .invalidEncoding (rawWord 0xFFFFFFFF) = true := by
  decide
/-- 48-bit length prefix -/
theorem test_DEC_10 :
    halts (word (launch rv32c 0x20 [] []) 0x1F) .invalidEncoding (rawWord 0x1F) = true := by
  decide
/-- all-zero word, C disabled -/
theorem test_DEC_11 :
    halts (word (launch rv32 0x20 [] []) 0x0) .invalidEncoding (rawWord 0x0) = true := by
  decide
/-- all-zero halfword, C enabled -/
theorem test_DEC_12 :
    halts (half (launch rv32c 0x20 [] []) 0x0) .invalidEncoding (rawHalf 0x0) = true := by
  decide
/-- c.li a0, 5 with C disabled (read as a word) -/
theorem test_DEC_13 :
    halts (word (launch rv32 0x20 [] []) 0x4515) .invalidEncoding (rawWord 0x4515) = true := by
  decide
/-- addiw x2, x1, 1 on RV32 -/
theorem test_DEC_14 :
    halts (word (launch rv32c 0x20 [] []) 0x10811B) .invalidEncoding (rawWord 0x10811B) = true := by
  decide
/-- slli x2, x1, 32 on RV32 (shamt[5] = 1) -/
theorem test_DEC_16 :
    halts (word (launch rv32c 0x20 [] []) 0x2009113) .invalidEncoding (rawWord 0x2009113) = true := by
  decide
/-- ecall with rs1 ≠ 0 (0x00008073) -/
theorem test_DEC_18 :
    halts (word (launch rv32c 0x20 [] []) 0x8073) .invalidEncoding (rawWord 0x8073) = true := by
  decide
/-- c.ld on RV32 (C.FLW space) -/
theorem test_DEC_21 :
    halts (half (launch rv32c 0x20 [] []) 0x6588) .invalidEncoding (rawHalf 0x6588) = true := by
  decide
/-- c.addiw x0, 1 on RV64 (rd = 0 reserved) -/
theorem test_DEC_23 :
    halts (half (launch rv64c 0x20 [] []) 0x2005) .invalidEncoding (rawHalf 0x2005) = true := by
  decide

/-! ### Witnesses: states and operands that meet the hypotheses of the statements

The only hypothesis of AddAndCompareImmediate, LogicalImmediate, ImmediateShifts, AddSubCompare, LogicalRegister,
RegisterShifts, UpperImmediates, WordImmediate, WordRegister, FenceCompletes, CompressedAddImmediate,
CompressedOtherImmediate, CompressedShifts and CompressedRegister is Ready: test_witness_Ready. -/

/-- A state within a step of `i`, ready for execute: x1 = 5, x2 = 5, x3 = -1, x8 = 0, x9 = 0x2001. -/
def readyAt (c : Config) (i : Instr) : State :=
  (launch c 0x100 [⟨1, 5⟩, ⟨2, 5⟩, ⟨3, c.xlen.wrap (-1)⟩, ⟨9, 0x2001⟩] []).beginStep (encode i)

theorem test_witness_Ready :
    (readyAt rv32 (.addi 1 2 (-1))).Ready ∧ (readyAt rv32 (.xori 0 2 1)).Ready ∧ (readyAt rv64 (.srai64 1 2 63)).Ready ∧
      (readyAt rv32 (.sub 1 2 3)).Ready ∧ (readyAt rv32 (.and 1 2 3)).Ready ∧ (readyAt rv64 (.sll 1 2 3)).Ready ∧
      (readyAt rv64 (.lui 1 0x80000)).Ready ∧ (readyAt rv64 (.sraiw 1 2 31)).Ready ∧ (readyAt rv64 (.sraw 1 2 3)).Ready ∧
      (readyAt rv32 (.fence 8 3 3 1 1)).Ready ∧ (readyAt rv32c (.cAddi16sp 0x200)).Ready ∧
      (readyAt rv64c (.cAddiw 1 (-1))).Ready ∧ (readyAt rv64c (.cSrai 8 63)).Ready ∧ (readyAt rv64c (.cSubw 8 9)).Ready :=
  ⟨rfl, rfl, rfl, rfl, rfl, rfl, rfl, rfl, rfl, rfl, rfl, rfl, rfl, rfl⟩

theorem test_witness_DecodeInvertsEncode :
    [Instr.wellFormed rv32 (.jal 31 0x100000), Instr.wellFormed rv64c (.cSdsp 31 0x1F8)].all id = true := by decide

theorem test_witness_DecodeIsExact :
    (decode rv32 0x00A00293#32).toOption = some (.addi 5 0 10) ∧ (decode rv32c 0x4515#32).toOption = some (.cLi 10 5) := by
  decide

/-- One word for each clause, at the edges. -/
theorem test_witness_IllegalWordsAreInvalid :
    (BitVec.setWidth 16 0xFFFF0000#32 = 0#16) ∧
      (BitVec.setWidth 7 0x0000100F#32 = 0b0001111#7 ∧ BitVec.extractLsb' 12 3 0x0000100F#32 ≠ 0b000#3) ∧
      (BitVec.setWidth 7 0x30200073#32 = 0b1110011#7 ∧ BitVec.extractLsb' 12 3 0x30200073#32 = 0b000#3) ∧
      (BitVec.setWidth 7 0x0000007B#32 = 0b1111011#7) := by decide

theorem test_witness_GatedEncodingsAreInvalid :
    (BitVec.setWidth 2 0x4515#32 ≠ 0b11#2 ∧ rv32.cEnabled = false) ∧ (BitVec.setWidth 5 0x1F#32 = 0b11111#5) ∧
      rv32c.xlen = .rv32 ∧ (BitVec.setWidth 7 0x0010811B#32 = 0b0011011#7) ∧
      (BitVec.setWidth 7 0x00013083#32 = 0b0000011#7 ∧ BitVec.extractLsb' 12 3 0x00013083#32 = 0b011#3) ∧
      (BitVec.setWidth 7 0x00113423#32 = 0b0100011#7 ∧ BitVec.extractLsb' 12 3 0x00113423#32 = 0b011#3) ∧
      (BitVec.setWidth 7 0x02009093#32 = 0b0010011#7 ∧ BitVec.extractLsb' 12 3 0x02009093#32 = 0b001#3 ∧
        BitVec.getLsbD 0x02009093#32 25 = true) ∧
      (BitVec.setWidth 2 0x6000#32 = 0b00#2 ∧ BitVec.extractLsb' 13 3 0x6000#32 = 0b011#3) ∧
      (BitVec.setWidth 2 0xE002#32 = 0b10#2 ∧ BitVec.extractLsb' 13 3 0xE002#32 = 0b111#3) ∧
      (BitVec.setWidth 2 0x9C01#32 = 0b01#2 ∧ BitVec.extractLsb' 13 3 0x9C01#32 = 0b100#3 ∧
        BitVec.extractLsb' 10 3 0x9C01#32 = 0b111#3) ∧
      (BitVec.setWidth 2 0x1002#32 = 0b10#2 ∧ BitVec.extractLsb' 13 3 0x1002#32 = 0b000#3 ∧
        BitVec.getLsbD 0x1002#32 12 = true) ∧
      (BitVec.setWidth 2 0x9401#32 = 0b01#2 ∧ BitVec.extractLsb' 13 3 0x9401#32 = 0b100#3 ∧
        BitVec.getLsbD 0x9401#32 12 = true ∧ BitVec.extractLsb' 10 2 0x9401#32 = 0b01#2) := by decide

/-- E2's raw values: the most negative field, and a 1-bit one. -/
theorem test_witness_SetFromBitsReadsTwosComplement :
    (0 < 12 ∧ 0x800 < 2 ^ 12) ∧ (0 < 1 ∧ 1 < 2 ^ 1) ∧ (0 < 13 ∧ 0x1FFE < 2 ^ 13 ∧ 0x1FFE % 2 = 0) := by decide

/-- E1's values: each refusing clause, and both ends of the range. -/
theorem test_witness_SetChecksRange :
    (4093 % 2 ≠ 0 ∧ (Immediate.blank 13 true true).lsb0 = true) ∧ ((Immediate.blank 6 false false).signed = false ∧ (-1 : Int) < 0) ∧
      (-4098 < (Immediate.blank 13 true true).min) ∧ ((Immediate.blank 13 true true).max < 4096) ∧
      ((Immediate.blank 13 true true).min ≤ -4096 ∧ 4094 ≤ (Immediate.blank 13 true true).max) := by decide

theorem test_witness_OperandsAreSignExtensions : (0 < 1 ∧ 1 ≤ 32) ∧ (0 < 32 ∧ 32 ≤ 32) := by decide

/-- A valid configuration, and two invalid ones: RESET_PC misaligned for IALIGN, and not an XLEN-bit value. -/
theorem test_witness_ResetState :
    rv64c.valid = true ∧ Config.valid { rv32c with resetPc := 2 } = true ∧ Config.valid { rv32 with resetPc := 2 } = false ∧
      Config.valid { rv32 with resetPc := 0x100000000 } = false := by decide

theorem test_witness_ResetSatisfiesInvariant :
    rv32.valid = true ∧ ∀ e ∈ [((0 : Nat), (1 : Byte)), (0xFFFFFFFF, 0x80)], e.1 < 2 ^ rv32.xlen.bits := by decide

/-- A state a step starts from: `addi x5, x0, 10` at reset. -/
def scenario1 : State := word (launch rv32 0 [] []) 0x00A00293
/-- A state whose step halts: nothing at pc. -/
def nothingPlaced : State := launch rv32c 0 [] []

theorem test_inv_scenario1 : scenario1.Inv :=
  ⟨by decide, by decide, by decide, ⟨by decide, by decide⟩, by decide, by decide, rfl, trivial⟩

theorem test_inv_nothingPlaced : nothingPlaced.Inv :=
  ⟨by decide, by decide, by decide, ⟨by decide, by decide⟩, by decide, by decide, rfl, trivial⟩

/-- Also the hypotheses of StepRetiresOrHalts and ConfigurationNeverChanges. -/
theorem test_witness_StepKeepsInvariant :
    scenario1.Inv ∧ scenario1.halt = .running ∧ ∃ t, step scenario1 = .next t := ⟨test_inv_scenario1, rfl, _, rfl⟩

theorem test_witness_StepKeepsTrace : scenario1.Inv ∧ scenario1.TraceOk ∧ ∃ t, step scenario1 = .next t :=
  ⟨test_inv_scenario1, ⟨rfl, nofun, nofun, nofun, rfl⟩, _, rfl⟩

theorem test_witness_StepRunsDecoded :
    scenario1.cfg.valid = true ∧ scenario1.halt = .running ∧ scenario1.fetch.toOption = some ⟨0x00A00293, .four⟩ ∧
      (decode scenario1.cfg 0x00A00293).toOption = some (.addi 5 0 10) := by decide

/-- A halfword and a word with C, at the lowest addresses; a word without C. -/
theorem test_witness_StepRunsEncoded :
    (Instr.wellFormed rv32c (.cLi 10 5) = true ∧
        (half (launch rv32c 2 [] []) 0x4515).bytesAt 2 2 = (encode (.cLi 10 5)).bits.toNat) ∧
      (Instr.wellFormed rv32c (.addi 5 0 10) = true ∧
        (word (launch rv32c 2 [] []) 0x00A00293).bytesAt 2 4 = (encode (.addi 5 0 10)).bits.toNat) ∧
      (Instr.wellFormed rv32 (.addi 5 0 10) = true ∧ scenario1.bytesAt 0 4 = (encode (.addi 5 0 10)).bits.toNat) ∧
      rv32c.memAdmits 2 2 = true ∧ rv32c.memAdmits 4 2 = true ∧ rv32.memAdmits 0 4 = true := by decide

/-- A configuration that refuses the fetches at 0x1000. -/
def noFetch (c : Config) : Config := { c with refusedWindows := [⟨0x1000, 0x1000, 2⟩, ⟨0x1000, 0x1000, 4⟩] }

/-- One state for each clause; the third is a word whose second half is at the refused address. -/
theorem test_witness_FetchFollowsRule :
    (rv32c.cEnabled = true ∧ (noFetch rv32c).memAdmits 0x1000 2 = false) ∧
      ((noFetch rv32c).memAdmits 0xFFE 2 = true ∧ (half (launch (noFetch rv32c) 0xFFE [] []) 0x4515).bytesAt 0xFFE 2 % 4 ≠ 3) ∧
      ((word (launch (noFetch rv32c) 0xFFE [] []) 0x13).bytesAt 0xFFE 2 % 4 = 3 ∧
        (noFetch rv32c).memAdmits (XLen.rv32.ofInt ((0xFFE : Int) + 2)) 2 = false) ∧
      ((word (launch rv32c 0xFFE [] []) 0x13).bytesAt 0xFFE 2 % 4 = 3 ∧ rv32c.memAdmits 0x1000 2 = true) ∧
      (rv32.cEnabled = false ∧ (noFetch rv32).memAdmits 0x1000 4 = false) ∧ rv32.memAdmits 0x1000 4 = true := by decide

theorem test_witness_FetchAndDecodeFaultsHalt :
    nothingPlaced.Inv ∧ nothingPlaced.halt = .running ∧
      (∃ e, nothingPlaced.fetch = .ok ⟨0, .two⟩ ∧ decode nothingPlaced.cfg 0 = .error e) ∧
      (∃ c, State.fetch (launch (noFetch rv32) 0x1000 [] []) = .error c) :=
  ⟨test_inv_nothingPlaced, rfl, ⟨_, rfl, rfl⟩, _, rfl⟩

theorem test_witness_FaultIsPreciseAndFinal :
    nothingPlaced.Inv ∧ nothingPlaced.halt = .running ∧ ∃ t, step nothingPlaced = .next t ∧ t.halt ≠ .running :=
  ⟨test_inv_nothingPlaced, rfl, _, rfl, nofun⟩

/-- No access, and a load. -/
theorem test_witness_OnlyStoresChangeMemory :
    (dataAccess (.addi 1 2 3) = none ∧ ∃ t, exec (.addi 1 2 3) (readyAt rv32 (.addi 1 2 3)) = .next t) ∧
      (dataAccess (.lw 1 2 3) = some ⟨.load, 2, 3, .word⟩ ∧ ∃ t, exec (.lw 1 2 3) (readyAt rv32 (.lw 1 2 3)) = .next t) :=
  ⟨⟨rfl, _, rfl⟩, rfl, _, rfl⟩

theorem test_witness_RetiredStepIsRecorded :
    let s := readyAt rv32 (.sw 1 2 0)
    s.Ready ∧ s.stage.fetched = some (encode (.sw 1 2 0)) ∧ s.halt = .running ∧
      ∃ t, exec (.sw 1 2 0) s = .next t ∧ t.halt = .running := ⟨rfl, rfl, rfl, _, rfl, rfl⟩

/-- Both sides of the alignment rule: a multiple of 4 at the lowest offset, and pc + 2 without C. -/
theorem test_witness_JumpAndLink :
    (readyAt rv32 (.jal 1 4)).Ready ∧ (readyAt rv32 (.jal 1 4)).TargetOk ((readyAt rv32 (.jal 1 4)).pcTarget 4) ∧
      ¬(readyAt rv32 (.jal 1 2)).TargetOk ((readyAt rv32 (.jal 1 2)).pcTarget 2) :=
  ⟨rfl, by unfold State.TargetOk; decide, by unfold State.TargetOk; decide⟩

/-- Aligned (x1 + 3 = 8), and misaligned (x1 + 1 = 6) without C. -/
theorem test_witness_JumpAndLinkRegister :
    (readyAt rv32 (.jalr 1 1 3)).Ready ∧ (readyAt rv32 (.jalr 1 1 3)).TargetOk ((readyAt rv32 (.jalr 1 1 3)).jumpTarget 1 3) ∧
      ¬(readyAt rv32 (.jalr 1 1 1)).TargetOk ((readyAt rv32 (.jalr 1 1 1)).jumpTarget 1 1) :=
  ⟨rfl, by unfold State.TargetOk; decide, by unfold State.TargetOk; decide⟩

/-- The state of the branch witnesses, without C: x1 = x2 = 5, x3 = -1; offset 8 is aligned, offset 6 is not. -/
def branching : State := readyAt rv32 (.beq 1 2 8)

theorem test_witness_branchTargets :
    branching.Ready ∧ branching.TargetOk (branching.pcTarget 8) ∧ ¬branching.TargetOk (branching.pcTarget 6) :=
  ⟨rfl, by unfold State.TargetOk; decide, by unfold State.TargetOk; decide⟩

/-- With test_witness_branchTargets: x1 = x2, and x1 ≠ x3. -/
theorem test_witness_EqualityBranches : branching.x 1 = branching.x 2 ∧ branching.x 1 ≠ branching.x 3 := by decide

/-- With test_witness_branchTargets: -1 < 5, and at the meeting point 5 ≥ 5. -/
theorem test_witness_SignedBranches :
    branching.xlen.asSigned (branching.x 3) < branching.xlen.asSigned (branching.x 1) ∧
      branching.xlen.asSigned (branching.x 1) ≥ branching.xlen.asSigned (branching.x 2) ∧
      ¬branching.xlen.asSigned (branching.x 1) < branching.xlen.asSigned (branching.x 2) ∧
      ¬branching.xlen.asSigned (branching.x 3) ≥ branching.xlen.asSigned (branching.x 1) := by decide

/-- With test_witness_branchTargets: 5 < 2^32 - 1, and at the meeting point 5 ≥ 5. -/
theorem test_witness_UnsignedBranches :
    (branching.x 1).toNat < (branching.x 3).toNat ∧ (branching.x 1).toNat ≥ (branching.x 2).toNat ∧
      ¬(branching.x 1).toNat < (branching.x 2).toNat ∧ ¬(branching.x 1).toNat ≥ (branching.x 3).toNat := by decide

/-- JALR, C.JR and C.JALR to the odd target 0x2001, bit 0 kept. -/
theorem test_witness_OnlyJalrMisalignsWithC :
    [(Instr.jalr 1 9 0), .cJr 9, .cJalr 9].all (fun i =>
      let s := readyAt (keepLsb rv32c) i
      s.halt == .running && s.cfg.cEnabled && s.pc.toNat % 2 == 0 && i.wellFormed s.cfg &&
        match exec i s with
        | .next t => t.halt == .halted (.misalignedTarget 0x2001) s.pc (some (encode i))
        | _ => false) = true := by decide

/-- The widest access, and none. -/
theorem test_witness_MixedWidthBytes : (8 ≤ 8) ∧ (0 ≤ 8) := by decide

theorem test_witness_EffectiveAddresses : (7 ≤ 9) ∧ (9 ≤ 9) := by decide

/-- The state of the access witnesses, under MISALIGNED_DATA = fault and a MEM_ADMITS that refuses [0x1000, 0xFFFFEFFF]:
x1 = x2 = 5, x9 = 0x2001. -/
def accessing : State := readyAt (faulting (admitting rv32)) (.lb 1 0 8)

/-- Each width, at 8. -/
theorem test_witness_accessible :
    accessing.Ready ∧ accessing.Accessible 8 1 ∧ accessing.Accessible 8 2 ∧ accessing.Accessible 8 4 ∧ accessing.Accessible 8 8 :=
  ⟨rfl, by unfold State.Accessible; decide, by unfold State.Accessible; decide, by unfold State.Accessible; decide,
    by unfold State.Accessible; decide⟩

/-- Both faults: a misaligned half, word and doubleword; a refused byte, half, word; alignment first at 0x2001. -/
theorem test_witness_faulting :
    accessing.FaultsWith .load 5 2 (.misalignedAccess 5) ∧ accessing.FaultsWith .store 6 4 (.misalignedAccess 6) ∧
      accessing.FaultsWith .load 4 8 (.misalignedAccess 4) ∧ accessing.FaultsWith .load 0x1000 1 (.accessFault .load 0x1000) ∧
      accessing.FaultsWith .store 0x2000 2 (.accessFault .store 0x2000) ∧
      accessing.FaultsWith .store 0xFFFFEFFC 4 (.accessFault .store 0xFFFFEFFC) ∧
      accessing.FaultsWith .load 0x2001 4 (.misalignedAccess 0x2001) := by
  unfold State.FaultsWith; decide

/-- The addresses of SignedLoads, UnsignedLoads and Stores: x0 + 8 and x1 + 0; with test_witness_accessible and
test_witness_faulting. -/
theorem test_witness_LoadsAndStores :
    accessing.effectiveAddress 0 (signedOperand accessing.xlen (8 : BitVec 12)) = 8 ∧
      accessing.effectiveAddress 1 (signedOperand accessing.xlen (0 : BitVec 12)) = 5 ∧
      accessing.effectiveAddress 9 (signedOperand accessing.xlen (0 : BitVec 12)) = 0x2001 ∧
      accessing.effectiveAddress 0 (signedOperand accessing.xlen (0xFFC : BitVec 12)) = 0xFFFFFFFC := by decide

/-- The addresses of CompressedLoads and CompressedStores: x8 + 8, and x2 + 0 and x2 + 3 (x2 = 5); with
test_witness_accessible and test_witness_faulting. -/
theorem test_witness_CompressedLoadsAndStores :
    accessing.effectiveAddress 8 (unsignedOperand accessing.xlen (8 : BitVec 7)) = 8 ∧
      accessing.effectiveAddress 8 (unsignedOperand accessing.xlen (8 : BitVec 8)) = 8 ∧
      accessing.effectiveAddress 2 (unsignedOperand accessing.xlen (0 : BitVec 8)) = 5 ∧
      accessing.effectiveAddress 2 (unsignedOperand accessing.xlen (3 : BitVec 9)) = 8 := by decide

/-- Misaligned; and aligned, then refused. -/
theorem test_witness_DataFaultsHalt :
    (dataAccess (.lw 1 9 0) = some ⟨.load, 9, 0, .word⟩ ∧ accessing.cfg.misalignedData = .fault ∧
        (accessing.accessAddress ⟨.load, 9, 0, .word⟩).toNat % 4 ≠ 0) ∧
      (dataAccess (.sw 9 1 3) = some ⟨.store, 9, 3, .word⟩ ∧ (accessing.accessAddress ⟨.store, 9, 3, .word⟩).toNat % 4 = 0 ∧
        accessing.cfg.memAdmits (accessing.accessAddress ⟨.store, 9, 3, .word⟩) 4 = false) := by decide

/-- A byte, a doubleword and a compressed word stored; the fetch is within the bytes stored, or runs past them. -/
theorem test_witness_StoreIsSeenByFetch :
    (readyAt rv32 (.sb 0 1 8)).Ready ∧ (readyAt rv64c (.sd 0 3 8)).Ready ∧ (readyAt rv32c (.cSwsp 1 3)).Ready ∧
      (dataAccess (.sb 0 1 8) = some ⟨.store, 0, 8, .byte⟩ ∧
        ∃ t, exec (.sb 0 1 8) (readyAt rv32 (.sb 0 1 8)) = .next t ∧ t.halt = .running ∧
          ∃ raw, State.fetch { t with pc := 8 } = .ok raw ∧ raw.size = .four ∧ raw.bits.extractLsb' 0 8 = 5) ∧
      (dataAccess (.sd 0 3 8) = some ⟨.store, 0, 8, .double⟩ ∧
        ∃ t, exec (.sd 0 3 8) (readyAt rv64c (.sd 0 3 8)) = .next t ∧ t.halt = .running ∧
          ∃ raw, State.fetch { t with pc := 14 } = .ok raw ∧ raw.size = .four ∧ raw.bits.extractLsb' 16 8 = 0) ∧
      (dataAccess (.cSwsp 1 3) = some ⟨.store, 2, 3, .word⟩ ∧
        ∃ t, exec (.cSwsp 1 3) (readyAt rv32c (.cSwsp 1 3)) = .next t ∧ t.halt = .running ∧
          ∃ raw, State.fetch { t with pc := 8 } = .ok raw ∧ raw.size = .two) ∧
      rv32.memAdmits 8 4 = true ∧ rv64c.memAdmits 14 2 = true ∧ rv64c.memAdmits 16 2 = true ∧ rv32c.memAdmits 8 2 = true :=
  ⟨rfl, rfl, rfl, ⟨rfl, _, rfl, rfl, _, rfl, rfl, by decide⟩, ⟨rfl, _, rfl, rfl, _, rfl, rfl, by decide⟩,
    ⟨rfl, _, rfl, rfl, _, rfl, rfl⟩, by decide, by decide, by decide, by decide⟩

/-- E3 and E8: the U format's and C.LUI's Immediate after left_shift, and C.SWSP's; B's −4. -/
theorem test_extract :
    extractImmediate 0x000010B7 (.lui 1 1) = some (.ok ⟨32, false, false, 0x1000⟩) ∧
      extractImmediate 0x6505 (.cLui 10 1) = some (.ok ⟨18, true, false, 0x1000⟩) ∧
      extractImmediate 0x757D (.cLui 10 0x3F) = some (.ok ⟨18, true, false, -0x1000⟩) ∧
      extractImmediate 0xC606 (.cSwsp 1 12) = some (.ok ⟨8, false, true, 12⟩) ∧
      extractImmediate 0xFE209EE3 (.bne 1 2 (-4)) = some (.ok ⟨13, true, true, -4⟩) := by
  refine ⟨?_, ?_, ?_, ?_, ?_⟩ <;> rfl

/-- A variant of both lists that its word decodes to, with the operand the word gives (CT-13, E8). -/
theorem test_witness_BaseAndCompressedImmediates :
    (decode rv32 0xFE209EE3#32).toOption = some (.bne 1 2 (-4)) ∧ (decode rv32c 0xC606#32).toOption = some (.cSwsp 1 12) := by
  decide

/-- EnvironmentStubs and CsrStubs: STRICT_SYSTEM off and on. -/
theorem test_witness_stubs :
    (readyAt rv32c .cEbreak).Ready ∧ (readyAt rv32c .cEbreak).cfg.strictSystem = false ∧
      (readyAt (strict rv32) (.csrrw 1 2 0x300)).Ready ∧ (readyAt (strict rv32) (.csrrw 1 2 0x300)).cfg.strictSystem = true :=
  ⟨rfl, rfl, rfl, rfl⟩

theorem test_witness_UnsupportedOperationRule :
    let s := readyAt (strict rv32) .ecall
    s.halt = .running ∧ isStrictStub .ecall = true ∧ s.cfg.strictSystem = true ∧
      ∃ t, exec .ecall s = .next t ∧ t.halt = .halted .unsupportedOperation s.pc (some (encode .ecall)) :=
  ⟨rfl, rfl, rfl, _, rfl, rfl⟩

/-- Aligned and misaligned targets, pc-relative and through a register (x1 = 5, x9 = 0x2001); the last clause's premises. -/
theorem test_witness_CompressedJumps :
    (readyAt rv32c (.cJ 2)).Ready ∧ (readyAt rv32c (.cJ 2)).TargetOk ((readyAt rv32c (.cJ 2)).pcTarget 2) ∧
      ¬(readyAt rv32c (.cJ 2)).TargetOk ((readyAt rv32c (.cJ 2)).pcTarget 1) ∧
      (readyAt rv32c (.cJr 9)).TargetOk ((readyAt rv32c (.cJr 9)).jumpTarget 9 0) ∧
      ¬(readyAt (keepLsb rv32c) (.cJr 9)).TargetOk ((readyAt (keepLsb rv32c) (.cJr 9)).jumpTarget 9 0) ∧
      rv32c.cEnabled = true ∧ (readyAt rv32c (.cJ 2)).pc.toNat % 2 = 0 ∧ (2 : BitVec 12).toNat % 2 = 0 := by
  refine ⟨rfl, ?_⟩
  unfold State.TargetOk
  decide

/-- x8 = 0 and x9 ≠ 0; targets on both sides of the alignment rule; the last clause's premises. -/
theorem test_witness_CompressedBranches :
    let s := readyAt rv32c (.cBeqz 8 2)
    s.Ready ∧ s.x 8 = 0 ∧ s.x 9 ≠ 0 ∧ s.TargetOk (s.pcTarget 2) ∧ ¬s.TargetOk (s.pcTarget 3) ∧
      s.cfg.cEnabled = true ∧ s.pc.toNat % 2 = 0 ∧ (2 : BitVec 9).toNat % 2 = 0 := by
  refine ⟨rfl, ?_⟩
  unfold State.TargetOk
  decide

/-- A state at END_PC, a halted one, and a running one elsewhere whose step goes on. -/
theorem test_witness_RunEnds :
    (State.halt (launch { rv32 with endPc := some 0x40 } 0x40 [] []) = .running ∧
        (launch { rv32 with endPc := some 0x40 } 0x40 [] []).cfg.endPc =
          some (launch { rv32 with endPc := some 0x40 } 0x40 [] []).pc) ∧
      (∃ t, step nothingPlaced = .next t ∧ t.halt ≠ .running) ∧
      (scenario1.halt = .running ∧ scenario1.cfg.endPc ≠ some scenario1.pc ∧ ∃ t, step scenario1 = .next t) :=
  ⟨⟨rfl, rfl⟩, ⟨_, rfl, nofun⟩, rfl, nofun, _, rfl⟩

/-- From reset with nothing placed, the first step halts with InvalidEncoding on the halfword 0 (log 13). -/
theorem test_reset_nothing_placed :
    halts State.reset .invalidEncoding (rawHalf 0) = true := by decide

/-- A placed word is what the first step after reset runs, in the configuration that has its row (log 13). -/
theorem test_withFetchWord :
    decodeTableWord 32 0x00A00293 = some (.addi 5 0 10) ∧
      retires (State.reset.withFetchWord 32 0x00A00293) 4 [⟨5, 10⟩] none = true ∧
      decodeTableWord 16 0x2021 = some (.cJal 8) := by decide

end Sys2Proof.Tests
end

section
/-! The configuration is a constant of the machine (00_scope.md R8, 70_reset_and_hazards.md R256). -/

namespace Sys2Proof.Machine

open Sys2Proof

/-- Both ends of an execution, a retirement and a fault, leave the configuration as it was. -/
theorem exec_cfg {i : Instr} {s t : State} (h : exec i s = .next t) : t.cfg = s.cfg := by
  rcases exec_ends i s with ⟨u, hu, -, -, hr⟩ | ⟨c, -, hr⟩
  · cases h.symm.trans hr
    rw [State.retire_cfg, hu.cfg]
  · cases h.symm.trans hr
    exact State.raise_cfg s c

/-- Settles O20, by the cases of a step: a fetch fault, a decode fault, an execution. -/
theorem configurationNeverChanges : Obligations.ConfigurationNeverChanges := by
  intro s t h
  obtain ⟨-, -, hstep⟩ := step_cases h
  rcases hstep with ⟨c, -, rfl⟩ | ⟨raw, -, -, -, rfl⟩ | ⟨raw, i, -, -, hexec⟩
  · exact State.haltWith_cfg s c none
  · rw [State.raise_cfg, State.beginStep_cfg]
  · rw [exec_cfg hexec, State.beginStep_cfg]

end Sys2Proof.Machine
end

section
/-! What the rows of the decode table say of an instruction's size (30_encoding.md R69, R86): a row of the 32-bit table is
four bytes long, so without C no instruction of two bytes is decoded. -/

namespace Sys2Proof

open Sys2Proof.Machine

/-- A decoder's answer, if it is an instruction, is one of four bytes. -/
def OnlyWords (o : Option Instr) : Prop := ∀ i, o = some i → i.size = .four

@[simp] theorem onlyWords_none : OnlyWords none := nofun

@[simp] theorem onlyWords_some (i : Instr) : OnlyWords (some i) ↔ i.size = .four := by simp [OnlyWords]

@[simp] theorem onlyWords_onlyRv64 (x : XLen) (i : Instr) :
    OnlyWords (onlyRv64 x i) ↔ (x = .rv64 → i.size = .four) := by
  cases x <;> simp [onlyRv64]

theorem OnlyWords.bind_onlyRv64 {o : Option Instr} (h : OnlyWords o) (x : XLen) : OnlyWords (o.bind (onlyRv64 x)) := by
  cases o with
  | none => exact onlyWords_none
  | some i => exact (onlyWords_onlyRv64 x i).2 fun _ => h i rfl

theorem onlyWords_decodeLoad (x : XLen) (w : BitVec 32) : OnlyWords (decodeLoad x w) := by
  unfold decodeLoad; split <;> simp [Instr.size, Instr.gate]

theorem onlyWords_decodeStore (x : XLen) (w : BitVec 32) : OnlyWords (decodeStore x w) := by
  unfold decodeStore; split <;> simp [Instr.size, Instr.gate]

theorem onlyWords_decodeMiscMem (w : BitVec 32) : OnlyWords (decodeMiscMem w) := by
  unfold decodeMiscMem; split <;> simp [Instr.size, Instr.gate]

theorem onlyWords_decodeOpImmShift (x : XLen) (w : BitVec 32) : OnlyWords (decodeOpImmShift x w) := by
  unfold decodeOpImmShift
  cases x
  · dsimp only; split <;> simp [Instr.size, Instr.gate]
  · dsimp only; split <;> simp [Instr.size, Instr.gate]

theorem onlyWords_decodeOpImm (x : XLen) (w : BitVec 32) : OnlyWords (decodeOpImm x w) := by
  unfold decodeOpImm; split <;> simp [Instr.size, Instr.gate, onlyWords_decodeOpImmShift]

theorem onlyWords_decodeOp (w : BitVec 32) : OnlyWords (decodeOp w) := by
  unfold decodeOp; split <;> simp [Instr.size, Instr.gate]

theorem onlyWords_decodeOpImm32 (w : BitVec 32) : OnlyWords (decodeOpImm32 w) := by
  unfold decodeOpImm32; split <;> simp [Instr.size, Instr.gate]

theorem onlyWords_decodeOp32 (w : BitVec 32) : OnlyWords (decodeOp32 w) := by
  unfold decodeOp32; split <;> simp [Instr.size, Instr.gate]

theorem onlyWords_decodeBranch (w : BitVec 32) : OnlyWords (decodeBranch w) := by
  unfold decodeBranch; split <;> simp [Instr.size, Instr.gate]

theorem onlyWords_decodeSystem (w : BitVec 32) : OnlyWords (decodeSystem w) := by
  unfold decodeSystem
  split
  · split_ifs <;> simp [Instr.size, Instr.gate]
  all_goals simp [Instr.size, Instr.gate]

/-- Every row of the 32-bit table, by its major opcode (30_encoding.md R92). -/
theorem onlyWords_decode32 (x : XLen) (w : BitVec 32) : OnlyWords (decode32 x w) := by
  unfold decode32
  split
  · exact onlyWords_decodeLoad x w
  · exact onlyWords_decodeMiscMem w
  · exact onlyWords_decodeOpImm x w
  · exact (onlyWords_some _).2 rfl
  · exact (onlyWords_decodeOpImm32 w).bind_onlyRv64 x
  · exact onlyWords_decodeStore x w
  · exact onlyWords_decodeOp w
  · exact (onlyWords_some _).2 rfl
  · exact (onlyWords_decodeOp32 w).bind_onlyRv64 x
  · exact onlyWords_decodeBranch w
  · split_ifs
    · exact (onlyWords_some _).2 rfl
    · exact onlyWords_none
  · exact (onlyWords_some _).2 rfl
  · exact onlyWords_decodeSystem w
  · exact onlyWords_none

/-- A decoded instruction of two bytes shows that C is enabled (30_encoding.md R69). -/
theorem cEnabled_of_decode_two {c : Config} {w : BitVec 32} {i : Instr} (h : decode c w = .ok i) (hi : i.size = .two) :
    c.cEnabled = true := by
  rw [decode_ok_iff, decodeRow] at h
  split_ifs at h with hword hlong hc
  · cases hi.symm.trans (onlyWords_decode32 _ w i h)
  · exact hc

end Sys2Proof
end

section
/-! The machine invariant: what a fault and what a retirement keep of it, and with the cases of a step that every step
keeps it (10_state.md R20, R27, R35, R38, R43). -/

namespace Sys2Proof.Machine

open Sys2Proof

/-! ### The registers after a commit -/

/-- A commit never reaches x0's cell (10_state.md R26). -/
theorem applyWrite_zero (regs : Vector Word 32) (w : RegWrite) : (applyWrite regs w)[0] = regs[0] := by
  unfold applyWrite
  split_ifs with h0
  · rfl
  · have hne : w.index.toNat ≠ 0 := fun h => h0 (BitVec.eq_of_toNat_eq h)
    simp [hne]

/-- A commit of XLEN-bit values leaves XLEN-bit values. -/
theorem wrap_applyWrite (x : XLen) (regs : Vector Word 32) (w : RegWrite) (hw : x.wrap w.value = w.value)
    (h : ∀ (i : Nat) (hi : i < 32), x.wrap regs[i] = regs[i]) (i : Nat) (hi : i < 32) :
    x.wrap (applyWrite regs w)[i] = (applyWrite regs w)[i] := by
  unfold applyWrite
  split_ifs
  · exact h i hi
  · rw [Vector.getElem_set]
    split_ifs
    · exact hw
    · exact h i hi

variable {s u : State} {raw : RawInsn} {size : InsnSize}

/-- Execution logs one XLEN-bit value at most, so the commit keeps the registers sound. -/
theorem State.Executed.retire_regsOk (hu : s.Executed u) (hlog : s.stage.log = []) (h : s.RegsOk) :
    (u.retire size).RegsOk := by
  obtain ⟨hzero, hwrap⟩ := h
  unfold State.RegsOk
  rw [State.xlen, State.retire_cfg, hu.cfg, State.retire_regs, hu.regs]
  rcases hu.log with hl | ⟨r, v, -, hv, hl⟩ <;> rw [hl, hlog]
  · exact ⟨hzero, hwrap⟩
  · exact ⟨(applyWrite_zero _ _).trans hzero, wrap_applyWrite s.xlen s.regs ⟨r, v⟩ hv hwrap⟩

/-! ### The next pc -/

theorem ialignBytes_dvd_pow_bits (c : Config) (x : XLen) : c.ialignBytes ∣ 2 ^ x.bits := by
  unfold Config.ialignBytes
  split_ifs <;> cases x <;> decide

/-- An instruction is a multiple of IALIGN/8 long, unless it has two bytes without C. -/
theorem sizeBytes_aligned {c : Config} (hsize : size = .two → c.cEnabled = true) :
    (sizeBytes size).toNat % c.ialignBytes = 0 := by
  cases size with
  | two => simp [sizeBytes, Config.ialignBytes, hsize rfl]
  | four => unfold Config.ialignBytes; split_ifs <;> rfl

/-- From an aligned pc the next sequential instruction is aligned too, also where the sum wraps (10_state.md R37, R38). -/
theorem State.linkValue_aligned (ha : s.pc.toNat % s.cfg.ialignBytes = 0)
    (hsize : size = .two → s.cfg.cEnabled = true) : (s.linkValue size).toNat % s.cfg.ialignBytes = 0 := by
  rw [State.linkValue, XLen.toNat_wrap, Nat.mod_mod_of_dvd _ (ialignBytes_dvd_pow_bits _ _), BitVec.toNat_add,
    Nat.mod_mod_of_dvd _ (show _ ∣ 2 ^ 64 from ialignBytes_dvd_pow_bits s.cfg .rv64), Nat.add_mod, ha, sizeBytes_aligned hsize]
  simp

/-- The next pc is the next instruction's, or the target that execution set and checked. -/
theorem State.Executed.nextPc_cases (hu : s.Executed u) (htarget : s.stage.target = none) :
    u.nextPc size = s.linkValue size ∨
      s.xlen.wrap (u.nextPc size) = u.nextPc size ∧ (u.nextPc size).toNat % s.cfg.ialignBytes = 0 := by
  rcases hu.target with ht | ⟨t, ht, hwidth, haligned⟩
  · left
    rw [s.nextPc_seq u size hu.cfg hu.pc (ht.trans htarget), State.linkValue_eq]
  · right
    rw [u.nextPc_target size t ht]
    exact ⟨hwidth, haligned⟩

theorem State.Executed.nextPc_width (hu : s.Executed u) (htarget : s.stage.target = none) :
    s.xlen.wrap (u.nextPc size) = u.nextPc size := by
  rcases hu.nextPc_cases (size := size) htarget with hp | ⟨hwidth, -⟩
  · rw [hp, State.wrap_linkValue, State.linkValue_eq]
  · exact hwidth

theorem State.Executed.nextPc_aligned (hu : s.Executed u) (htarget : s.stage.target = none)
    (ha : s.pc.toNat % s.cfg.ialignBytes = 0) (hsize : size = .two → s.cfg.cEnabled = true) :
    (u.nextPc size).toNat % s.cfg.ialignBytes = 0 := by
  rcases hu.nextPc_cases (size := size) htarget with hp | ⟨-, haligned⟩
  · rw [hp]; exact State.linkValue_aligned ha hsize
  · exact haligned

/-! ### Memory -/

theorem State.Executed.mem_wf (hu : s.Executed u) (h : s.mem.wf = true) : u.mem.wf = true := by
  rcases hu.mem with hm | ⟨a, n, v, hm⟩ <;> rw [hm]
  · exact h
  · exact Memory.store_wf _ _ _ _ _ h

theorem State.Executed.mem_inSpace (hu : s.Executed u) (h : s.mem.inSpace s.xlen = true) :
    u.mem.inSpace s.xlen = true := by
  rcases hu.mem with hm | ⟨a, n, v, hm⟩ <;> rw [hm]
  · exact h
  · exact Memory.store_inSpace _ _ _ _ _ h

/-! ### The two ends of a step -/

theorem State.raise_beginStep (s : State) (raw : RawInsn) (c : Cause) :
    (s.beginStep raw).raise c = s.haltWith c (some raw) := rfl

/-- A fault keeps the invariant when its cause is one a step can raise, with a word unless fetch raised it. -/
theorem State.Inv.haltWith (h : s.Inv) {c : Cause} {word : Option RawInsn} (hc : c ≠ .invalidImmediate)
    (hword : word = none → ∃ a, c = .accessFault .fetch a) : (s.haltWith c word).Inv where
  cfgValid := h.cfgValid
  pcWidth := h.pcWidth
  pcAligned := h.pcAligned
  regsOk := h.regsOk
  memWf := h.memWf
  memInSpace := h.memInSpace
  stageIdle := State.haltWith_stage ..
  haltOk := ⟨rfl, hc, hword⟩

/-- A retirement keeps the invariant, if an instruction of two bytes is retired with C only. -/
theorem State.Inv.retire (h : s.Inv) (hrun : s.halt = .running) (hu : (s.beginStep raw).Executed u)
    (hsize : size = .two → s.cfg.cEnabled = true) : (u.retire size).Inv := by
  have hcfg : u.cfg = s.cfg := hu.cfg
  exact {
    cfgValid := by rw [State.retire_cfg, hcfg]; exact h.cfgValid
    pcWidth := by rw [State.xlen, State.retire_cfg, hcfg, State.retire_pc]; exact hu.nextPc_width rfl
    pcAligned := by
      rw [State.retire_cfg, hcfg, State.retire_pc]
      exact hu.nextPc_aligned rfl h.pcAligned hsize
    regsOk := hu.retire_regsOk rfl h.regsOk
    memWf := hu.mem_wf h.memWf
    memInSpace := by rw [State.xlen, State.retire_cfg, hcfg]; exact hu.mem_inSpace h.memInSpace
    stageIdle := State.retire_stage ..
    haltOk := by
      have hhalt : (u.retire size).halt = .running := hu.halt.trans hrun
      rw [State.HaltOk, hhalt]
      trivial }

/-- No instruction raises InvalidImmediate (60_exceptions.md R241). -/
theorem mayRaise_ne_invalidImmediate {i : Instr} {c : Cause} (h : mayRaise i s c) : c ≠ .invalidImmediate := by
  rintro rfl
  exact h

/-- Settles O11, by the cases of a step: a fault of fetch, of decode or of execute, and a retirement. -/
theorem stepKeepsInvariant : Obligations.StepKeepsInvariant := by
  intro s t h hstep
  obtain ⟨-, hrun, hcases⟩ := step_cases hstep
  rcases hcases with ⟨c, hfetch, rfl⟩ | ⟨raw, -, -, -, rfl⟩ | ⟨raw, i, -, hdecode, hexec⟩
  · obtain ⟨a, rfl⟩ := fetch_error hfetch
    exact h.haltWith nofun fun _ => ⟨a, rfl⟩
  · exact h.haltWith nofun nofun
  · rcases exec_ends i (s.beginStep raw) with ⟨u, hu, -, -, hr⟩ | ⟨c, hc, hr⟩
    · cases hexec.symm.trans hr
      exact h.retire hrun hu (cEnabled_of_decode_two hdecode)
    · cases hexec.symm.trans hr
      exact h.haltWith (mayRaise_ne_invalidImmediate hc) nofun

/-- Settles O12: with no record each clause of a consistent trace is empty, or true of the reset values. -/
theorem resetStartsTrace : Obligations.ResetStartsTrace := by
  intro c m
  exact ⟨{ counts := rfl, numbered := nofun, starts := nofun, chained := nofun, ends := rfl }, rfl⟩

end Sys2Proof.Machine
end

section
/-! The bytes of a little-endian number of memory, and the numbers read back from the bytes of a store, at any mix of widths
(20_memory.md R50). -/

namespace Sys2Proof.Machine

open Sys2Proof

/-! ### The value of several bytes -/

/-- `value` looks at its address modulo 2^XLEN only. -/
theorem Memory.value_mod (x : XLen) (m : Memory) (n a : Nat) : m.value x (a % 2 ^ x.bits) n = m.value x a n := by
  induction n generalizing a with
  | zero => rfl
  | succ n ih =>
    rw [Memory.value, Memory.value, Nat.mod_mod, ← ih (a % 2 ^ x.bits + 1), Nat.mod_add_mod, ih]

/-- The bytes after the first k stand k places higher. -/
theorem Memory.value_add (x : XLen) (m : Memory) (k n a : Nat) :
    m.value x a (k + n) = m.value x a k + 256 ^ k * m.value x (a + k) n := by
  induction k generalizing a with
  | zero => simp [Memory.value]
  | succ k ih =>
    rw [show k + 1 + n = k + n + 1 by omega, Memory.value, Memory.value, ih, show a + 1 + k = a + (k + 1) by omega]
    ring

/-- Byte k of the number is the byte of memory k addresses on. -/
theorem Memory.value_byte (x : XLen) (m : Memory) {k n : Nat} (hk : k < n) (a : Nat) :
    m.value x a n / 256 ^ k % 256 = (m.read ((a + k) % 2 ^ x.bits)).toNat := by
  obtain ⟨r, rfl⟩ : ∃ r, n = k + (r + 1) := ⟨n - k - 1, by omega⟩
  have hbyte := (m.read ((a + k) % 2 ^ x.bits)).isLt
  rw [Memory.value_add, Nat.add_mul_div_left _ _ (by positivity), Nat.div_eq_of_lt (Memory.value_lt x m k a), Memory.value]
  omega

/-- n bytes read from byte k on of a store of w bytes are those n bytes of its value. -/
theorem Memory.value_storeFrom_within (x : XLen) (m : Memory) (a : Nat) (v : Word) {w : Nat} (hw : w ≤ 2 ^ x.bits)
    (n k : Nat) (hk : k + n ≤ w) : (m.storeFrom x a v w).value x (a + k) n = v.toNat / 256 ^ k % 256 ^ n := by
  induction n generalizing k with
  | zero => simp [Memory.value, Nat.mod_one]
  | succ n ih =>
    have hbyte : ((v >>> (8 * k)).setWidth 8).toNat = v.toNat / 256 ^ k % 256 := by
      simp [Nat.shiftRight_eq_div_pow, Nat.pow_mul]
    rw [Memory.value, Memory.read_storeFrom_inside x w hw m a v k (by omega), hbyte, Nat.add_assoc, ih (k + 1) (by omega),
      Nat.pow_succ 256 n, Nat.mul_comm (256 ^ n), Nat.mod_mul, Nat.div_div_eq_div_mul, Nat.pow_succ]

/-- A load within the bytes of a store gives those bytes of the value stored. -/
theorem Memory.load_store_within (x : XLen) (m : Memory) (a b v : Word) {w n k : Nat} (hw : w ≤ 8) (hk : k + n ≤ w)
    (hb : b.toNat = a.toNat + k) :
    (m.store x a w v).load x b n = BitVec.ofNat 64 (v.toNat / 256 ^ k % 256 ^ n) := by
  rw [Memory.load, Memory.store, hb, Memory.value_storeFrom_within x m _ v (hw.trans (eight_le_pow_bits x)) n k hk]

/-- A load of at most eight bytes gives their number: it fits the word. -/
theorem Memory.toNat_load (x : XLen) (m : Memory) (a : Word) {n : Nat} (hn : n ≤ 8) :
    (m.load x a n).toNat = m.value x a.toNat n := by
  rw [Memory.load, BitVec.toNat_ofNat, Nat.mod_eq_of_lt]
  calc m.value x a.toNat n < 256 ^ n := Memory.value_lt ..
    _ ≤ 256 ^ 8 := Nat.pow_le_pow_right (by decide) hn
    _ = 2 ^ 64 := by norm_num

/-- Settles O44: the three loads lie within the store, and any load is the little-endian number of its bytes, which
`State.value_eq_bytesAt` says at a state holding this memory. -/
theorem mixedWidthBytes : Obligations.MixedWidthBytes := by
  intro x m
  refine ⟨?_, ?_, ?_, ?_⟩
  · exact Memory.load_store_within x m _ _ _ (k := 0) (by decide) (by decide) rfl
  · exact Memory.load_store_within x m _ _ _ (k := 3) (by decide) (by decide) rfl
  · exact Memory.load_store_within x m _ _ _ (k := 2) (by decide) (by decide) rfl
  · intro a n hn
    rw [Memory.toNat_load x m a hn]
    exact State.value_eq_bytesAt { State.resetWith { Config.default with xlen := x } [] with mem := m } a n

end Sys2Proof.Machine
end

section
/-! Fetch by the bytes at pc: its outcome as a function of them, and what a completed fetch holds (20_memory.md R61). -/

namespace Sys2Proof.Machine

open Sys2Proof

variable (s : State)

/-! ### The bytes at an address -/

theorem State.load_eq (a : Word) (n : Nat) : s.mem.load s.xlen a n = BitVec.ofNat 64 (s.bytesAt a n) := by
  rw [Memory.load, State.value_eq_bytesAt]

/-- The address of the second half of a word. -/
theorem wrap_add_two (x : XLen) (a : Word) : x.wrap (a + 2) = x.ofInt (a.toNat + 2) := XLen.wrap_add_unsigned x a 2

/-- The upper half of four bytes is the two bytes at the address two on, modulo 2^XLEN. -/
theorem State.bytesAt_four (a : Word) :
    s.bytesAt a 4 = s.bytesAt a 2 + 256 ^ 2 * s.bytesAt (s.xlen.ofInt (a.toNat + 2)) 2 := by
  have haddr : (s.xlen.ofInt (a.toNat + 2)).toNat = (a.toNat + 2) % 2 ^ s.xlen.bits := by
    rw [XLen.toNat_ofInt]
    norm_cast
  simp only [← State.value_eq_bytesAt, haddr, Memory.value_mod]
  exact Memory.value_add s.xlen s.mem 2 2 a.toNat

/-- The low two bits of the bytes at an address are those of the first byte. -/
theorem State.bytesAt_mod_four (a : Word) (n : Nat) :
    s.bytesAt a (n + 1) % 4 = (s.mem.read (a.toNat % 2 ^ s.xlen.bits)).toNat % 4 := by
  rw [← State.value_eq_bytesAt, Memory.value]
  omega

/-- Byte k of a fetched word is the byte of memory k addresses on. -/
theorem State.extractLsb'_bytesAt (a : Word) {k n : Nat} (hk : k < n) (hn : n ≤ 4) :
    (BitVec.ofNat 32 (s.bytesAt a n)).extractLsb' (8 * k) 8 = s.mem.read ((a.toNat + k) % 2 ^ s.xlen.bits) := by
  have hlt : s.bytesAt a n < 2 ^ 32 := by
    calc s.bytesAt a n < 256 ^ n := s.bytesAt_lt a n
      _ ≤ 256 ^ 4 := Nat.pow_le_pow_right (by decide) hn
      _ = 2 ^ 32 := by norm_num
  apply BitVec.eq_of_toNat_eq
  rw [BitVec.extractLsb'_toNat, BitVec.toNat_ofNat, Nat.mod_eq_of_lt hlt, Nat.shiftRight_eq_div_pow, Nat.pow_mul,
    ← Memory.value_byte s.xlen s.mem hk a.toNat, State.value_eq_bytesAt]

/-- The test of a length, on a number and on its low two bits (30_encoding.md R69). -/
theorem setWidth_two_eq_three_iff {n : Nat} (hn : 2 ≤ n) (b : Nat) :
    (BitVec.ofNat n b).setWidth 2 = 0b11#2 ↔ b % 4 = 3 := by
  rw [BitVec.setWidth_ofNat_of_le hn, ← BitVec.toNat_inj, BitVec.toNat_ofNat]
  rfl

/-! ### The fetch -/

/-- A halfword, as fetch reads one. -/
theorem State.load_half (a : Word) : (s.mem.load s.xlen a 2).setWidth 16 = BitVec.ofNat 16 (s.bytesAt a 2) := by
  rw [State.load_eq, BitVec.setWidth_ofNat_of_le (by decide)]

/-- Two halfwords read one after the other are the word there. -/
theorem State.append_halves (a : Word) :
    BitVec.ofNat 16 (s.bytesAt (s.xlen.ofInt (a.toNat + 2)) 2) ++ BitVec.ofNat 16 (s.bytesAt a 2) =
      BitVec.ofNat 32 (s.bytesAt a 4) := by
  have hlo := s.bytesAt_lt a 2
  have hhi := s.bytesAt_lt (s.xlen.ofInt (a.toNat + 2)) 2
  apply BitVec.eq_of_toNat_eq
  rw [BitVec.toNat_append, ← Nat.shiftLeft_add_eq_or_of_lt (BitVec.isLt _), Nat.shiftLeft_eq, State.bytesAt_four]
  simp only [BitVec.toNat_ofNat]
  omega

/-- The outcome of a fetch, by the admissions and the bytes at pc (20_memory.md R61). -/
theorem State.fetch_eq : s.fetch =
    if s.cfg.cEnabled then
      if s.cfg.memAdmits s.pc 2 then
        if s.bytesAt s.pc 2 % 4 = 3 then
          if s.cfg.memAdmits (s.xlen.ofInt (s.pc.toNat + 2)) 2 then .ok ⟨BitVec.ofNat 32 (s.bytesAt s.pc 4), .four⟩
          else .error (.accessFault .fetch (s.xlen.ofInt (s.pc.toNat + 2)))
        else .ok ⟨BitVec.ofNat 32 (s.bytesAt s.pc 2), .two⟩
      else .error (.accessFault .fetch s.pc)
    else if s.cfg.memAdmits s.pc 4 then .ok ⟨BitVec.ofNat 32 (s.bytesAt s.pc 4), .four⟩
    else .error (.accessFault .fetch s.pc) := by
  have hlen : (BitVec.ofNat 16 (s.bytesAt s.pc 2)).extractLsb' 0 2 = 0b11#2 ↔ s.bytesAt s.pc 2 % 4 = 3 := by
    rw [← BitVec.setWidth_eq_extractLsb' (by decide), setWidth_two_eq_three_iff (by decide)]
  have hlow : (BitVec.ofNat 16 (s.bytesAt s.pc 2)).setWidth 32 = BitVec.ofNat 32 (s.bytesAt s.pc 2) :=
    BitVec.setWidth_ofNat_of_le_of_lt (by decide) (s.bytesAt_lt s.pc 2)
  have hword : (s.mem.load s.xlen s.pc 4).setWidth 32 = BitVec.ofNat 32 (s.bytesAt s.pc 4) := by
    rw [State.load_eq, BitVec.setWidth_ofNat_of_le (by decide)]
  unfold State.fetch
  simp only [State.load_half, hlen, hlow, hword, wrap_add_two, State.append_halves]

/-- Settles O16: each clause is one path through the outcome of a fetch. -/
theorem fetchFollowsRule : Obligations.FetchFollowsRule := by
  intro s
  rw [State.fetch_eq]
  refine ⟨?_, ?_, ?_, ?_, ?_, ?_⟩
  · intro hc h2; simp [hc, h2]
  · intro hc h2 hlen; simp [hc, h2, hlen]
  · intro hc h2 hlen hhi; simp [hc, h2, hlen, hhi]
  · intro hc h2 hlen hhi; simp [hc, h2, hlen, hhi]
  · intro hc h4; simp [hc, h4]
  · intro hc h4; simp [hc, h4]

variable {s}

/-- A completed fetch holds a halfword, with C and low bits other than 11, or a word. -/
theorem fetch_ok_cases {raw : RawInsn} (h : s.fetch = .ok raw) :
    (s.cfg.cEnabled = true ∧ s.bytesAt s.pc 2 % 4 ≠ 3 ∧ raw = ⟨BitVec.ofNat 32 (s.bytesAt s.pc 2), .two⟩) ∨
      ((s.cfg.cEnabled = true → s.bytesAt s.pc 4 % 4 = 3) ∧ raw = ⟨BitVec.ofNat 32 (s.bytesAt s.pc 4), .four⟩) := by
  have hlow : s.bytesAt s.pc 4 % 4 = s.bytesAt s.pc 2 % 4 := by rw [State.bytesAt_mod_four, State.bytesAt_mod_four]
  rw [State.fetch_eq] at h
  split_ifs at h with hc h2 hlen hhi h4
  · cases h; exact .inr ⟨fun _ => hlow.trans hlen, rfl⟩
  · cases h; exact .inl ⟨hc, hlen, rfl⟩
  · cases h; exact .inr ⟨fun hc' => absurd hc' hc, rfl⟩

/-- Byte k of a fetched instruction is the byte of memory at pc + k, modulo 2^XLEN. -/
theorem fetch_ok_byte {raw : RawInsn} (h : s.fetch = .ok raw) {k : Nat} (hk : k < (sizeBytes raw.size).toNat) :
    raw.bits.extractLsb' (8 * k) 8 = s.mem.read ((s.pc.toNat + k) % 2 ^ s.xlen.bits) := by
  rcases fetch_ok_cases h with ⟨-, -, rfl⟩ | ⟨-, rfl⟩
  · exact s.extractLsb'_bytesAt s.pc hk (by decide)
  · exact s.extractLsb'_bytesAt s.pc hk (by decide)

/-- A fetched instruction is a halfword just when C is enabled and its low two bits are not 11. -/
theorem fetch_ok_size_two_iff {raw : RawInsn} (h : s.fetch = .ok raw) :
    raw.size = .two ↔ s.cfg.cEnabled = true ∧ raw.bits.setWidth 2 ≠ 0b11#2 := by
  rcases fetch_ok_cases h with ⟨hc, hlen, rfl⟩ | ⟨hlen, rfl⟩
  · rw [ne_eq, setWidth_two_eq_three_iff (by decide)]
    simp [hc, hlen]
  · rw [ne_eq, setWidth_two_eq_three_iff (by decide)]
    simpa using hlen

/-- Nothing stands above a fetched halfword. -/
theorem fetch_ok_two_high {raw : RawInsn} (h : s.fetch = .ok raw) (hsize : raw.size = .two) :
    raw.bits.extractLsb' 16 16 = 0#16 := by
  rcases fetch_ok_cases h with ⟨-, -, rfl⟩ | ⟨-, rfl⟩
  · have hlt := s.bytesAt_lt s.pc 2
    apply BitVec.eq_of_toNat_eq
    simp only [BitVec.extractLsb'_toNat, BitVec.toNat_ofNat, Nat.shiftRight_eq_div_pow]
    omega
  · cases hsize

/-- Without C one admitted word is fetched. -/
theorem exists_fetch_ok_of_word (hc : s.cfg.cEnabled = false) (h4 : s.cfg.memAdmits s.pc 4 = true) :
    ∃ raw, s.fetch = .ok raw := by
  obtain ⟨-, -, -, -, -, hword⟩ := fetchFollowsRule s
  exact ⟨_, hword hc h4⟩

/-- With C an admitted halfword is fetched, and its second half if it is a word's and admitted too. -/
theorem exists_fetch_ok_of_half (hc : s.cfg.cEnabled = true) (h2 : s.cfg.memAdmits s.pc 2 = true)
    (hlen : (s.mem.read (s.pc.toNat % 2 ^ s.xlen.bits)).setWidth 2 ≠ 0b11#2 ∨
      s.cfg.memAdmits (s.xlen.ofInt (s.pc.toNat + 2)) 2 = true) : ∃ raw, s.fetch = .ok raw := by
  obtain ⟨-, hhalf, -, hword, -, -⟩ := fetchFollowsRule s
  by_cases h3 : s.bytesAt s.pc 2 % 4 = 3
  · rcases hlen with hlow | hhi
    · rw [State.bytesAt_mod_four] at h3
      exact absurd (BitVec.eq_of_toNat_eq (by rw [BitVec.toNat_setWidth]; exact h3)) hlow
    · exact ⟨_, hword hc h2 h3 hhi⟩
  · exact ⟨_, hhalf hc h2 h3⟩

end Sys2Proof.Machine
end

section
/-! What an execution leaves in memory: the frame of every instruction that is not a store, and the bytes of a store, which
the next fetch reads (20_memory.md R52, R56, R67; 70_reset_and_hazards.md R260). -/

namespace Sys2Proof.Machine

open Sys2Proof

variable {i : Instr} {s t : State}

/-- An instruction that is not a store leaves memory as it was, retired or faulted. -/
theorem exec_mem_of_not_store (hn : ∀ a, dataAccess i = some a → a.kind ≠ .store) (h : exec i s = .next t) :
    t.mem = s.mem := by
  rcases exec_ends i s with ⟨u, -, -, hmem, hr⟩ | ⟨c, -, hr⟩
  · cases h.symm.trans hr
    rw [State.retire_mem, hmem hn]
  · cases h.symm.trans hr
    exact State.raise_mem s c

/-- Settles O21, by the two ends of an execution. -/
theorem onlyStoresChangeMemory : Obligations.OnlyStoresChangeMemory := by
  intro i s t hn h a
  rw [exec_mem_of_not_store hn h]

/-- Execution of a store is `storeFrom` at the address of its data access, of the source register reported as rs2. -/
theorem exec_store {a : DataAccess} (hacc : dataAccess i = some a) (hstore : a.kind = .store) (s : State) :
    ∃ disp, exec i s = s.storeFrom i.size a.gran a.base (sourceRegs i).2 disp ∧
      s.effectiveAddress a.base disp = s.accessAddress a := by
  cases i with
  | sb rs1 rs2 imm => cases hacc; exact ⟨_, exec_sb s rs1 rs2 imm, s.effectiveAddress_signed rs1 imm⟩
  | sh rs1 rs2 imm => cases hacc; exact ⟨_, exec_sh s rs1 rs2 imm, s.effectiveAddress_signed rs1 imm⟩
  | sw rs1 rs2 imm => cases hacc; exact ⟨_, exec_sw s rs1 rs2 imm, s.effectiveAddress_signed rs1 imm⟩
  | sd rs1 rs2 imm => cases hacc; exact ⟨_, exec_sd s rs1 rs2 imm, s.effectiveAddress_signed rs1 imm⟩
  | cSw rs1 rs2 uimm => cases hacc; exact ⟨_, exec_cSw s rs1 rs2 uimm, s.effectiveAddress_unsigned rs1 uimm⟩
  | cSd rs1 rs2 uimm => cases hacc; exact ⟨_, exec_cSd s rs1 rs2 uimm, s.effectiveAddress_unsigned rs1 uimm⟩
  | cSwsp rs2 uimm => cases hacc; exact ⟨_, exec_cSwsp s rs2 uimm, s.effectiveAddress_unsigned 2 uimm⟩
  | cSdsp rs2 uimm => cases hacc; exact ⟨_, exec_cSdsp s rs2 uimm, s.effectiveAddress_unsigned 2 uimm⟩
  | _ => cases hacc <;> cases hstore

/-- A store that did not halt has stored its source register's low bytes at its address. -/
theorem exec_store_mem {a : DataAccess} (hready : s.Ready) (hacc : dataAccess i = some a) (hstore : a.kind = .store)
    (h : exec i s = .next t) (hrun : t.halt = .running) :
    t.mem = s.mem.store s.xlen (s.accessAddress a) a.gran.bytes (storeData a.gran (s.x (sourceRegs i).2)) := by
  obtain ⟨disp, hexec, haddr⟩ := exec_store hacc hstore s
  rw [hexec] at h
  cases hc : s.accessCheck .store (s.effectiveAddress a.base disp) a.gran with
  | some c =>
    obtain ⟨u, hu, rfl⟩ := s.storeFrom_halts i.size a.gran a.base (sourceRegs i).2 disp c hc
    cases h.symm.trans hu
    cases hrun
  | none =>
    obtain ⟨u, hu, -, hmem⟩ := s.storeFrom_next hready i.size a.gran a.base (sourceRegs i).2 disp
      ((s.accessCheck_none _ _ _).1 hc)
    cases h.symm.trans hu
    rw [hmem, haddr]

/-- Settles O45: a fetch reads, byte by byte, the memory that the store left. -/
theorem storeIsSeenByFetch : Obligations.StoreIsSeenByFetch := by
  intro i a s t p hready hacc hstore h hrun u
  have hcfg : u.cfg = s.cfg := exec_cfg (t := t) h
  have hx : u.xlen = s.xlen := congrArg Config.xlen hcfg
  have hmem : u.mem = s.mem.store s.xlen (s.accessAddress a) a.gran.bytes (storeData a.gran (s.x (sourceRegs i).2)) :=
    exec_store_mem (t := t) hready hacc hstore h hrun
  rw [← hcfg]
  refine ⟨fun raw hraw => ⟨fun k hk => ?_, fetch_ok_size_two_iff hraw, fetch_ok_two_high hraw⟩,
    exists_fetch_ok_of_word (s := u), ?_⟩
  · have hlt : k < (sizeBytes raw.size).toNat := by
      obtain ⟨bits, size⟩ := raw
      cases size <;> exact hk
    have hbyte := fetch_ok_byte hraw hlt
    rw [hmem, hx] at hbyte
    rw [hbyte]
    refine ⟨fun j hj heq => ?_, fun hne => ?_⟩
    · rw [heq]
      exact s.read_store_inside a.gran _ _ j hj
    · exact Memory.read_storeFrom_outside _ _ _ _ _ _ hne
  · rw [← hx]
    exact exists_fetch_ok_of_half (s := u)

end Sys2Proof.Machine
end

section
/-! Decoding an encoding (30_encoding.md R91): each row's decoder reads from the encoding of a well-formed instruction
that instruction, and the length announced in the low bits sends decode to that decoder. -/

namespace Sys2Proof

open Sys2Proof.Machine

/-! ### What an enabled gate says of the configuration (30_encoding.md R86) -/

theorem Gate.enabled_base32 {c : Config} : Gate.base32.enabled c = true ↔ c.xlen = .rv32 := by simp [Gate.enabled]

theorem Gate.enabled_base64 {c : Config} : Gate.base64.enabled c = true ↔ c.xlen = .rv64 := by simp [Gate.enabled]

theorem Gate.enabled_compressed32 {c : Config} :
    Gate.compressed32.enabled c = true ↔ c.cEnabled = true ∧ c.xlen = .rv32 := by simp [Gate.enabled]

theorem Gate.enabled_compressed64 {c : Config} :
    Gate.compressed64.enabled c = true ↔ c.cEnabled = true ∧ c.xlen = .rv64 := by simp [Gate.enabled]

/-! ### The two tables -/

theorem encode_size (i : Instr) : (encode i).size = i.size := by cases i <;> rfl

/-- The 32-bit table reads back what the encoder laid out, row by row (30_encoding.md R92, R93). -/
theorem decode32_encode {c : Config} {i : Instr} (h : i.wellFormed c = true) (hi : i.size = .four) :
    ∃ w, encode i = rawWord w ∧ decode32 c.xlen w = some i := by
  obtain ⟨hgate, hfields⟩ := Bool.and_eq_true_iff.1 h
  cases i with
  | lui rd imm | auipc rd imm => exact ⟨_, rfl, by simp [decode32]⟩
  | jal rd imm => exact ⟨_, rfl, by simp [decode32, immJ_encJ imm rd _ hfields]⟩
  | jalr rd rs1 imm => exact ⟨_, rfl, by simp [decode32]⟩
  | beq rs1 rs2 imm | bne rs1 rs2 imm | blt rs1 rs2 imm | bge rs1 rs2 imm | bltu rs1 rs2 imm | bgeu rs1 rs2 imm =>
    exact ⟨_, rfl, by simp [decode32, decodeBranch, immB_encB imm rs2 rs1 _ _ hfields]⟩
  | lb rd rs1 imm | lh rd rs1 imm | lw rd rs1 imm | lbu rd rs1 imm | lhu rd rs1 imm =>
    exact ⟨_, rfl, by simp [decode32, decodeLoad]⟩
  | ld rd rs1 imm | lwu rd rs1 imm =>
    exact ⟨_, rfl, by simp [decode32, decodeLoad, onlyRv64, Gate.enabled_base64.1 hgate]⟩
  | sb rs1 rs2 imm | sh rs1 rs2 imm | sw rs1 rs2 imm => exact ⟨_, rfl, by simp [decode32, decodeStore]⟩
  | sd rs1 rs2 imm => exact ⟨_, rfl, by simp [decode32, decodeStore, onlyRv64, Gate.enabled_base64.1 hgate]⟩
  | addi rd rs1 imm | slti rd rs1 imm | sltiu rd rs1 imm | xori rd rs1 imm | ori rd rs1 imm | andi rd rs1 imm =>
    exact ⟨_, rfl, by simp [decode32, decodeOpImm]⟩
  | slli32 rd rs1 sh | srli32 rd rs1 sh | srai32 rd rs1 sh =>
    exact ⟨_, rfl, by simp [decode32, decodeOpImm, decodeOpImmShift, Gate.enabled_base32.1 hgate]⟩
  | slli64 rd rs1 sh | srli64 rd rs1 sh | srai64 rd rs1 sh =>
    exact ⟨_, rfl, by simp [decode32, decodeOpImm, decodeOpImmShift, Gate.enabled_base64.1 hgate]⟩
  | add rd rs1 rs2 | sub rd rs1 rs2 | sll rd rs1 rs2 | slt rd rs1 rs2 | sltu rd rs1 rs2 | xor rd rs1 rs2
  | srl rd rs1 rs2 | sra rd rs1 rs2 | or rd rs1 rs2 | and rd rs1 rs2 =>
    exact ⟨_, rfl, by simp [decode32, decodeOp]⟩
  | fence fm pred succ rs1 rd => exact ⟨_, rfl, by simp [decode32, decodeMiscMem]⟩
  | ecall | ebreak => exact ⟨_, rfl, rfl⟩
  | csrrw rd rs1 csr | csrrs rd rs1 csr | csrrc rd rs1 csr | csrrwi rd rs1 csr | csrrsi rd rs1 csr
  | csrrci rd rs1 csr =>
    exact ⟨_, rfl, by simp [decode32, decodeSystem]⟩
  | addiw rd rs1 imm | slliw rd rs1 sh | srliw rd rs1 sh | sraiw rd rs1 sh =>
    exact ⟨_, rfl, by simp [decode32, decodeOpImm32, onlyRv64, Gate.enabled_base64.1 hgate]⟩
  | addw rd rs1 rs2 | subw rd rs1 rs2 | sllw rd rs1 rs2 | srlw rd rs1 rs2 | sraw rd rs1 rs2 =>
    exact ⟨_, rfl, by simp [decode32, decodeOp32, onlyRv64, Gate.enabled_base64.1 hgate]⟩
  | _ => cases hi

/-- The 16-bit table reads back what the encoder laid out, row by row (30_encoding.md R94 to R96). -/
theorem decode16_encode {c : Config} {i : Instr} (h : i.wellFormed c = true) (hi : i.size = .two) :
    ∃ v, encode i = rawHalf v ∧ decode16 c.xlen v = some i := by
  obtain ⟨hgate, hfields⟩ := Bool.and_eq_true_iff.1 h
  cases i with
  | cAddi4spn rd imm =>
    simp only [Instr.fieldsOk, Bool.and_eq_true, bne_iff_ne, BitVec.ofNat_eq_ofNat] at hfields
    exact ⟨_, rfl, by simp [decode16, decodeQ0, provided, cRd'Of_encCiw, immAddi4spn_encCiw, hfields]⟩
  | cLw rd rs1 imm | cSw rs1 rd imm =>
    simp only [Instr.fieldsOk, Bool.and_eq_true] at hfields
    exact ⟨_, rfl, by simp [decode16, decodeQ0, cRd'Of_encClw, cRs1'Of_encClw, immClw_encClw, hfields]⟩
  | cLd rd rs1 imm | cSd rs1 rd imm =>
    simp only [Instr.fieldsOk, Bool.and_eq_true] at hfields
    obtain ⟨-, hx⟩ := Gate.enabled_compressed64.1 hgate
    exact ⟨_, rfl, by simp [decode16, decodeQ0, onlyRv64, cRd'Of_encCld, cRs1'Of_encCld, immCld_encCld, hx, hfields]⟩
  | cNop imm | cLi rd imm => exact ⟨_, rfl, by simp [decode16, decodeQ1]⟩
  | cAddi rd imm =>
    have hrd : rd ≠ 0#5 := bne_iff_ne.1 hfields
    exact ⟨_, rfl, by simpa [decode16, decodeQ1] using hrd⟩
  | cJal imm =>
    obtain ⟨-, hx⟩ := Gate.enabled_compressed32.1 hgate
    exact ⟨_, rfl, by simp [decode16, decodeQ1, immCj_encCj _ imm hfields, hx]⟩
  | cAddiw rd imm =>
    obtain ⟨-, hx⟩ := Gate.enabled_compressed64.1 hgate
    have hrd : rd ≠ 0#5 := bne_iff_ne.1 hfields
    exact ⟨_, rfl, by simp [decode16, decodeQ1, provided, hx, hrd]⟩
  | cAddi16sp imm =>
    simp only [Instr.fieldsOk, Bool.and_eq_true, bne_iff_ne, BitVec.ofNat_eq_ofNat] at hfields
    exact ⟨_, rfl, by simp [decode16, decodeQ1, provided, immAddi16sp_encAddi16sp, hfields]⟩
  | cLui rd imm =>
    simp only [Instr.fieldsOk, Bool.and_eq_true, bne_iff_ne, BitVec.ofNat_eq_ofNat] at hfields
    exact ⟨_, rfl, by simp [decode16, decodeQ1, provided, hfields]⟩
  | cSrli rd sh | cSrai rd sh =>
    simp only [Instr.fieldsOk, Bool.and_eq_true] at hfields
    exact ⟨_, rfl, by simp [decode16, decodeQ1, decodeMiscAlu, provided, cRs1'Of_encCbAlu, hfields]⟩
  | cAndi rd imm =>
    exact ⟨_, rfl, by simp [decode16, decodeQ1, decodeMiscAlu, cRs1'Of_encCbAlu _ _ _ hfields]⟩
  | cSub rd rs2 | cXor rd rs2 | cOr rd rs2 | cAnd rd rs2 =>
    simp only [Instr.fieldsOk, Bool.and_eq_true] at hfields
    exact ⟨_, rfl, by simp [decode16, decodeQ1, decodeMiscAlu, decodeCa, cRs1'Of_encCa, cRd'Of_encCa, hfields]⟩
  | cSubw rd rs2 | cAddw rd rs2 =>
    simp only [Instr.fieldsOk, Bool.and_eq_true] at hfields
    obtain ⟨-, hx⟩ := Gate.enabled_compressed64.1 hgate
    exact ⟨_, rfl, by simp [decode16, decodeQ1, decodeMiscAlu, decodeCa, onlyRv64, cRs1'Of_encCa, cRd'Of_encCa, hx,
      hfields]⟩
  | cJ imm => exact ⟨_, rfl, by simp [decode16, decodeQ1, immCj_encCj _ imm hfields]⟩
  | cBeqz rs1 imm | cBnez rs1 imm =>
    simp only [Instr.fieldsOk, Bool.and_eq_true] at hfields
    exact ⟨_, rfl, by simp [decode16, decodeQ1, cRs1'Of_encCb, immCb_encCb, hfields]⟩
  | cSlli rd sh =>
    have hsh : shamtFits c.xlen sh = true := hfields
    exact ⟨_, rfl, by simp [decode16, decodeQ2, provided, hsh]⟩
  | cLwsp rd imm =>
    simp only [Instr.fieldsOk, Bool.and_eq_true, bne_iff_ne, BitVec.ofNat_eq_ofNat] at hfields
    exact ⟨_, rfl, by simp [decode16, decodeQ2, provided, immLwsp_encLwsp, hfields]⟩
  | cLdsp rd imm =>
    simp only [Instr.fieldsOk, Bool.and_eq_true, bne_iff_ne, BitVec.ofNat_eq_ofNat] at hfields
    obtain ⟨-, hx⟩ := Gate.enabled_compressed64.1 hgate
    exact ⟨_, rfl, by simp [decode16, decodeQ2, provided, onlyRv64, immLdsp_encLdsp, hx, hfields]⟩
  | cJr rs1 | cJalr rs1 =>
    have hrs1 : rs1 ≠ 0#5 := bne_iff_ne.1 hfields
    exact ⟨_, rfl, by simp [decode16, decodeQ2, decodeCr, provided, hrs1]⟩
  | cMv rd rs2 | cAdd rd rs2 =>
    have hrs2 : rs2 ≠ 0#5 := bne_iff_ne.1 hfields
    exact ⟨_, rfl, by simp [decode16, decodeQ2, decodeCr, hrs2]⟩
  | cEbreak => exact ⟨_, rfl, rfl⟩
  | cSwsp rs2 imm => exact ⟨_, rfl, by simp [decode16, decodeQ2, immSwsp_encSwsp _ _ hfields]⟩
  | cSdsp rs2 imm =>
    obtain ⟨-, hx⟩ := Gate.enabled_compressed64.1 hgate
    exact ⟨_, rfl, by simp [decode16, decodeQ2, onlyRv64, immSdsp_encSdsp _ _ hfields, hx]⟩
  | _ => cases hi

/-! ### From a table to decode (30_encoding.md R69) -/

/-- Every major opcode of the 32-bit table is one of a 32-bit instruction, so what the table reads is decoded. -/
theorem decode_of_decode32 {c : Config} {w : BitVec 32} {i : Instr} (hd : decode32 c.xlen w = some i) :
    decode c w = .ok i := by
  have h := hd
  unfold decode32 at h
  split at h
  case h_14 => cases h
  all_goals exact decode_word c w i _ ‹opcodeOf w = _› (by decide) (by decide) hd

/-- No quadrant of the 16-bit table is 11, so with C what the table reads is decoded. -/
theorem decode_of_decode16 {c : Config} {v : BitVec 16} {i : Instr} (hc : c.cEnabled = true)
    (hd : decode16 c.xlen v = some i) : decode c (v.setWidth 32) = .ok i :=
  decode_half c v i _ hc rfl (fun hq => by simp [decode16, hq] at hd) hd

theorem cEnabled_of_wellFormed_two {c : Config} {i : Instr} (h : i.wellFormed c = true) (hi : i.size = .two) :
    c.cEnabled = true := by
  obtain ⟨hgate, -⟩ := Bool.and_eq_true_iff.1 h
  unfold Instr.size at hi
  cases hg : i.gate with
  | base | base32 | base64 => rw [hg] at hi; cases hi
  | compressed => rwa [hg] at hgate
  | compressed32 => rw [hg] at hgate; exact (Gate.enabled_compressed32.1 hgate).1
  | compressed64 => rw [hg] at hgate; exact (Gate.enabled_compressed64.1 hgate).1

/-- Settles O1, by the table that the instruction's size names. -/
theorem decodeInvertsEncode : Obligations.DecodeInvertsEncode := by
  intro c i h
  refine ⟨?_, encode_size i⟩
  cases hi : i.size with
  | four =>
    obtain ⟨w, hw, hd⟩ := decode32_encode h hi
    rw [hw]
    exact decode_of_decode32 hd
  | two =>
    obtain ⟨v, hv, hd⟩ := decode16_encode h hi
    rw [hv]
    exact decode_of_decode16 (cEnabled_of_wellFormed_two h hi) hd

end Sys2Proof
end

section
/-! The decoder is exact (30_encoding.md R86, R87): whatever a row's decoder answers is well formed, and encodes back to
the word, because the row's fields and its fixed bits laid out again are the word. -/

namespace Sys2Proof

open Sys2Proof.Machine

/-- Whatever instruction a row's decoder answers is well formed, and `raw` is its encoding. -/
def ReadsExactly (c : Config) (raw : RawInsn) (o : Option Instr) : Prop :=
  ∀ i, o = some i → i.wellFormed c = true ∧ encode i = raw

variable {c : Config} {raw : RawInsn} {i : Instr} {w : BitVec 32} {v : BitVec 16}

/-! ### The shapes of an answer -/

@[simp] theorem readsExactly_none : ReadsExactly c raw none := nofun

@[simp] theorem readsExactly_some : ReadsExactly c raw (some i) ↔ i.wellFormed c = true ∧ encode i = raw := by
  simp [ReadsExactly]

@[simp] theorem readsExactly_onlyRv64 :
    ReadsExactly c raw (onlyRv64 c.xlen i) ↔ (c.xlen = .rv64 → i.wellFormed c = true ∧ encode i = raw) := by
  cases hx : c.xlen <;> simp [onlyRv64]

@[simp] theorem readsExactly_provided {p : Bool} :
    ReadsExactly c raw (provided p i) ↔ (p = true → i.wellFormed c = true ∧ encode i = raw) := by
  cases p <;> simp [provided]

theorem ReadsExactly.bind_onlyRv64 {o : Option Instr} (h : c.xlen = .rv64 → ReadsExactly c raw o) :
    ReadsExactly c raw (o.bind (onlyRv64 c.xlen)) := by
  cases o with
  | none => exact readsExactly_none
  | some i => exact readsExactly_onlyRv64.2 fun hx => readsExactly_some.1 (h hx)

/-! ### What the decoder's fields always satisfy: the low zero bits of an Immediate, and a register of x8 .. x15 -/

@[simp] theorem multipleOf_immB (w : BitVec 32) : multipleOf 2 (immB w) = true := multipleOf_append _ 1
@[simp] theorem multipleOf_immJ (w : BitVec 32) : multipleOf 2 (immJ w) = true := multipleOf_append _ 1
@[simp] theorem multipleOf_immAddi4spn (v : BitVec 16) : multipleOf 4 (immAddi4spn v) = true := multipleOf_append _ 2
@[simp] theorem multipleOf_immClw (v : BitVec 16) : multipleOf 4 (immClw v) = true := multipleOf_append _ 2
@[simp] theorem multipleOf_immCld (v : BitVec 16) : multipleOf 8 (immCld v) = true := multipleOf_append _ 3
@[simp] theorem multipleOf_immAddi16sp (v : BitVec 16) : multipleOf 16 (immAddi16sp v) = true := multipleOf_append _ 4
@[simp] theorem multipleOf_immLwsp (v : BitVec 16) : multipleOf 4 (immLwsp v) = true := multipleOf_append _ 2
@[simp] theorem multipleOf_immLdsp (v : BitVec 16) : multipleOf 8 (immLdsp v) = true := multipleOf_append _ 3
@[simp] theorem multipleOf_immSwsp (v : BitVec 16) : multipleOf 4 (immSwsp v) = true := multipleOf_append _ 2
@[simp] theorem multipleOf_immSdsp (v : BitVec 16) : multipleOf 8 (immSdsp v) = true := multipleOf_append _ 3
@[simp] theorem multipleOf_immCj (v : BitVec 16) : multipleOf 2 (immCj v) = true := multipleOf_append _ 1
@[simp] theorem multipleOf_immCb (v : BitVec 16) : multipleOf 2 (immCb v) = true := multipleOf_append _ 1
@[simp] theorem isCReg_cRs1'Of (v : BitVec 16) : isCReg (cRs1'Of v) = true := isCReg_cReg _
@[simp] theorem isCReg_cRd'Of (v : BitVec 16) : isCReg (cRd'Of v) = true := isCReg_cReg _

/-! ### The 32-bit table, by major opcode (30_encoding.md R92, R93) -/

theorem readsExactly_decodeLoad (hop : opcodeOf w = 0b0000011#7) :
    ReadsExactly c (rawWord w) (decodeLoad c.xlen w) := by
  have layout := encI_fields w
  rw [hop] at layout
  unfold decodeLoad
  split <;> simp_all [Instr.wellFormed, Instr.gate, Gate.enabled, Instr.fieldsOk, encode]

theorem readsExactly_decodeStore (hop : opcodeOf w = 0b0100011#7) :
    ReadsExactly c (rawWord w) (decodeStore c.xlen w) := by
  have layout := encS_fields w
  rw [hop] at layout
  unfold decodeStore
  split <;> simp_all [Instr.wellFormed, Instr.gate, Gate.enabled, Instr.fieldsOk, encode]

theorem readsExactly_decodeMiscMem (hop : opcodeOf w = 0b0001111#7) :
    ReadsExactly c (rawWord w) (decodeMiscMem w) := by
  have layout := encI_fence w
  rw [hop] at layout
  unfold decodeMiscMem
  split <;> simp_all [Instr.wellFormed, Instr.gate, Gate.enabled, Instr.fieldsOk, encode]

theorem readsExactly_decodeOpImmShift (hop : opcodeOf w = 0b0010011#7) :
    ReadsExactly c (rawWord w) (decodeOpImmShift c.xlen w) := by
  cases hx : c.xlen with
  | rv32 =>
    have layout := encR_shamt w
    rw [hop] at layout
    simp only [decodeOpImmShift]
    split <;> simp_all [Instr.wellFormed, Instr.gate, Gate.enabled, Instr.fieldsOk, encode]
  | rv64 =>
    have layout := encShift6_fields w
    rw [hop] at layout
    simp only [decodeOpImmShift]
    split <;> simp_all [Instr.wellFormed, Instr.gate, Gate.enabled, Instr.fieldsOk, encode]

theorem readsExactly_decodeOpImm (hop : opcodeOf w = 0b0010011#7) :
    ReadsExactly c (rawWord w) (decodeOpImm c.xlen w) := by
  have layout := encI_fields w
  rw [hop] at layout
  unfold decodeOpImm
  split
  case h_7 => exact readsExactly_decodeOpImmShift hop
  all_goals simp_all [Instr.wellFormed, Instr.gate, Gate.enabled, Instr.fieldsOk, encode]

theorem readsExactly_decodeOp (hop : opcodeOf w = 0b0110011#7) : ReadsExactly c (rawWord w) (decodeOp w) := by
  have layout := encR_fields w
  rw [hop] at layout
  unfold decodeOp
  split <;> simp_all [Instr.wellFormed, Instr.gate, Gate.enabled, Instr.fieldsOk, encode]

theorem readsExactly_decodeOpImm32 (hop : opcodeOf w = 0b0011011#7) (hx : c.xlen = .rv64) :
    ReadsExactly c (rawWord w) (decodeOpImm32 w) := by
  have layout := encI_fields w
  have shift := encR_shamt w
  rw [hop] at layout shift
  unfold decodeOpImm32
  split <;> simp_all [Instr.wellFormed, Instr.gate, Gate.enabled, Instr.fieldsOk, encode]

theorem readsExactly_decodeOp32 (hop : opcodeOf w = 0b0111011#7) (hx : c.xlen = .rv64) :
    ReadsExactly c (rawWord w) (decodeOp32 w) := by
  have layout := encR_fields w
  rw [hop] at layout
  unfold decodeOp32
  split <;> simp_all [Instr.wellFormed, Instr.gate, Gate.enabled, Instr.fieldsOk, encode]

theorem readsExactly_decodeBranch (hop : opcodeOf w = 0b1100011#7) : ReadsExactly c (rawWord w) (decodeBranch w) := by
  have layout := encB_fields w
  rw [hop] at layout
  unfold decodeBranch
  split <;> simp_all [Instr.wellFormed, Instr.gate, Gate.enabled, Instr.fieldsOk, encode]

theorem readsExactly_decodeSystem (hop : opcodeOf w = 0b1110011#7) : ReadsExactly c (rawWord w) (decodeSystem w) := by
  have layout := encI_fields w
  rw [hop] at layout
  unfold decodeSystem
  split
  case h_1 =>
    split_ifs <;> simp_all [Instr.wellFormed, Instr.gate, Gate.enabled, Instr.fieldsOk, encode]
  all_goals simp_all [Instr.wellFormed, Instr.gate, Gate.enabled, Instr.fieldsOk, encode]

theorem readsExactly_decode32 (c : Config) (w : BitVec 32) : ReadsExactly c (rawWord w) (decode32 c.xlen w) := by
  have upper := encU_fields w
  have jump := encJ_fields w
  have jumpReg := encI_fields w
  unfold decode32
  split <;> rename_i hop
  · exact readsExactly_decodeLoad hop
  · exact readsExactly_decodeMiscMem hop
  · exact readsExactly_decodeOpImm hop
  · rw [hop] at upper
    simp [Instr.wellFormed, Instr.gate, Gate.enabled, Instr.fieldsOk, encode, upper]
  · exact .bind_onlyRv64 (readsExactly_decodeOpImm32 hop)
  · exact readsExactly_decodeStore hop
  · exact readsExactly_decodeOp hop
  · rw [hop] at upper
    simp [Instr.wellFormed, Instr.gate, Gate.enabled, Instr.fieldsOk, encode, upper]
  · exact .bind_onlyRv64 (readsExactly_decodeOp32 hop)
  · exact readsExactly_decodeBranch hop
  · split_ifs with hf
    · rw [hop, hf] at jumpReg
      simp [Instr.wellFormed, Instr.gate, Gate.enabled, Instr.fieldsOk, encode, jumpReg]
    · exact readsExactly_none
  · rw [hop] at jump
    simp [Instr.wellFormed, Instr.gate, Gate.enabled, Instr.fieldsOk, encode, jump]
  · exact readsExactly_decodeSystem hop
  · exact readsExactly_none

/-! ### The 16-bit table, by quadrant (30_encoding.md R94 to R96) -/

/-- funct6 of the CA group. -/
theorem funct6_eq (v : BitVec 16) : v.extractLsb' 10 6 = cFunct3Of v ++ bitAt v 12 ++ v.extractLsb' 10 2 := by
  apply eq_of_bits; intro i hi
  simp only [cFunct3Of, BitVec.extractLsb, BitVec.getLsbD_extractLsb', BitVec.getLsbD_append]
  interval_cases i <;> simp

/-- funct4 of the CR group. -/
theorem funct4_eq (v : BitVec 16) : v.extractLsb' 12 4 = cFunct3Of v ++ bitAt v 12 := by
  apply eq_of_bits; intro i hi
  simp only [cFunct3Of, BitVec.extractLsb, BitVec.getLsbD_extractLsb', BitVec.getLsbD_append]
  interval_cases i <;> simp

/-- The last row of a 3-bit selector. -/
theorem eq_seven_of_ne {f : BitVec 3} (h0 : f ≠ 0#3) (h1 : f ≠ 1#3) (h2 : f ≠ 2#3) (h3 : f ≠ 3#3) (h4 : f ≠ 4#3)
    (h5 : f ≠ 5#3) (h6 : f ≠ 6#3) : f = 7#3 := by bv_omega

/-- The last row of a 2-bit selector. -/
theorem eq_three_of_ne {s : BitVec 2} (h0 : s ≠ 0#2) (h1 : s ≠ 1#2) (h2 : s ≠ 2#2) : s = 3#2 := by bv_omega

theorem readsExactly_decodeQ0 (hc : c.cEnabled = true) (hq : quadrantOf v = 0b00#2) :
    ReadsExactly c (rawHalf v) (decodeQ0 c.xlen v) := by
  have word := encClw_fields v hq
  have double := encCld_fields v hq
  unfold decodeQ0
  split <;> simp_all [Instr.wellFormed, Instr.gate, Gate.enabled, Instr.fieldsOk, encode, encCiw_fields]

theorem readsExactly_decodeCa (hc : c.cEnabled = true) (hq : quadrantOf v = 0b01#2) (hf : cFunct3Of v = 0b100#3)
    (hs : v.extractLsb' 10 2 = 0b11#2) : ReadsExactly c (rawHalf v) (decodeCa c.xlen v) := by
  have layout := encCa_fields v hq
  rw [funct6_eq, hf, hs] at layout
  unfold decodeCa
  split <;> simp_all [Instr.wellFormed, Instr.gate, Gate.enabled, Instr.fieldsOk, encode]

theorem readsExactly_decodeMiscAlu (hc : c.cEnabled = true) (hq : quadrantOf v = 0b01#2)
    (hf : cFunct3Of v = 0b100#3) : ReadsExactly c (rawHalf v) (decodeMiscAlu c.xlen v) := by
  have layout := encCbAlu_fields v hq hf
  unfold decodeMiscAlu
  split
  case h_4 h0 h1 h2 => exact readsExactly_decodeCa hc hq hf (eq_three_of_ne h0 h1 h2)
  all_goals simp_all [Instr.wellFormed, Instr.gate, Gate.enabled, Instr.fieldsOk, encode]

theorem readsExactly_decodeQ1 (hc : c.cEnabled = true) (hq : quadrantOf v = 0b01#2) :
    ReadsExactly c (rawHalf v) (decodeQ1 c.xlen v) := by
  have small := encCi_fields v
  have jump := encCj_fields v hq
  have branch := encCb_fields v hq
  rw [hq] at small
  unfold decodeQ1
  split
  case h_1 =>
    split_ifs <;> simp_all [Instr.wellFormed, Instr.gate, Gate.enabled, Instr.fieldsOk, encode]
  case h_2 =>
    cases hx : c.xlen <;> simp_all [Instr.wellFormed, Instr.gate, Gate.enabled, Instr.fieldsOk, encode]
  case h_4 =>
    split_ifs <;> simp_all [Instr.wellFormed, Instr.gate, Gate.enabled, Instr.fieldsOk, encode, encAddi16sp_fields]
  case h_5 hf => exact readsExactly_decodeMiscAlu hc hq hf
  case h_8 h0 h1 h2 h3 h4 h5 h6 =>
    rw [eq_seven_of_ne h0 h1 h2 h3 h4 h5 h6] at branch
    simp [Instr.wellFormed, Instr.gate, Gate.enabled, Instr.fieldsOk, encode, hc, branch]
  all_goals simp_all [Instr.wellFormed, Instr.gate, Gate.enabled, Instr.fieldsOk, encode]

theorem readsExactly_decodeCr (hc : c.cEnabled = true) (hq : quadrantOf v = 0b10#2) (hf : cFunct3Of v = 0b100#3) :
    ReadsExactly c (rawHalf v) (decodeCr v) := by
  have layout := encCr_fields v hq
  rw [funct4_eq, hf] at layout
  unfold decodeCr
  by_cases hb : bitAt v 12 = 0
  · rw [if_pos hb]
    split_ifs <;> simp_all [Instr.wellFormed, Instr.gate, Gate.enabled, Instr.fieldsOk, encode]
  · rw [if_neg hb]
    rw [(BitVec.eq_zero_or_eq_one _).resolve_left hb] at layout
    split_ifs with hs hd
    · rw [hs, hd] at layout
      simp [Instr.wellFormed, Instr.gate, Gate.enabled, Instr.fieldsOk, encode, hc, ← layout, encCr]
    · simp_all [Instr.wellFormed, Instr.gate, Gate.enabled, Instr.fieldsOk, encode]
    · simp_all [Instr.wellFormed, Instr.gate, Gate.enabled, Instr.fieldsOk, encode]

theorem readsExactly_decodeQ2 (hc : c.cEnabled = true) (hq : quadrantOf v = 0b10#2) :
    ReadsExactly c (rawHalf v) (decodeQ2 c.xlen v) := by
  have shift := encCi_fields v
  rw [hq] at shift
  unfold decodeQ2
  split
  case h_2 =>
    simp_all [Instr.wellFormed, Instr.gate, Gate.enabled, Instr.fieldsOk, encode, encLwsp_fields]
  case h_3 =>
    refine .bind_onlyRv64 fun hx => ?_
    simp_all [Instr.wellFormed, Instr.gate, Gate.enabled, Instr.fieldsOk, encode, encLdsp_fields]
  case h_4 hf => exact readsExactly_decodeCr hc hq hf
  case h_5 =>
    simp_all [Instr.wellFormed, Instr.gate, Gate.enabled, Instr.fieldsOk, encode, encSwsp_fields]
  case h_6 =>
    simp_all [Instr.wellFormed, Instr.gate, Gate.enabled, Instr.fieldsOk, encode, encSdsp_fields]
  all_goals simp_all [Instr.wellFormed, Instr.gate, Gate.enabled, Instr.fieldsOk, encode]

theorem readsExactly_decode16 (hc : c.cEnabled = true) (v : BitVec 16) :
    ReadsExactly c (rawHalf v) (decode16 c.xlen v) := by
  unfold decode16
  split <;> rename_i hq
  · exact readsExactly_decodeQ0 hc hq
  · exact readsExactly_decodeQ1 hc hq
  · exact readsExactly_decodeQ2 hc hq
  · exact readsExactly_none

/-! ### The decoder -/

/-- A decoded instruction is well formed, and its encoding is the word or the word's low half. -/
theorem decode_ok_encode (h : decode c w = .ok i) :
    i.wellFormed c = true ∧ (encode i = rawWord w ∨ encode i = rawHalf (w.extractLsb' 0 16)) := by
  rw [decode_ok_iff, decodeRow] at h
  split_ifs at h with hword hlong hc
  · exact (readsExactly_decode32 c w i h).imp_right .inl
  · exact (readsExactly_decode16 hc _ i h).imp_right .inr

/-- Settles O2, by the table that the word's low bits name. -/
theorem decodeIsExact : Obligations.DecodeIsExact := by
  intro c w i h
  obtain ⟨hwf, he⟩ := decode_ok_encode h
  refine ⟨hwf, ?_⟩
  rcases he with he | he
  · have hsize : i.size = .four := by rw [← encode_size, he]; rfl
    rw [hsize, he]
    rfl
  · have hsize : i.size = .two := by rw [← encode_size, he]; rfl
    rw [hsize, he, BitVec.setWidth_eq_extractLsb' (by decide : 16 ≤ 32)]
    rfl

end Sys2Proof
end

section
/-! The words that no row matches (30_encoding.md R69, R92 to R99, R102, R104): the low bits name the one table that
could read a word, and that table refuses it. -/

namespace Sys2Proof

open Sys2Proof.Machine

variable {c : Config} {w : BitVec 32} {v : BitVec 16}

/-! ### Fields of the low half -/

theorem extract_lowHalf (w : BitVec 32) (start len : Nat) (h : start + len ≤ 16) :
    (w.extractLsb' 0 16).extractLsb' start len = w.extractLsb' start len := by
  apply eq_of_bits; intro i hi
  simp [hi, show start + i < 16 by omega]

theorem quadrantOf_lowHalf (w : BitVec 32) : quadrantOf (w.extractLsb' 0 16) = w.setWidth 2 := by
  rw [BitVec.setWidth_eq_extractLsb' (by decide)]
  exact extract_lowHalf w 0 2 (by decide)

theorem cFunct3Of_lowHalf (w : BitVec 32) : cFunct3Of (w.extractLsb' 0 16) = w.extractLsb' 13 3 :=
  extract_lowHalf w 13 3 (by decide)

/-! ### From a refusing table to decode -/

theorem decode_invalid_iff : decode c w = .error .invalidEncoding ↔ decodeRow c w = none := by
  rw [decode_eq]
  cases decodeRow c w <;> simp

/-- A word of a major opcode is invalid when the 32-bit table refuses it. -/
theorem decode_invalid_of_opcode {op : BitVec 7} (hop : w.setWidth 7 = op) (h2 : op.extractLsb' 0 2 = 0b11#2)
    (hd : opcodeOf w = op → decode32 c.xlen w = none) : decode c w = .error .invalidEncoding := by
  rw [BitVec.setWidth_eq_extractLsb' (by decide)] at hop
  rw [decode_invalid_iff, decodeRow, low2_eq, show opcodeOf w = op from hop, if_pos h2, hd hop, ite_self]

/-- A 16-bit word is invalid without C. -/
theorem decode_invalid_of_no_compressed (hq : w.setWidth 2 ≠ 0b11#2) (hc : c.cEnabled = false) :
    decode c w = .error .invalidEncoding := by
  rw [BitVec.setWidth_eq_extractLsb' (by decide)] at hq
  rw [decode_invalid_iff, decodeRow, if_neg hq, hc]
  rfl

/-- A word of a quadrant is invalid when the 16-bit table refuses its low half. -/
theorem decode_invalid_of_quadrant {q : BitVec 2} (hq : w.setWidth 2 = q) (h3 : q ≠ 0b11#2)
    (hd : quadrantOf (w.extractLsb' 0 16) = q → decode16 c.xlen (w.extractLsb' 0 16) = none) :
    decode c w = .error .invalidEncoding := by
  rw [decode_invalid_iff, decodeRow, ← BitVec.setWidth_eq_extractLsb' (by decide), hq, if_neg h3,
    hd ((quadrantOf_lowHalf w).trans hq), ite_self]

/-- A longer format matches no row (30_encoding.md R69). -/
theorem decode_invalid_of_long (h : w.setWidth 5 = 0b11111#5) : decode c w = .error .invalidEncoding := by
  have low : w.extractLsb' 0 2 = (w.setWidth 5).extractLsb' 0 2 := by
    apply eq_of_bits; intro i hi
    interval_cases i <;> simp
  have mid : w.extractLsb' 2 3 = (w.setWidth 5).extractLsb' 2 3 := by
    apply eq_of_bits; intro i hi
    interval_cases i <;> simp
  rw [decode_invalid_iff, decodeRow, low, mid, h]
  rfl

/-- The all-zero halfword is C.ADDI4SPN with a zero immediate (30_encoding.md R97). -/
theorem decode16_zero (x : XLen) : decode16 x 0#16 = none := rfl

/-! ### What RV32 refuses (30_encoding.md R98, R99) -/

@[simp] theorem bind_onlyRv64_rv32 (o : Option Instr) : o.bind (onlyRv64 .rv32) = none := by cases o <;> rfl

/-- Bit 25 is the lowest bit of funct7, which is 0 in all three shifts. -/
theorem decodeOpImmShift_rv32_none (h : w.getLsbD 25 = true) : decodeOpImmShift .rv32 w = none := by
  have h0 : (funct7Of w).getLsbD 0 = true := by simpa [funct7Of] using h
  unfold decodeOpImmShift
  dsimp only
  split
  case h_4 => rfl
  all_goals simp_all

theorem shamtFits_rv32_immCi (h : v.getLsbD 12 = true) : shamtFits .rv32 (immCi v) = false := by
  have h5 : (immCi v).msb = true := by
    rw [BitVec.msb_eq_getLsbD_last, immCi, BitVec.getLsbD_append]
    simpa using h
  have hle := BitVec.le_toNat_of_msb_true h5
  simpa [shamtFits] using hle

theorem decodeMiscAlu_rv32_shift (h : v.getLsbD 12 = true)
    (hs : v.extractLsb' 10 2 = 0b00#2 ∨ v.extractLsb' 10 2 = 0b01#2) : decodeMiscAlu .rv32 v = none := by
  have hsh := shamtFits_rv32_immCi h
  rcases hs with hs | hs <;> simp [decodeMiscAlu, hs, hsh, provided]

/-- Where inst[12:10] is 111, the group is C.SUBW, C.ADDW and reserved words. -/
theorem decodeMiscAlu_rv32_word (hs : v.extractLsb' 10 3 = 0b111#3) : decodeMiscAlu .rv32 v = none := by
  have hsel : v.extractLsb' 10 2 = (v.extractLsb' 10 3).extractLsb' 0 2 := by
    apply eq_of_bits; intro i hi
    interval_cases i <;> simp
  have hwide : bitAt v 12 = (v.extractLsb' 10 3).extractLsb' 2 1 := by
    apply eq_of_bits; intro i hi
    interval_cases i; simp
  rw [hs] at hsel hwide
  have hca : decodeMiscAlu .rv32 v = decodeCa .rv32 v := by simp [decodeMiscAlu, hsel]
  rw [hca, decodeCa, hwide]
  split
  case h_7 => rfl
  all_goals simp_all [onlyRv64]

/-! ### The statements -/

/-- Settles O4, by the table that each word's low bits name. -/
theorem illegalWordsAreInvalid : Obligations.IllegalWordsAreInvalid := by
  intro c w
  refine ⟨?_, ?_, ?_, ?_⟩
  · rintro (h | rfl)
    · have hlow : w.extractLsb' 0 16 = 0#16 := by rwa [← BitVec.setWidth_eq_extractLsb' (by decide)]
      have hq : w.setWidth 2 = 0#2 := by rw [← quadrantOf_lowHalf, hlow]; rfl
      exact decode_invalid_of_quadrant hq (by decide) fun _ => by rw [hlow, decode16_zero]
    · exact decode_invalid_of_long rfl
  · rintro ⟨hop, hf⟩
    have hf : funct3Of w ≠ 0b000#3 := hf
    exact decode_invalid_of_opcode hop (by decide) fun hop => by simp [decode32, hop, decodeMiscMem]
  · rintro ⟨hop, hf, hecall, hebreak⟩
    have hf : funct3Of w = 0b000#3 := hf
    exact decode_invalid_of_opcode hop (by decide) fun hop => by
      simp [decode32, hop, decodeSystem, hf, hecall, hebreak]
  · rintro (hop | hop | hop | hop)
    all_goals exact decode_invalid_of_opcode hop (by decide) fun hop => by simp [decode32, hop]

/-- Settles O5, by the table that each word's low bits name. -/
theorem gatedEncodingsAreInvalid : Obligations.GatedEncodingsAreInvalid := by
  intro c w
  refine ⟨fun ⟨hq, hc⟩ => decode_invalid_of_no_compressed hq hc, decode_invalid_of_long, fun hx => ?_⟩
  simp only [← cFunct3Of_lowHalf]
  refine ⟨?_, ?_, ?_, ?_, ?_, ?_, ?_, ?_, ?_⟩
  · rintro (hop | hop)
    all_goals exact decode_invalid_of_opcode hop (by decide) fun hop => by simp [decode32, hop, hx]
  · rintro ⟨hop, hf⟩
    have hf : funct3Of w = 0b011#3 ∨ funct3Of w = 0b110#3 := hf
    refine decode_invalid_of_opcode hop (by decide) fun hop => ?_
    rcases hf with hf | hf <;> simp [decode32, hop, decodeLoad, hf, hx, onlyRv64]
  · rintro ⟨hop, hf⟩
    have hf : funct3Of w = 0b011#3 := hf
    exact decode_invalid_of_opcode hop (by decide) fun hop => by simp [decode32, hop, decodeStore, hf, hx, onlyRv64]
  · rintro ⟨hop, hf, h25⟩
    have hf : funct3Of w = 0b001#3 ∨ funct3Of w = 0b101#3 := hf
    refine decode_invalid_of_opcode hop (by decide) fun hop => ?_
    rcases hf with hf | hf <;> simp [decode32, hop, decodeOpImm, hf, hx, decodeOpImmShift_rv32_none h25]
  · rintro ⟨hq, hf⟩
    refine decode_invalid_of_quadrant hq (by decide) fun hq => ?_
    rcases hf with hf | hf <;> simp [decode16, hq, decodeQ0, hf, hx, onlyRv64]
  · rintro ⟨hq, hf⟩
    refine decode_invalid_of_quadrant hq (by decide) fun hq => ?_
    rcases hf with hf | hf <;> simp [decode16, hq, decodeQ2, hf, hx, onlyRv64]
  · rintro ⟨hq, hf, hs⟩
    rw [← extract_lowHalf w 10 3 (by decide)] at hs
    exact decode_invalid_of_quadrant hq (by decide) fun hq => by
      simp [decode16, hq, decodeQ1, hf, hx, decodeMiscAlu_rv32_word hs]
  · rintro ⟨hq, hf, h12⟩
    have hsh := shamtFits_rv32_immCi (v := w.extractLsb' 0 16) (by simpa using h12)
    exact decode_invalid_of_quadrant hq (by decide) fun hq => by
      simp [decode16, hq, decodeQ2, hf, hx, hsh, provided]
  · rintro ⟨hq, hf, h12, hs⟩
    rw [← extract_lowHalf w 10 2 (by decide)] at hs
    have hshift := decodeMiscAlu_rv32_shift (v := w.extractLsb' 0 16) (by simpa using h12) hs
    exact decode_invalid_of_quadrant hq (by decide) fun hq => by simp [decode16, hq, decodeQ1, hf, hx, hshift]

end Sys2Proof
end

section
/-! The Immediate: its range check, how it is read from raw bits, and the operand it becomes (30_encoding.md R74, R75,
R78, R81). -/

namespace Sys2Proof.Machine

open Sys2Proof

/-- An Immediate in full, as a signed field gives it. -/
theorem Immediate.ofField_signed_eq {n : Nat} (v : BitVec n) (lsb0 : Bool) :
    Immediate.ofField true lsb0 v = ⟨n, true, lsb0, v.toInt⟩ := by
  rw [← Immediate.ofField_signed v lsb0]
  rfl

/-- An Immediate in full, as an unsigned field gives it. -/
theorem Immediate.ofField_unsigned_eq {n : Nat} (v : BitVec n) (lsb0 : Bool) :
    Immediate.ofField false lsb0 v = ⟨n, false, lsb0, v.toNat⟩ := rfl

/-- Settles O7: the check and its complement. -/
theorem setChecksRange : Obligations.SetChecksRange := by
  intro im v
  refine ⟨fun hbad => if_pos hbad, fun ⟨heven, hsign, hmin, hmax⟩ => if_neg ?_⟩
  rintro (h | h | h | h)
  · exact heven h
  · exact hsign h
  · exact absurd hmin (not_le.2 h)
  · exact absurd hmax (not_le.2 h)

/-- Settles O6: raw bits are a field of their width, which extraction reads. -/
theorem setFromBitsReadsTwosComplement : Obligations.SetFromBitsReadsTwosComplement := by
  intro bits raw signed lsb0 h0 hraw heven
  have hto : (BitVec.ofNat bits raw).toNat = raw := by rw [BitVec.toNat_ofNat, Nat.mod_eq_of_lt hraw]
  have hext := Immediate.extract_ok signed lsb0 h0 (BitVec.ofNat bits raw) (by rwa [hto])
  rw [Immediate.extract, hto] at hext
  rw [hext]
  cases signed with
  | false => rw [Immediate.ofField_unsigned_eq, hto]; rfl
  | true => rw [Immediate.ofField_signed_eq, toInt_eq_sextInt h0, hto]; rfl

/-- Settles O8: the executor's operand is by definition that of the Immediate, which extraction gives. -/
theorem operandsAreSignExtensions : Obligations.OperandsAreSignExtensions := by
  intro x n v h0 _
  exact ⟨⟨signedOperand_eq x v, _, Immediate.extract_ok true false h0 v nofun, rfl⟩,
    unsignedOperand_eq x v, _, Immediate.extract_ok false false h0 v nofun, rfl⟩

end Sys2Proof.Machine
end

section
/-! The Immediate of every format (30_encoding.md R79, R84): the bit groups that are extracted from a word, and that a
variant decoded from the word carries them, because its encoding is that word. -/

namespace Sys2Proof

open Sys2Proof.Machine

variable {w : BitVec 32} {is : List Instr} {n : Nat} {operand : BitVec n}

theorem fieldsOk_of_wellFormed {c : Config} {i : Instr} (h : i.wellFormed c = true) : i.fieldsOk c.xlen = true :=
  (Bool.and_eq_true_iff.1 h).2

/-! ### A field of the encoding is the field of the word decoded -/

@[simp] theorem rawWord_inj {a b : BitVec 32} : rawWord a = rawWord b ↔ a = b := by simp [rawWord]

@[simp] theorem rawHalf_inj {a b : BitVec 16} : rawHalf a = rawHalf b ↔ a = b := by
  refine ⟨fun h => ?_, congrArg rawHalf⟩
  have hlow := congrArg (fun raw => raw.bits.extractLsb' 0 16) h
  simpa only [rawHalf, low_half] using hlow

/-- The variants of a 32-bit format: `ext` extracts the Immediate of the field `field` for each of them, and each is
encoded with its operand in that field. -/
theorem extracts_of_word {field : BitVec 32 → BitVec n} {ext : BitVec 32 → Extracted} {im : Immediate}
    (hext : ext w = .ok im)
    (h : ∀ i ∈ is, extractImmediate w i = some (ext w) ∧
      ∀ c, i.wellFormed c = true → ∃ e, encode i = rawWord e ∧ field e = operand) :
    Extracts w im (operand = field w) is := by
  intro i hi
  obtain ⟨hvariant, hfield⟩ := h i hi
  refine ⟨hvariant.trans (congrArg some hext), fun c hdec => ?_⟩
  obtain ⟨hwf, henc⟩ := decode_ok_encode hdec
  obtain ⟨e, he, rfl⟩ := hfield c hwf
  rw [he] at henc
  rcases henc with henc | henc
  · rw [rawWord_inj.1 henc]
  · cases henc

/-- The same of a compressed format, whose field of the low half is the bit groups `f` of the word. -/
theorem extracts_of_half {field : BitVec 16 → BitVec n} {ext : BitVec 16 → Extracted} {f : BitVec n} {im : Immediate}
    (hf : field (w.extractLsb' 0 16) = f) (hext : ext (w.extractLsb' 0 16) = .ok im)
    (h : ∀ i ∈ is, extractImmediate w i = some (ext (w.extractLsb' 0 16)) ∧
      ∀ c, i.wellFormed c = true → ∃ e, encode i = rawHalf e ∧ field e = operand) :
    Extracts w im (operand = f) is := by
  subst hf
  intro i hi
  obtain ⟨hvariant, hfield⟩ := h i hi
  refine ⟨hvariant.trans (congrArg some hext), fun c hdec => ?_⟩
  obtain ⟨hwf, henc⟩ := decode_ok_encode hdec
  obtain ⟨e, he, rfl⟩ := hfield c hwf
  rw [he] at henc
  rcases henc with henc | henc
  · cases henc
  · rw [rawHalf_inj.1 henc]

/-- Settles O59, format by format. -/
theorem baseImmediates : Obligations.BaseImmediates := by
  intro x w rd rs1 rs2 i12 i13 i20 i21 s5 s6
  refine ⟨⟨?_, signedOperand_eq x _⟩, ⟨?_, signedOperand_eq x _⟩, ⟨?_, signedOperand_eq x _⟩, ⟨?_, upperOperand_eq x _⟩,
    ⟨?_, signedOperand_eq x _⟩, ⟨?_, unsignedOperand_eq x _, shamtOperand_eq _⟩,
    ⟨?_, unsignedOperand_eq x _, shamtOperand_eq _⟩, ?_⟩
  · refine extracts_of_word (field := immI) (ext := extractI)
      (by rw [extractI_eq, Immediate.ofField_signed_eq]; rfl) ?_
    intro i hi
    fin_cases hi <;> exact ⟨rfl, fun _ _ => ⟨_, rfl, immI_encI _ _ _ _ _⟩⟩
  · refine extracts_of_word (field := immS) (ext := extractS)
      (by rw [extractS_eq, Immediate.ofField_signed_eq]; rfl) ?_
    intro i hi
    fin_cases hi <;> exact ⟨rfl, fun _ _ => ⟨_, rfl, immS_encS _ _ _ _ _⟩⟩
  · refine extracts_of_word (field := immB) (ext := extractB)
      (by rw [extractB_eq, Immediate.ofField_signed_eq]; rfl) ?_
    intro i hi
    fin_cases hi <;> exact ⟨rfl, fun _ hwf => ⟨_, rfl, immB_encB _ _ _ _ _ (fieldsOk_of_wellFormed hwf)⟩⟩
  · refine extracts_of_word (field := immU) (ext := extractU) (extractU_eq w) ?_
    intro i hi
    fin_cases hi <;> exact ⟨rfl, fun _ _ => ⟨_, rfl, immU_encU _ _ _⟩⟩
  · refine extracts_of_word (field := immJ) (ext := extractJ)
      (by rw [extractJ_eq, Immediate.ofField_signed_eq]; rfl) ?_
    intro i hi
    fin_cases hi; exact ⟨rfl, fun _ hwf => ⟨_, rfl, immJ_encJ _ _ _ (fieldsOk_of_wellFormed hwf)⟩⟩
  · refine extracts_of_word (field := shamt5) (ext := extractShamt5) (extractShamt5_eq w) ?_
    intro i hi
    fin_cases hi <;> exact ⟨rfl, fun _ _ => ⟨_, rfl, shamt5_encR _ _ _ _ _ _⟩⟩
  · refine extracts_of_word (field := shamt6) (ext := extractShamt6) (extractShamt6_eq w) ?_
    intro i hi
    fin_cases hi <;> exact ⟨rfl, fun _ _ => ⟨_, rfl, shamt6_encShift6 _ _ _ _ _ _⟩⟩
  · refine extracts_of_word (field := rs1Of) (ext := extractUimm) (extractUimm_eq w) ?_
    intro i hi
    fin_cases hi <;> exact ⟨rfl, fun _ _ => ⟨_, rfl, rs1Of_encI _ _ _ _ _⟩⟩

/-! ### The compressed fields by the bits of the word -/

theorem immAddi4spn_lowHalf (w : BitVec 32) : immAddi4spn (w.extractLsb' 0 16) =
    w.extractLsb' 7 4 ++ w.extractLsb' 11 2 ++ w.extractLsb' 5 1 ++ w.extractLsb' 6 1 ++ 0b00#2 := by
  simp [immAddi4spn, BitVec.extractLsb]

theorem immClw_lowHalf (w : BitVec 32) : immClw (w.extractLsb' 0 16) =
    w.extractLsb' 5 1 ++ w.extractLsb' 10 3 ++ w.extractLsb' 6 1 ++ 0b00#2 := by
  simp [immClw, BitVec.extractLsb]

theorem immCld_lowHalf (w : BitVec 32) : immCld (w.extractLsb' 0 16) =
    w.extractLsb' 5 2 ++ w.extractLsb' 10 3 ++ 0b000#3 := by
  simp [immCld, BitVec.extractLsb]

theorem immCi_lowHalf (w : BitVec 32) : immCi (w.extractLsb' 0 16) = w.extractLsb' 12 1 ++ w.extractLsb' 2 5 := by
  simp [immCi, BitVec.extractLsb]

theorem immAddi16sp_lowHalf (w : BitVec 32) : immAddi16sp (w.extractLsb' 0 16) =
    w.extractLsb' 12 1 ++ w.extractLsb' 3 2 ++ w.extractLsb' 5 1 ++ w.extractLsb' 2 1 ++ w.extractLsb' 6 1
      ++ 0b0000#4 := by
  simp [immAddi16sp, BitVec.extractLsb]

theorem immLwsp_lowHalf (w : BitVec 32) : immLwsp (w.extractLsb' 0 16) =
    w.extractLsb' 2 2 ++ w.extractLsb' 12 1 ++ w.extractLsb' 4 3 ++ 0b00#2 := by
  simp [immLwsp, BitVec.extractLsb]

theorem immLdsp_lowHalf (w : BitVec 32) : immLdsp (w.extractLsb' 0 16) =
    w.extractLsb' 2 3 ++ w.extractLsb' 12 1 ++ w.extractLsb' 5 2 ++ 0b000#3 := by
  simp [immLdsp, BitVec.extractLsb]

theorem immSwsp_lowHalf (w : BitVec 32) : immSwsp (w.extractLsb' 0 16) =
    w.extractLsb' 7 2 ++ w.extractLsb' 9 4 ++ 0b00#2 := by
  simp [immSwsp, BitVec.extractLsb]

theorem immSdsp_lowHalf (w : BitVec 32) : immSdsp (w.extractLsb' 0 16) =
    w.extractLsb' 7 3 ++ w.extractLsb' 10 3 ++ 0b000#3 := by
  simp [immSdsp, BitVec.extractLsb]

theorem immCj_lowHalf (w : BitVec 32) : immCj (w.extractLsb' 0 16) =
    w.extractLsb' 12 1 ++ w.extractLsb' 8 1 ++ w.extractLsb' 9 2 ++ w.extractLsb' 6 1 ++ w.extractLsb' 7 1
      ++ w.extractLsb' 2 1 ++ w.extractLsb' 11 1 ++ w.extractLsb' 3 3 ++ 0#1 := by
  simp [immCj, BitVec.extractLsb]

theorem immCb_lowHalf (w : BitVec 32) : immCb (w.extractLsb' 0 16) =
    w.extractLsb' 12 1 ++ w.extractLsb' 5 2 ++ w.extractLsb' 2 1 ++ w.extractLsb' 10 2 ++ w.extractLsb' 3 2 ++ 0#1 := by
  simp [immCb, BitVec.extractLsb]

/-- Settles O60, format by format. -/
theorem compressedImmediates : Obligations.CompressedImmediates := by
  intro x w rd rs1 rs2 u6 u7 u8 u9 u10 u12
  refine ⟨⟨?_, unsignedOperand_eq x _⟩, ⟨?_, unsignedOperand_eq x _⟩, ⟨?_, unsignedOperand_eq x _⟩,
    ⟨?_, signedOperand_eq x _⟩, ⟨?_, signedOperand_eq x _⟩, ⟨?_, cLuiOperand_eq x _⟩,
    ⟨?_, unsignedOperand_eq x _, shamtOperand_eq _⟩, ⟨?_, unsignedOperand_eq x _⟩, ⟨?_, unsignedOperand_eq x _⟩,
    ⟨?_, unsignedOperand_eq x _⟩, ⟨?_, unsignedOperand_eq x _⟩, ⟨?_, signedOperand_eq x _⟩, ⟨?_, signedOperand_eq x _⟩⟩
  · refine extracts_of_half (ext := extractAddi4spn) (immAddi4spn_lowHalf w)
      (by rw [extractAddi4spn_eq, immAddi4spn_lowHalf]; rfl) ?_
    intro i hi
    fin_cases hi
    exact ⟨rfl, fun _ hwf => ⟨_, rfl, immAddi4spn_encCiw _ _ (by simp_all [Instr.wellFormed, Instr.fieldsOk])⟩⟩
  · refine extracts_of_half (ext := extractClw) (immClw_lowHalf w) (by rw [extractClw_eq, immClw_lowHalf]; rfl) ?_
    intro i hi
    fin_cases hi <;>
      exact ⟨rfl, fun _ hwf => ⟨_, rfl, immClw_encClw _ _ _ _ (by simp_all [Instr.wellFormed, Instr.fieldsOk])⟩⟩
  · refine extracts_of_half (ext := extractCld) (immCld_lowHalf w) (by rw [extractCld_eq, immCld_lowHalf]; rfl) ?_
    intro i hi
    fin_cases hi <;>
      exact ⟨rfl, fun _ hwf => ⟨_, rfl, immCld_encCld _ _ _ _ (by simp_all [Instr.wellFormed, Instr.fieldsOk])⟩⟩
  · refine extracts_of_half (ext := extractCi) (immCi_lowHalf w)
      (by rw [extractCi_eq, Immediate.ofField_signed_eq, immCi_lowHalf]) ?_
    intro i hi
    fin_cases hi
    -- C.ANDI, the last variant, is laid out as CB; the others are CI.
    pick_goal 5
    · exact ⟨rfl, fun _ _ => ⟨_, rfl, immCi_encCbAlu _ _ _⟩⟩
    all_goals exact ⟨rfl, fun _ _ => ⟨_, rfl, immCi_encCi _ _ _ _⟩⟩
  · refine extracts_of_half (ext := extractAddi16sp) (immAddi16sp_lowHalf w)
      (by rw [extractAddi16sp_eq, Immediate.ofField_signed_eq, immAddi16sp_lowHalf]) ?_
    intro i hi
    fin_cases hi
    exact ⟨rfl, fun _ hwf => ⟨_, rfl, immAddi16sp_encAddi16sp _ (by simp_all [Instr.wellFormed, Instr.fieldsOk])⟩⟩
  · refine extracts_of_half (ext := extractClui) (immCi_lowHalf w)
      (by rw [extractClui_eq, Immediate.ofField_signed_eq, immCi_lowHalf]; rfl) ?_
    intro i hi
    fin_cases hi
    exact ⟨rfl, fun _ _ => ⟨_, rfl, immCi_encCi _ _ _ _⟩⟩
  · refine extracts_of_half (ext := extractCshamt) (immCi_lowHalf w) (by rw [extractCshamt_eq, immCi_lowHalf]; rfl) ?_
    intro i hi
    fin_cases hi
    · exact ⟨rfl, fun _ _ => ⟨_, rfl, immCi_encCi _ _ _ _⟩⟩
    all_goals exact ⟨rfl, fun _ _ => ⟨_, rfl, immCi_encCbAlu _ _ _⟩⟩
  · refine extracts_of_half (ext := extractLwsp) (immLwsp_lowHalf w) (by rw [extractLwsp_eq, immLwsp_lowHalf]; rfl) ?_
    intro i hi
    fin_cases hi
    exact ⟨rfl, fun _ hwf => ⟨_, rfl, immLwsp_encLwsp _ _ (by simp_all [Instr.wellFormed, Instr.fieldsOk])⟩⟩
  · refine extracts_of_half (ext := extractLdsp) (immLdsp_lowHalf w) (by rw [extractLdsp_eq, immLdsp_lowHalf]; rfl) ?_
    intro i hi
    fin_cases hi
    exact ⟨rfl, fun _ hwf => ⟨_, rfl, immLdsp_encLdsp _ _ (by simp_all [Instr.wellFormed, Instr.fieldsOk])⟩⟩
  · refine extracts_of_half (ext := extractSwsp) (immSwsp_lowHalf w) (by rw [extractSwsp_eq, immSwsp_lowHalf]; rfl) ?_
    intro i hi
    fin_cases hi
    exact ⟨rfl, fun _ hwf => ⟨_, rfl, immSwsp_encSwsp _ _ (fieldsOk_of_wellFormed hwf)⟩⟩
  · refine extracts_of_half (ext := extractSdsp) (immSdsp_lowHalf w) (by rw [extractSdsp_eq, immSdsp_lowHalf]; rfl) ?_
    intro i hi
    fin_cases hi
    exact ⟨rfl, fun _ hwf => ⟨_, rfl, immSdsp_encSdsp _ _ (fieldsOk_of_wellFormed hwf)⟩⟩
  · refine extracts_of_half (ext := extractCj) (immCj_lowHalf w)
      (by rw [extractCj_eq, Immediate.ofField_signed_eq, immCj_lowHalf]) ?_
    intro i hi
    fin_cases hi <;> exact ⟨rfl, fun _ hwf => ⟨_, rfl, immCj_encCj _ _ (fieldsOk_of_wellFormed hwf)⟩⟩
  · refine extracts_of_half (ext := extractCb) (immCb_lowHalf w)
      (by rw [extractCb_eq, Immediate.ofField_signed_eq, immCb_lowHalf]) ?_
    intro i hi
    fin_cases hi <;>
      exact ⟨rfl, fun _ hwf => ⟨_, rfl, immCb_encCb _ _ _ (by simp_all [Instr.wellFormed, Instr.fieldsOk])⟩⟩

end Sys2Proof
end

section
/-! What the integer ALU instructions write (40_integer_alu.md R107 to R139): the value each function gives at XLEN bits,
as an integer modulo 2^XLEN, a comparison or a bitwise result; each instruction then is its shape, with that value. -/

namespace Sys2Proof.Machine

open Sys2Proof

/-! ### Sums and comparisons -/

section Values

variable (x : XLen) (s : State)

theorem wrap_add_signedOperand (a : Word) {n : Nat} (imm : BitVec n) :
    x.wrap (a + signedOperand x imm) = x.ofInt (x.asSigned a + imm.toInt) := by
  rw [signedOperand_eq, XLen.wrap_add_ofInt]

theorem wrap_signedOperand {n : Nat} (imm : BitVec n) : x.wrap (signedOperand x imm) = signedOperand x imm := by
  rw [signedOperand_eq, XLen.wrap_ofInt]

theorem wrap_condLt (a b : Word) : x.wrap (boolWord (condLt x a b)) = if x.asSigned a < x.asSigned b then 1 else 0 :=
  wrap_boolWord x _

theorem wrap_condLt_signedOperand (a : Word) (imm : BitVec 12) :
    x.wrap (boolWord (condLt x a (signedOperand x imm))) = if x.asSigned a < imm.toInt then 1 else 0 := by
  rw [wrap_condLt, signedOperand_eq, asSigned_imm12]

theorem State.wrap_condLtu_signedOperand (r : RegIdx) {n : Nat} (imm : BitVec n) :
    s.xlen.wrap (boolWord (condLtu s.xlen (s.x r) (signedOperand s.xlen imm))) =
      if (s.x r).toNat < (s.xlen.ofInt imm.toInt).toNat then 1 else 0 := by
  rw [condLtu, s.asUnsigned_x, XLen.asUnsigned, wrap_signedOperand, signedOperand_eq, wrap_boolWord]

theorem State.wrap_condLtu_x (r q : RegIdx) :
    s.xlen.wrap (boolWord (condLtu s.xlen (s.x r) (s.x q))) = if (s.x r).toNat < (s.x q).toNat then 1 else 0 := by
  rw [s.condLtu_x, wrap_boolWord]

/-! ### The upper immediate -/

theorem wrap_upperOperand (imm20 : BitVec 20) :
    x.wrap (upperOperand x imm20) = x.ofInt (sextInt 32 (imm20.toNat * 2 ^ 12)) := by
  rw [upperOperand_eq, XLen.wrap_ofInt]

theorem State.wrap_pcRelative_upperOperand (imm20 : BitVec 20) :
    s.xlen.wrap (s.pcRelative (upperOperand s.xlen imm20)) =
      s.xlen.ofInt (s.pc.toNat + sextInt 32 (imm20.toNat * 2 ^ 12)) := by
  rw [upperOperand_eq, State.pcRelative_eq, XLen.wrap_ofInt]

end Values

/-! ### The statements -/

/-- Settles O24, by the sum and the two comparisons with a sign-extended immediate. -/
theorem addAndCompareImmediate : Obligations.AddAndCompareImmediate := by
  intro s rd rs1 imm h
  exact ⟨h.opImm (exec_addi ..) (wrap_add_signedOperand ..),
    h.opImm (exec_slti ..) (wrap_condLt_signedOperand ..),
    h.opImm (exec_sltiu ..) (s.wrap_condLtu_signedOperand ..)⟩

/-- Settles O25: the register value and the operand are XLEN bits wide, and so is what a bitwise operation gives. -/
theorem logicalImmediate : Obligations.LogicalImmediate := by
  intro s rd rs1 imm h
  have hr := s.wrap_x rs1
  have hi := wrap_signedOperand s.xlen imm
  rw [← signedOperand_eq]
  exact ⟨h.opImm (exec_xori ..) (wrap_xor _ _ _ hr hi),
    h.opImm (exec_ori ..) (wrap_or _ _ _ hr hi),
    h.opImm (exec_andi ..) (wrap_and _ _ _ hr hi)⟩

/-- Settles O26: the value of a shift does not depend on the width of the amount's field, so both rows have it. -/
theorem immediateShifts : Obligations.ImmediateShifts := by
  refine ⟨fun s rd rs1 shamt h => ⟨?_, ?_, ?_⟩, fun s rd rs1 shamt h => ⟨?_, ?_, ?_⟩⟩
  · exact h.opImm (exec_slli32 ..) (XLen.wrap_sll ..)
  · exact h.opImm (exec_srli32 ..) (s.wrap_srl_x ..)
  · exact h.opImm (exec_srai32 ..) (XLen.wrap_sra ..)
  · exact h.opImm (exec_slli64 ..) (XLen.wrap_sll ..)
  · exact h.opImm (exec_srli64 ..) (s.wrap_srl_x ..)
  · exact h.opImm (exec_srai64 ..) (XLen.wrap_sra ..)

/-- Settles O27, by the sum, the difference and the two comparisons of register values. -/
theorem addSubCompare : Obligations.AddSubCompare := by
  intro s rd rs1 rs2 h
  exact ⟨h.opReg (exec_add ..) (XLen.wrap_add ..),
    h.opReg (exec_sub ..) (XLen.wrap_sub ..),
    h.opReg (exec_slt ..) (wrap_condLt ..),
    h.opReg (exec_sltu ..) (s.wrap_condLtu_x ..)⟩

/-- Settles O28: register values are XLEN bits wide, and so is what a bitwise operation makes of them. -/
theorem logicalRegister : Obligations.LogicalRegister := by
  intro s rd rs1 rs2 h
  have h1 := s.wrap_x rs1
  have h2 := s.wrap_x rs2
  exact ⟨h.opReg (exec_xor ..) (wrap_xor _ _ _ h1 h2),
    h.opReg (exec_or ..) (wrap_or _ _ _ h1 h2),
    h.opReg (exec_and ..) (wrap_and _ _ _ h1 h2)⟩

/-- Settles O29: the low 5 or 6 bits of x[rs2] are its remainder modulo XLEN. -/
theorem registerShifts : Obligations.RegisterShifts := by
  intro s rd rs1 rs2 h
  rw [← XLen.shiftAmount_eq]
  exact ⟨h.opReg (exec_sll ..) (XLen.wrap_sll ..),
    h.opReg (exec_srl ..) (s.wrap_srl_x ..),
    h.opReg (exec_sra ..) (XLen.wrap_sra ..)⟩

/-- Settles O30, by the upper operand alone and added to pc. -/
theorem upperImmediates : Obligations.UpperImmediates := by
  intro s rd imm20 h
  exact ⟨h.writeUpper (exec_lui ..) (wrap_upperOperand ..),
    h.writeUpper (exec_auipc ..) (s.wrap_pcRelative_upperOperand ..)⟩

/-- Settles O31, by the integer each result agrees with modulo 2^32; an arithmetic shift is exact already. -/
theorem wordImmediate : Obligations.WordImmediate := by
  refine ⟨fun s rd rs1 imm h => ?_, fun s rd rs1 shamt h => ⟨?_, ?_, ?_⟩⟩
  · exact h.opImm (exec_addiw ..) (wrap_wordResult _ _ _ (low32_addImm ..))
  · exact h.opImm (exec_slliw ..) (wrap_wordResult _ _ _ (low32_sll ..))
  · exact h.opImm (exec_srliw ..) (wrap_wordResult _ _ _ (low32_srl ..))
  · exact h.opImm (exec_sraiw ..) (wrap_wordResult_sra ..)

/-- Settles O32, as O31, with the low 5 bits of x[rs2], its remainder modulo 32, as the amount of a shift. -/
theorem wordRegister : Obligations.WordRegister := by
  intro s rd rs1 rs2 h
  rw [← shiftAmountW_eq]
  exact ⟨h.opReg (exec_addw ..) (wrap_wordResult _ _ _ (low32_add ..)),
    h.opReg (exec_subw ..) (wrap_wordResult _ _ _ (low32_sub ..)),
    h.opReg (exec_sllw ..) (wrap_wordResult _ _ _ (low32_sll ..)),
    h.opReg (exec_srlw ..) (wrap_wordResult _ _ _ (low32_srl ..)),
    h.opReg (exec_sraw ..) (wrap_wordResult_sra ..)⟩

end Sys2Proof.Machine
end

section
/-! Control transfers (41_control_transfer.md R141 to R153): a jump is its shape at its target, made if the target is
aligned and a fault if it is not; a branch is that when its condition holds. With C only an odd target is misaligned. -/

namespace Sys2Proof.Machine

open Sys2Proof

variable {i : Instr} {s t : State}

/-! ### The shapes of a transfer, at an instruction's own target -/

section Shapes

variable {size : InsnSize} {rd rs1 rs2 : RegIdx} {offset target : Word} {r : Result}

theorem State.Ready.jumpPc (h : s.Ready) (e : r = s.jumpPc size rd offset) (ht : s.pcRelative offset = target) :
    (s.TargetOk target → ∃ t, r = .next t ∧ s.RetiresTo t target rd (s.seqPc size) none ∧ t.mem = s.mem) ∧
      (¬s.TargetOk target → ∃ t, r = .next t ∧ s.HaltsAt t (.misalignedTarget target)) := by
  subst e ht
  exact ⟨s.jumpPc_next h size rd offset, s.jumpPc_halts size rd offset⟩

theorem State.Ready.jumpReg (h : s.Ready) (e : r = s.jumpReg size rd rs1 offset)
    (ht : s.jalrTarget rs1 offset = target) :
    (s.TargetOk target → ∃ t, r = .next t ∧ s.RetiresTo t target rd (s.seqPc size) none ∧ t.mem = s.mem) ∧
      (¬s.TargetOk target → ∃ t, r = .next t ∧ s.HaltsAt t (.misalignedTarget target)) := by
  subst e ht
  exact ⟨s.jumpReg_next h size rd rs1 offset, s.jumpReg_halts size rd rs1 offset⟩

/-- A branch by the proposition `p` that its comparison decides. -/
theorem State.Ready.branch (h : s.Ready) {cond : Word → Word → Bool} {p : Prop} [Decidable p]
    (e : r = s.branch size cond rs1 rs2 offset) (hp : cond (s.x rs1) (s.x rs2) = decide p)
    (ht : s.pcRelative offset = target) :
    (p → s.TargetOk target → ∃ t, r = .next t ∧ s.RetiresTo t target 0 0 none ∧ t.mem = s.mem) ∧
      (p → ¬s.TargetOk target → ∃ t, r = .next t ∧ s.HaltsAt t (.misalignedTarget target)) ∧
      (¬p → ∃ t, r = .next t ∧ s.WritesReg t size 0 0) := by
  subst e ht
  refine ⟨fun hyes => ?_, fun hyes => ?_, fun hno => ?_⟩
  · exact s.branch_taken h size cond rs1 rs2 offset (hp.trans (decide_eq_true hyes))
  · exact s.branch_halts size cond rs1 rs2 offset (hp.trans (decide_eq_true hyes))
  · exact s.branch_notTaken h size cond rs1 rs2 offset (hp.trans (decide_eq_false hno))

end Shapes

theorem State.jalrTarget_signed (s : State) (rs1 : RegIdx) {n : Nat} (imm : BitVec n) :
    s.jalrTarget rs1 (signedOperand s.xlen imm) = s.jumpTarget rs1 imm.toInt := by
  rw [signedOperand_eq, State.jalrTarget_eq]

/-! ### Misaligned targets with C -/

/-- An execution that halts a running machine took a fault that the instruction may raise. -/
theorem mayRaise_of_exec_halted {c : Cause} {p : Word} {word : Option RawInsn} (hrun : s.halt = .running)
    (h : exec i s = .next t) (hhalt : t.halt = .halted c p word) : mayRaise i s c := by
  rcases exec_ends i s with ⟨u, hu, -, -, hr⟩ | ⟨c', hc', hr⟩
  · cases h.symm.trans hr
    rw [State.retire_halt, hu.halt, hrun] at hhalt
    cases hhalt
  · cases h.symm.trans hr
    cases hhalt
    exact hc'

theorem isJalr_iff : isJalr i = true ↔
    (∃ rd rs1 imm, i = .jalr rd rs1 imm) ∨ (∃ rs1, i = .cJr rs1) ∨ (∃ rs1, i = .cJalr rs1) := by
  cases i <;> simp [isJalr]

theorem State.targetOk_iff_even (hc : s.cfg.cEnabled = true) (target : Word) :
    s.TargetOk target ↔ target.toNat % 2 = 0 := by
  rw [State.TargetOk, if_pos hc]

/-- The modulus 2^XLEN is even, so the remainder has the parity of the integer. -/
theorem XLen.toNat_ofInt_even (x : XLen) {i : Int} (h : i % 2 = 0) : (x.ofInt i).toNat % 2 = 0 := by
  rw [XLen.toNat_ofInt]
  cases x <;> simp only [XLen.bits] <;> omega

theorem State.pcTarget_even {off : Int} (hpc : s.pc.toNat % 2 = 0) (hoff : off % 2 = 0) :
    (s.pcTarget off).toNat % 2 = 0 :=
  XLen.toNat_ofInt_even s.xlen (by omega)

theorem State.jumpTarget_even (hclear : s.cfg.jalrClearLsb = true) (rs1 : RegIdx) (off : Int) :
    (s.jumpTarget rs1 off).toNat % 2 = 0 := by
  simp only [State.jumpTarget, hclear, if_true, BitVec.toNat_ofNat]
  omega

/-! ### The statements -/

/-- Settles O33, as the shape of a pc-relative jump. -/
theorem jumpAndLink : Obligations.JumpAndLink := by
  intro s rd imm h
  exact h.jumpPc (exec_jal ..) (s.pcRelative_signed imm)

/-- Settles O34, as the shape of a jump to a register's value. -/
theorem jumpAndLinkRegister : Obligations.JumpAndLinkRegister := by
  intro s rd rs1 imm h
  exact h.jumpReg (exec_jalr ..) (s.jalrTarget_signed rs1 imm)

/-- Settles O35: register values are XLEN bits wide, so their bit patterns are equal when they are. -/
theorem equalityBranches : Obligations.EqualityBranches := by
  intro s rs1 rs2 imm h
  have ht := s.pcRelative_signed imm
  obtain ⟨taken, halts, notTaken⟩ := h.branch (exec_beq ..) (s.condEq_x rs1 rs2) ht
  exact ⟨taken, halts, notTaken, h.branch (exec_bne ..) (s.condNe_x rs1 rs2) ht⟩

/-- Settles O36: the signed comparisons decide by definition. -/
theorem signedBranches : Obligations.SignedBranches := by
  intro s rs1 rs2 imm h
  have ht := s.pcRelative_signed imm
  obtain ⟨taken, halts, notTaken⟩ := h.branch (exec_blt ..) rfl ht
  exact ⟨taken, halts, notTaken, h.branch (exec_bge ..) rfl ht⟩

/-- Settles O37: a register value's unsigned reading is its number. -/
theorem unsignedBranches : Obligations.UnsignedBranches := by
  intro s rs1 rs2 imm h
  have ht := s.pcRelative_signed imm
  obtain ⟨taken, halts, notTaken⟩ := h.branch (exec_bltu ..) (s.condLtu_x rs1 rs2) ht
  exact ⟨taken, halts, notTaken, h.branch (exec_bgeu ..) (s.condGeu_x rs1 rs2) ht⟩

/-- Settles O38: a misaligned target is odd, which pc plus an even offset is not, nor a target with bit 0 cleared. -/
theorem onlyJalrMisalignsWithC : Obligations.OnlyJalrMisalignsWithC := by
  intro i s t target p word hrun hc hpc hwf hexec hhalt
  obtain ⟨hmis, hsource⟩ := mayRaise_of_exec_halted hrun hexec hhalt
  rw [State.targetOk_iff_even hc] at hmis
  rcases hsource with ⟨off, rfl, heven⟩ | ⟨hjalr, rs1, off, rfl⟩
  · exact absurd (State.pcTarget_even hpc (heven hwf)) hmis
  · refine ⟨isJalr_iff.1 hjalr, ?_, Nat.mod_two_ne_zero.1 hmis⟩
    rw [← Bool.not_eq_true]
    exact fun hclear => hmis (State.jumpTarget_even hclear rs1 off)

end Sys2Proof.Machine
end

section
/-! Loads and stores (42_load_store.md R155 to R169): what a load or a store of either instruction size does when its access
passes both checks and when one fails, and that every data access is one of the two (20_memory.md R51, R52). -/

namespace Sys2Proof.Machine

open Sys2Proof

variable {i : Instr} {a : DataAccess} {s : State}

/-! ### The shapes of an access, at its effective address -/

section Shapes

variable {size : InsnSize} {g : Granularity} {ext : LoadExt} {rd rs1 rs2 : RegIdx} {disp ea : Word} {r : Result}

theorem State.Ready.load (h : s.Ready) (e : r = s.loadInto size g ext rd rs1 disp)
    (hea : s.effectiveAddress rs1 disp = ea) (ha : s.Accessible ea g.bytes) :
    ∃ t, r = .next t ∧
      s.RetiresTo t (s.seqPc size) rd (s.xlen.ofInt (loadResult ext g.bytes (s.bytesAt ea g.bytes)))
        (some ⟨.load, g, ea, BitVec.ofNat 64 (s.bytesAt ea g.bytes)⟩) ∧
      t.mem = s.mem := by
  subst e hea
  exact s.loadInto_next h size g ext rd rs1 disp ha

theorem State.FaultsWith.load_halts (e : r = s.loadInto size g ext rd rs1 disp) (hea : s.effectiveAddress rs1 disp = ea)
    (c : Cause) (hc : s.FaultsWith .load ea g.bytes c) : ∃ t, r = .next t ∧ s.HaltsAt t c := by
  subst e hea
  exact s.loadInto_halts size g ext rd rs1 disp c ((s.accessCheck_some ..).2 hc)

/-- The bytes of a store are those of the source register; an address that is none of theirs keeps its byte. -/
theorem State.Ready.store (h : s.Ready) (e : r = s.storeFrom size g rs1 rs2 disp)
    (hea : s.effectiveAddress rs1 disp = ea) (ha : s.Accessible ea g.bytes) :
    ∃ t, r = .next t ∧
      s.RetiresTo t (s.seqPc size) 0 0 (some ⟨.store, g, ea, BitVec.ofNat 64 ((s.x rs2).toNat % 256 ^ g.bytes)⟩) ∧
      (∀ k < g.bytes, t.mem.read ((ea.toNat + k) % 2 ^ s.xlen.bits) = BitVec.ofNat 8 ((s.x rs2).toNat / 256 ^ k)) ∧
      (∀ a, (∀ k < g.bytes, a ≠ (ea.toNat + k) % 2 ^ s.xlen.bits) → t.mem.read a = s.mem.read a) := by
  subst e hea
  obtain ⟨t, ht, hretires, hmem⟩ := s.storeFrom_next h size g rs1 rs2 disp ha
  refine ⟨t, ht, hretires, fun k hk => ?_, fun a hout => ?_⟩
  · rw [hmem]
    exact s.read_store_inside g _ _ k hk
  · rw [hmem]
    exact Memory.read_storeFrom_outside _ _ _ _ _ _ hout

theorem State.FaultsWith.store_halts (e : r = s.storeFrom size g rs1 rs2 disp) (hea : s.effectiveAddress rs1 disp = ea)
    (c : Cause) (hc : s.FaultsWith .store ea g.bytes c) : ∃ t, r = .next t ∧ s.HaltsAt t c := by
  subst e hea
  exact s.storeFrom_halts size g rs1 rs2 disp c ((s.accessCheck_some ..).2 hc)

end Shapes

/-! ### Every data access is a load or a store -/

/-- A data access that is not a store is a load, and its execution is `loadInto` at the address of the access. -/
theorem exec_load (hacc : dataAccess i = some a) (hne : a.kind ≠ .store) (s : State) :
    a.kind = .load ∧ ∃ ext rd disp, exec i s = s.loadInto i.size a.gran ext rd a.base disp ∧
      s.effectiveAddress a.base disp = s.accessAddress a := by
  cases i with
  | lb rd rs1 imm => cases hacc; exact ⟨rfl, _, _, _, exec_lb s rd rs1 imm, s.effectiveAddress_signed rs1 imm⟩
  | lh rd rs1 imm => cases hacc; exact ⟨rfl, _, _, _, exec_lh s rd rs1 imm, s.effectiveAddress_signed rs1 imm⟩
  | lw rd rs1 imm => cases hacc; exact ⟨rfl, _, _, _, exec_lw s rd rs1 imm, s.effectiveAddress_signed rs1 imm⟩
  | ld rd rs1 imm => cases hacc; exact ⟨rfl, _, _, _, exec_ld s rd rs1 imm, s.effectiveAddress_signed rs1 imm⟩
  | lbu rd rs1 imm => cases hacc; exact ⟨rfl, _, _, _, exec_lbu s rd rs1 imm, s.effectiveAddress_signed rs1 imm⟩
  | lhu rd rs1 imm => cases hacc; exact ⟨rfl, _, _, _, exec_lhu s rd rs1 imm, s.effectiveAddress_signed rs1 imm⟩
  | lwu rd rs1 imm => cases hacc; exact ⟨rfl, _, _, _, exec_lwu s rd rs1 imm, s.effectiveAddress_signed rs1 imm⟩
  | cLw rd rs1 uimm => cases hacc; exact ⟨rfl, _, _, _, exec_cLw s rd rs1 uimm, s.effectiveAddress_unsigned rs1 uimm⟩
  | cLd rd rs1 uimm => cases hacc; exact ⟨rfl, _, _, _, exec_cLd s rd rs1 uimm, s.effectiveAddress_unsigned rs1 uimm⟩
  | cLwsp rd uimm => cases hacc; exact ⟨rfl, _, _, _, exec_cLwsp s rd uimm, s.effectiveAddress_unsigned 2 uimm⟩
  | cLdsp rd uimm => cases hacc; exact ⟨rfl, _, _, _, exec_cLdsp s rd uimm, s.effectiveAddress_unsigned 2 uimm⟩
  | _ => cases hacc <;> exact absurd rfl hne

/-- An instruction whose data access fails a check halts with the fault of that check. -/
theorem exec_halts_of_faultsWith (hacc : dataAccess i = some a) {c : Cause}
    (hc : s.FaultsWith a.kind (s.accessAddress a) a.gran.bytes c) : ∃ t, exec i s = .next t ∧ s.HaltsAt t c := by
  by_cases hkind : a.kind = .store
  · obtain ⟨disp, hexec, haddr⟩ := exec_store hacc hkind s
    rw [hkind] at hc
    exact hc.store_halts hexec haddr
  · obtain ⟨hload, ext, rd, disp, hexec, haddr⟩ := exec_load hacc hkind s
    rw [hload] at hc
    exact hc.load_halts hexec haddr

/-! ### The statements -/

/-- Settles O39: either displacement is the operand of its integer, and the sum wraps once. -/
theorem effectiveAddresses : Obligations.EffectiveAddresses := by
  intro s rs1
  exact ⟨s.effectiveAddress_signed rs1, fun n uimm _ => s.effectiveAddress_unsigned rs1 uimm⟩

/-- Settles O40, as the two outcomes of a sign-extending load at each width. -/
theorem signedLoads : Obligations.SignedLoads := by
  intro s rd rs1 imm h
  exact ⟨h.load (exec_lb ..) rfl, State.FaultsWith.load_halts (exec_lb ..) rfl,
    h.load (exec_lh ..) rfl, State.FaultsWith.load_halts (exec_lh ..) rfl,
    h.load (exec_lw ..) rfl, State.FaultsWith.load_halts (exec_lw ..) rfl⟩

/-- Settles O41, as the two outcomes of a zero-extending load at each width. -/
theorem unsignedLoads : Obligations.UnsignedLoads := by
  intro s rd rs1 imm h
  exact ⟨h.load (exec_lbu ..) rfl, State.FaultsWith.load_halts (exec_lbu ..) rfl,
    h.load (exec_lhu ..) rfl, State.FaultsWith.load_halts (exec_lhu ..) rfl,
    h.load (exec_lwu ..) rfl, State.FaultsWith.load_halts (exec_lwu ..) rfl,
    h.load (exec_ld ..) rfl, State.FaultsWith.load_halts (exec_ld ..) rfl⟩

/-- Settles O42, as the two outcomes of a store at each width. -/
theorem stores : Obligations.Stores := by
  intro s rs1 rs2 imm h
  exact ⟨h.store (exec_sb ..) rfl, State.FaultsWith.store_halts (exec_sb ..) rfl,
    h.store (exec_sh ..) rfl, State.FaultsWith.store_halts (exec_sh ..) rfl,
    h.store (exec_sw ..) rfl, State.FaultsWith.store_halts (exec_sw ..) rfl,
    h.store (exec_sd ..) rfl, State.FaultsWith.store_halts (exec_sd ..) rfl⟩

/-- Settles O43: each clause is one of the two ways in which an access faults. -/
theorem dataFaultsHalt : Obligations.DataFaultsHalt := by
  intro i a s hacc
  refine ⟨fun ⟨hfault, hmis⟩ => ?_, fun ⟨haligned, hrefused⟩ => ?_⟩
  · exact exec_halts_of_faultsWith hacc (.inl ⟨hfault, hmis, rfl⟩)
  · exact exec_halts_of_faultsWith hacc (.inr ⟨haligned, hrefused, rfl⟩)

end Sys2Proof.Machine
end

section
/-! The system stubs (43_system.md R170 to R183): FENCE is the no-op, and every other stub is one `systemStub` at its size,
the no-op or under STRICT_SYSTEM the fault, in which no field of the instruction takes part. -/

namespace Sys2Proof.Machine

open Sys2Proof

variable {i : Instr} {s : State}

theorem exec_strictStub (hi : isStrictStub i = true) (s : State) : exec i s = s.systemStub i.size := by
  cases i with
  | ecall => exact exec_ecall s
  | ebreak => exact exec_ebreak s
  | cEbreak => exact exec_cEbreak s
  | csrrw rd rs1 csr => exact exec_csrrw s rd rs1 csr
  | csrrs rd rs1 csr => exact exec_csrrs s rd rs1 csr
  | csrrc rd rs1 csr => exact exec_csrrc s rd rs1 csr
  | csrrwi rd uimm csr => exact exec_csrrwi s rd uimm csr
  | csrrsi rd uimm csr => exact exec_csrrsi s rd uimm csr
  | csrrci rd uimm csr => exact exec_csrrci s rd uimm csr
  | _ => cases hi

theorem State.Ready.strictStub_next (h : s.Ready) (hi : isStrictStub i = true) (hs : s.cfg.strictSystem = false) :
    ∃ t, exec i s = .next t ∧ s.WritesReg t i.size 0 0 := by
  rw [exec_strictStub hi]
  exact s.systemStub_next h i.size hs

theorem exec_strictStub_halts (hi : isStrictStub i = true) (hs : s.cfg.strictSystem = true) :
    ∃ t, exec i s = .next t ∧ s.HaltsAt t .unsupportedOperation := by
  rw [exec_strictStub hi]
  exact s.systemStub_halts i.size hs

/-! ### The statements -/

/-- Settles O46: FENCE is the no-op, and STRICT_SYSTEM is not asked. -/
theorem fenceCompletes : Obligations.FenceCompletes := by
  intro s fm pred succ rs1 rd h
  rw [exec_fence]
  exact s.noEffect_next h .four

/-- Settles O47, as the two outcomes of a strict stub at each size. -/
theorem environmentStubs : Obligations.EnvironmentStubs := by
  intro s h
  exact ⟨h.strictStub_next rfl, exec_strictStub_halts rfl,
    h.strictStub_next rfl, exec_strictStub_halts rfl,
    h.strictStub_next rfl, exec_strictStub_halts rfl⟩

/-- Settles O48, as the two outcomes of a strict stub, once for each of the six. -/
theorem csrStubs : Obligations.CsrStubs := by
  intro s rd rs1 csr h
  exact ⟨h.strictStub_next rfl, exec_strictStub_halts rfl,
    h.strictStub_next rfl, exec_strictStub_halts rfl,
    h.strictStub_next rfl, exec_strictStub_halts rfl,
    h.strictStub_next rfl, exec_strictStub_halts rfl,
    h.strictStub_next rfl, exec_strictStub_halts rfl,
    h.strictStub_next rfl, exec_strictStub_halts rfl⟩

end Sys2Proof.Machine
end

section
/-! The compressed instructions (44_compressed.md R184 to R221): each completes as the instruction it expands to, at
size 2, through the shape and the value of that instruction. -/

namespace Sys2Proof.Machine

open Sys2Proof

variable {s t : State}

/-! ### Values: x0 as a destination and as a source, and the immediates that no base instruction has -/

/-- A write to x0 is discarded, so its value is no part of the step's effect (10_state.md R27). -/
theorem State.RetiresTo.zero_congr {pc' v : Word} {ev : Option MemEvent} (w : Word)
    (h : s.RetiresTo t pc' 0#5 v ev) : s.RetiresTo t pc' 0#5 w ev := by
  obtain ⟨hregs, hpc, horder, hcfg, hhalt, hstage, htrace⟩ := h
  refine ⟨fun r => ?_, hpc, horder, hcfg, hhalt, hstage, htrace⟩
  rw [hregs r]
  split_ifs <;> rfl

/-- The same of an execution that completes and leaves memory alone. -/
theorem State.completes_zero_congr {r : Result} {pc' v : Word} {ev : Option MemEvent} (w : Word)
    (h : ∃ t, r = .next t ∧ s.RetiresTo t pc' 0 v ev ∧ t.mem = s.mem) :
    ∃ t, r = .next t ∧ s.RetiresTo t pc' 0 w ev ∧ t.mem = s.mem := by
  obtain ⟨t, ht, hretires, hmem⟩ := h
  exact ⟨t, ht, hretires.zero_congr w, hmem⟩

theorem wrap_add_unsignedOperand (x : XLen) (a : Word) {n : Nat} (imm : BitVec n) :
    x.wrap (a + unsignedOperand x imm) = x.ofInt (x.asSigned a + imm.toNat) := by
  rw [unsignedOperand_eq, XLen.wrap_add_ofInt]

theorem State.wrap_x_zero_add_signedOperand (s : State) {n : Nat} (imm : BitVec n) :
    s.xlen.wrap (s.x 0#5 + signedOperand s.xlen imm) = s.xlen.ofInt imm.toInt := by
  rw [State.x_zero, BitVec.zero_add, wrap_signedOperand, signedOperand_eq]

theorem State.wrap_x_zero_add_x (s : State) (r : RegIdx) : s.xlen.wrap (s.x 0#5 + s.x r) = s.x r := by
  rw [State.x_zero, BitVec.zero_add, s.wrap_x]

theorem wrap_cLuiOperand (x : XLen) (field : BitVec 6) :
    x.wrap (cLuiOperand x field) = x.ofInt (field.toInt * 2 ^ 12) := by
  rw [cLuiOperand_eq, XLen.wrap_ofInt]

/-! ### Targets -/

/-- With C a pc-relative target is aligned when pc and the offset's field are even (41_control_transfer.md R143). -/
theorem State.targetOk_pcTarget {n : Nat} (hn : 0 < n) (imm : BitVec n) (hc : s.cfg.cEnabled = true)
    (hpc : s.pc.toNat % 2 = 0) (himm : imm.toNat % 2 = 0) : s.TargetOk (s.pcTarget imm.toInt) :=
  (State.targetOk_iff_even hc _).2 (State.pcTarget_even hpc (toInt_even hn imm himm))

/-! ### The statements -/

/-- Settles O50: each is the sum of an ADDI, where x0 as a source reads 0 and as a destination takes no value. -/
theorem compressedAddImmediate : Obligations.CompressedAddImmediate := by
  intro s rd h
  refine ⟨fun nzuimm => ?_, fun imm => ?_, fun imm => ?_, fun imm => ?_, fun nzimm => ?_⟩
  · exact h.opImm (exec_cAddi4spn ..) (wrap_add_unsignedOperand ..)
  · exact State.completes_zero_congr 0 (h.opImm (exec_cNop ..) rfl)
  · exact h.opImm (exec_cAddi ..) (wrap_add_signedOperand ..)
  · exact h.opImm (exec_cLi ..) (s.wrap_x_zero_add_signedOperand imm)
  · exact h.opImm (exec_cAddi16sp ..) (wrap_add_signedOperand ..)

/-- Settles O51, by the values of ADDIW, of C.LUI's operand and of ANDI. -/
theorem compressedOtherImmediate : Obligations.CompressedOtherImmediate := by
  intro s rd imm h
  refine ⟨?_, ?_, ?_⟩
  · exact h.opImm (exec_cAddiw ..) (wrap_wordResult _ _ _ (low32_addImm ..))
  · exact h.writeUpper (exec_cLui ..) (wrap_cLuiOperand ..)
  · rw [← signedOperand_eq]
    exact h.opImm (exec_cAndi ..) (wrap_and _ _ _ (s.wrap_x rd) (wrap_signedOperand ..))

/-- Settles O52, by the values of the base shifts, which hold for every amount. -/
theorem compressedShifts : Obligations.CompressedShifts := by
  intro s rd shamt h
  exact ⟨h.opImm (exec_cSrli ..) (s.wrap_srl_x ..),
    h.opImm (exec_cSrai ..) (XLen.wrap_sra ..),
    h.opImm (exec_cSlli ..) (XLen.wrap_sll ..)⟩

/-- Settles O53, by the values of the base register forms; C.MV adds x0, which reads 0. -/
theorem compressedRegister : Obligations.CompressedRegister := by
  intro s rd rs2 h
  have hd := s.wrap_x rd
  have h2 := s.wrap_x rs2
  exact ⟨h.opReg (exec_cSub ..) (XLen.wrap_sub ..),
    h.opReg (exec_cXor ..) (wrap_xor _ _ _ hd h2),
    h.opReg (exec_cOr ..) (wrap_or _ _ _ hd h2),
    h.opReg (exec_cAnd ..) (wrap_and _ _ _ hd h2),
    h.opReg (exec_cSubw ..) (wrap_wordResult _ _ _ (low32_sub ..)),
    h.opReg (exec_cAddw ..) (wrap_wordResult _ _ _ (low32_add ..)),
    h.opReg (exec_cMv ..) (s.wrap_x_zero_add_x rs2),
    h.opReg (exec_cAdd ..) (XLen.wrap_add ..)⟩

/-- Settles O54, as the shapes of the two jumps with x0 or x1 as the link register. -/
theorem compressedJumps : Obligations.CompressedJumps := by
  intro s h
  refine ⟨fun imm => ?_, fun rs1 => ?_⟩
  · have ht := s.pcRelative_signed imm
    obtain ⟨jumps, halts⟩ := h.jumpPc (exec_cJ s imm) ht
    obtain ⟨links, linkHalts⟩ := h.jumpPc (exec_cJal s imm) ht
    exact ⟨fun hok => State.completes_zero_congr 0 (jumps hok), halts, links, linkHalts,
      State.targetOk_pcTarget (by decide) imm⟩
  · have ht := s.jalrTarget_zero rs1
    obtain ⟨jumps, halts⟩ := h.jumpReg (exec_cJr s rs1) ht
    exact ⟨fun hok => State.completes_zero_congr 0 (jumps hok), halts, h.jumpReg (exec_cJalr s rs1) ht⟩

/-- Settles O55, as the shape of a branch that compares with x0, which reads 0. -/
theorem compressedBranches : Obligations.CompressedBranches := by
  intro s rs1 imm h
  have ht := s.pcRelative_signed imm
  obtain ⟨eqTaken, eqHalts, eqNotTaken⟩ := h.branch (exec_cBeqz s rs1 imm) (s.condEq_x rs1 0) ht
  obtain ⟨neTaken, neHalts, neNotTaken⟩ := h.branch (exec_cBnez s rs1 imm) (s.condNe_x rs1 0) ht
  exact ⟨eqTaken, eqHalts, eqNotTaken, neTaken, neHalts, neNotTaken, State.targetOk_pcTarget (by decide) imm⟩

/-- Settles O56, as the two outcomes of a load, for each of the four. -/
theorem compressedLoads : Obligations.CompressedLoads := by
  intro s rd rs1 h
  refine ⟨fun uimm => ⟨?_, ?_⟩, fun uimm => ⟨?_, ?_⟩, fun uimm => ⟨?_, ?_⟩, fun uimm => ⟨?_, ?_⟩⟩
  · exact h.load (exec_cLw ..) rfl
  · exact State.FaultsWith.load_halts (exec_cLw ..) rfl
  · exact h.load (exec_cLd ..) rfl
  · exact State.FaultsWith.load_halts (exec_cLd ..) rfl
  · exact h.load (exec_cLwsp ..) rfl
  · exact State.FaultsWith.load_halts (exec_cLwsp ..) rfl
  · exact h.load (exec_cLdsp ..) rfl
  · exact State.FaultsWith.load_halts (exec_cLdsp ..) rfl

/-- Settles O57, as the two outcomes of a store, for each of the four. -/
theorem compressedStores : Obligations.CompressedStores := by
  intro s rs1 rs2 h
  refine ⟨fun uimm => ⟨?_, ?_⟩, fun uimm => ⟨?_, ?_⟩, fun uimm => ⟨?_, ?_⟩, fun uimm => ⟨?_, ?_⟩⟩
  · exact h.store (exec_cSw ..) rfl
  · exact State.FaultsWith.store_halts (exec_cSw ..) rfl
  · exact h.store (exec_cSd ..) rfl
  · exact State.FaultsWith.store_halts (exec_cSd ..) rfl
  · exact h.store (exec_cSwsp ..) rfl
  · exact State.FaultsWith.store_halts (exec_cSwsp ..) rfl
  · exact h.store (exec_cSdsp ..) rfl
  · exact State.FaultsWith.store_halts (exec_cSdsp ..) rfl

end Sys2Proof.Machine
end

section
/-! The trace and the commit of a step (45_trace_commit.md R223 to R237): a step is the execution of the instruction that
the bytes at pc encode, and it ends in a retirement, with one pair of records appended to the trace, or in a fault. -/

namespace Sys2Proof.Machine

open Sys2Proof

/-! ### The records that a retired step emits -/

section Records

variable (s : State) (p : Word)

@[simp] theorem State.emission_regWrites : (s.emission p).record.regWrites = s.stage.log := rfl
@[simp] theorem State.emission_insn : (s.emission p).rvfi.insn = (s.stage.fetched.map RawInsn.bits).getD 0 := rfl
@[simp] theorem State.emission_rdAddr : (s.emission p).rvfi.rdAddr = (s.stage.log.getLast?.getD ⟨0, 0⟩).index := rfl
@[simp] theorem State.emission_rdWdata : (s.emission p).rvfi.rdWdata = (s.stage.log.getLast?.getD ⟨0, 0⟩).value := rfl

end Records

variable {i : Instr} {s t u : State} {raw : RawInsn} {size : InsnSize}

/-- Execution that begins with an empty log leaves nothing in it, or one write to a register other than x0. -/
theorem State.Executed.log_cases (hu : s.Executed u) (hlog : s.stage.log = []) :
    u.stage.log = [] ∨ ∃ r v, r ≠ 0#5 ∧ s.xlen.wrap v = v ∧ u.stage.log = [⟨r, v⟩] := by
  simpa [hlog] using hu.log

/-- The RVFI record names the one register written with the value that its commit leaves, or 0 and 0 for none. -/
theorem State.Executed.emission_rd (hu : s.Executed u) (hlog : s.stage.log = []) (p : Word) :
    ((u.emission p).record.regWrites = [] ∧ (u.emission p).rvfi.rdAddr = 0 ∧ (u.emission p).rvfi.rdWdata = 0) ∨
      ((u.emission p).rvfi.rdAddr ≠ 0 ∧
        (u.emission p).record.regWrites = [⟨(u.emission p).rvfi.rdAddr, (u.emission p).rvfi.rdWdata⟩] ∧
        (u.retire size).x (u.emission p).rvfi.rdAddr = (u.emission p).rvfi.rdWdata) := by
  rcases hu.log_cases hlog with hl | ⟨r, v, hr, hv, hl⟩
  · simp [hl]
  · have hcommit : (u.retire size).x r = v := by
      rw [State.x_retire u size r v (by rw [hl, if_neg hr]), if_neg hr, if_pos rfl, State.xlen, hu.cfg, hv]
    simp [hl, hr, hcommit]

/-- Settles O22, by the state that execution left to `retire`: a fault would not be running. -/
theorem retiredStepIsRecorded : Obligations.RetiredStepIsRecorded := by
  intro i s t raw hready hfetched hrun hexec hnext
  rcases exec_ends i s with ⟨u, hu, hcaptured, -, hr⟩ | ⟨c, -, hr⟩
  · cases hexec.symm.trans hr
    obtain ⟨hrs1, hrs2, hevent⟩ := hcaptured hready
    refine ⟨u.emission (u.nextPc i.size), by rw [State.retire_trace, hu.trace], ?_⟩
    refine ⟨rfl, hu.order, ?_, ?_, ?_, ?_, ?_, hu.emission_rd hready.log _, hu.pc, rfl, hu.pc, rfl, hevent⟩
    · simp [hu.fetched, hfetched]
    · exact congrArg ReadCapture.index hrs1
    · exact congrArg ReadCapture.value hrs1
    · exact congrArg ReadCapture.index hrs2
    · exact congrArg ReadCapture.value hrs2
  · cases hexec.symm.trans hr
    cases hnext

/-! ### What a step does -/

/-- A step that answers a next state either retires what execution left, or halts the state it began in. -/
theorem step_retires_or_halts (h : step s = .next t) :
    (∃ raw u size, (s.beginStep raw).Executed u ∧ t = u.retire size) ∨
      ∃ c word, c ≠ .invalidImmediate ∧ t = s.haltWith c word := by
  obtain ⟨-, -, hcases⟩ := step_cases h
  rcases hcases with ⟨c, hfetch, rfl⟩ | ⟨raw, -, -, -, rfl⟩ | ⟨raw, i, -, -, hexec⟩
  · obtain ⟨a, rfl⟩ := fetch_error hfetch
    exact .inr ⟨.accessFault .fetch a, none, nofun, rfl⟩
  · exact .inr ⟨.invalidEncoding, some raw, nofun, rfl⟩
  · rcases exec_ends i (s.beginStep raw) with ⟨u, hu, -, -, hr⟩ | ⟨c, hc, hr⟩
    · cases hexec.symm.trans hr
      exact .inl ⟨raw, u, i.size, hu, rfl⟩
    · cases hexec.symm.trans hr
      exact .inr ⟨c, some raw, mayRaise_ne_invalidImmediate hc, rfl⟩

/-- Between two steps nothing stands within a step, so a fault changes the halt state alone (60_exceptions.md R243). -/
theorem State.Inv.haltWith_eq (h : s.Inv) (c : Cause) (word : Option RawInsn) :
    s.haltWith c word = { s with halt := .halted c s.pc word } := by
  rw [State.haltWith, ← h.stageIdle]

/-- Settles O18, by the two ends of a step. -/
theorem stepRetiresOrHalts : Obligations.StepRetiresOrHalts := by
  intro s h hrun
  obtain ⟨t, hstep⟩ := step_next s h.cfgValid hrun
  refine ⟨t, hstep, ?_⟩
  rcases step_retires_or_halts hstep with ⟨raw, u, size, hu, rfl⟩ | ⟨c, word, hc, rfl⟩
  · refine .inl ⟨hu.halt.trans hrun, by rw [State.retire_order, hu.order, State.beginStep_order],
      u.emission (u.nextPc size), by rw [State.retire_trace, hu.trace, State.beginStep_trace], ?_⟩
    rcases hu.log_cases rfl with hl | ⟨r, v, hr, -, hl⟩
    · simp [hl]
    · simp [hl, hr]
  · exact .inr ⟨c, word, hc, h.haltWith_eq c word⟩

/-! ### The trace as the record of the run -/

/-- A fault emits nothing and leaves pc and the order counter, so the trace stays the record of the run. -/
theorem State.TraceOk.haltWith (h : s.TraceOk) (c : Cause) (word : Option RawInsn) : (s.haltWith c word).TraceOk :=
  ⟨h.counts, h.numbered, h.starts, h.chained, h.ends⟩

/-- Before the first record pc is RESET_PC. -/
theorem State.TraceOk.pc_of_nil (h : s.TraceOk) (hnil : s.trace = []) : s.pc = s.cfg.resetPc := by
  simpa [hnil] using h.ends

/-- From the first record on, pc is where the last one went. -/
theorem State.TraceOk.pc_of_last (h : s.TraceOk) {k : Nat} (hk : k + 1 = s.trace.length) :
    s.pc = s.trace[k].rvfi.pcWdata := by
  simpa [List.getLast?_eq_getElem?, ← hk] using h.ends

/-- The trace stays the record of the run when the record appended has the next number, starts at the old pc and goes to
the new one (45_trace_commit.md R233, R236). -/
theorem State.TraceOk.append (h : s.TraceOk) {e : Emission} (hcfg : t.cfg = s.cfg) (horder : t.order = s.order + 1)
    (htrace : t.trace = s.trace ++ [e]) (hnumber : e.rvfi.order = s.order) (hfrom : e.rvfi.pcRdata = s.pc)
    (hto : t.pc = e.rvfi.pcWdata) : t.TraceOk where
  counts := by rw [horder, htrace, h.counts, List.length_append, BitVec.ofNat_add]; rfl
  numbered := by
    simp only [htrace]
    intro k hk
    rw [List.length_append, List.length_singleton, Nat.lt_succ_iff_lt_or_eq] at hk
    rcases hk with hold | rfl
    · rw [List.getElem_append_left hold, h.numbered k hold]
    · rw [List.getElem_concat_length rfl, hnumber, h.counts]
  starts := by
    rw [htrace, hcfg]
    cases hs : s.trace with
    | nil =>
      rintro _ ⟨⟩
      rw [hfrom, h.pc_of_nil hs]
    | cons e₀ es =>
      rintro _ ⟨⟩
      exact h.starts e₀ (by rw [hs, List.head?_cons])
  chained := by
    simp only [htrace]
    intro k hk
    rw [List.length_append, List.length_singleton, Nat.lt_succ_iff_lt_or_eq] at hk
    rcases hk with hold | hlast
    · rw [List.getElem_append_left hold, List.getElem_append_left (by omega), h.chained k hold]
    · rw [List.getElem_concat_length hlast, List.getElem_append_left (by omega), hfrom, h.pc_of_last hlast]
  ends := by simp [htrace, hto]

/-- Settles O13, by the two ends of a step. -/
theorem stepKeepsTrace : Obligations.StepKeepsTrace := by
  intro s t _ h hstep
  rcases step_retires_or_halts hstep with ⟨raw, u, size, hu, rfl⟩ | ⟨c, word, -, rfl⟩
  · have horder : u.order = s.order := hu.order
    have htrace : u.trace = s.trace := hu.trace
    exact h.append hu.cfg (by rw [State.retire_order, horder]) (by rw [State.retire_trace, htrace]) horder hu.pc rfl
  · exact h.haltWith c word

/-! ### The instruction that a step runs -/

/-- Settles O14: the four tests of a step, each of which the hypotheses answer. -/
theorem stepRunsDecoded : Obligations.StepRunsDecoded := by
  intro s raw i hvalid hrun hfetch hdecode
  refine ⟨?_, s.beginStep_ready raw⟩
  unfold step
  simp [hvalid, hrun, hfetch, hdecode]

/-- The low two bits of a word name the table it was read from, and so the size (30_encoding.md R69). -/
theorem size_four_iff_of_decode {c : Config} {w : BitVec 32} (h : decode c w = .ok i) :
    i.size = .four ↔ w.setWidth 2 = 0b11#2 := by
  rw [decode_ok_iff, decodeRow] at h
  rw [BitVec.setWidth_eq_extractLsb' (by decide)]
  split_ifs at h with hword hlong hc
  · exact iff_of_true (onlyWords_decode32 _ w i h) hword
  · refine iff_of_false ?_ hword
    obtain ⟨-, hencode⟩ := readsExactly_decode16 hc _ i h
    rw [← encode_size, hencode]
    nofun

/-- The bytes of a word at pc are fetched as that word: with C its low two bits ask for the second half. -/
theorem State.fetch_of_word (hbytes : s.bytesAt s.pc 4 = raw.bits.toNat) (hsize : raw.size = .four)
    (hlow : raw.bits.setWidth 2 = 0b11#2)
    (hhalves : s.cfg.cEnabled = true →
      s.cfg.memAdmits s.pc 2 = true ∧ s.cfg.memAdmits (s.xlen.ofInt (s.pc.toNat + 2)) 2 = true)
    (hword : s.cfg.cEnabled = false → s.cfg.memAdmits s.pc 4 = true) : s.fetch = .ok raw := by
  obtain ⟨-, -, -, fetchHalves, -, fetchWord⟩ := fetchFollowsRule s
  have hbits : BitVec.ofNat 32 (s.bytesAt s.pc 4) = raw.bits := by
    rw [hbytes, BitVec.ofNat_toNat, BitVec.setWidth_eq]
  cases hc : s.cfg.cEnabled with
  | false => rw [fetchWord hc (hword hc), hbits, ← hsize]
  | true =>
    obtain ⟨hlo, hhi⟩ := hhalves hc
    have hlen : s.bytesAt s.pc 2 % 4 = 3 := by
      rwa [← hbits, setWidth_two_eq_three_iff (by decide), s.bytesAt_mod_four s.pc 3, ← s.bytesAt_mod_four s.pc 1] at hlow
    rw [fetchHalves hc hlo hlen hhi, hbits, ← hsize]

/-- With C the two bytes of a halfword at pc are fetched as that halfword. -/
theorem State.fetch_of_half (hbytes : s.bytesAt s.pc 2 = raw.bits.toNat) (hsize : raw.size = .two)
    (hlow : raw.bits.setWidth 2 ≠ 0b11#2) (hc : s.cfg.cEnabled = true) (hhalf : s.cfg.memAdmits s.pc 2 = true) :
    s.fetch = .ok raw := by
  obtain ⟨-, fetchHalf, -, -, -, -⟩ := fetchFollowsRule s
  have hbits : BitVec.ofNat 32 (s.bytesAt s.pc 2) = raw.bits := by
    rw [hbytes, BitVec.ofNat_toNat, BitVec.setWidth_eq]
  have hlen : s.bytesAt s.pc 2 % 4 ≠ 3 := by
    rwa [ne_eq, ← hbits, setWidth_two_eq_three_iff (by decide)] at hlow
  rw [fetchHalf hc hhalf hlen, hbits, ← hsize]

/-- Settles O15: the bytes are fetched as the encoding, which decodes to the instruction again. -/
theorem stepRunsEncoded : Obligations.StepRunsEncoded := by
  intro s i h hrun hwf hbytes hhalves hword
  obtain ⟨hdecode, hsize⟩ := decodeInvertsEncode s.cfg i hwf
  have hlow := size_four_iff_of_decode hdecode
  have hfetch : s.fetch = .ok (encode i) := by
    cases hi : i.size with
    | four =>
      rw [hi] at hbytes
      exact State.fetch_of_word hbytes (hsize.trans hi) (hlow.1 hi) (fun hc => (hhalves hc).imp_right fun hhi => hhi hi) hword
    | two =>
      rw [hi] at hbytes
      have hc := cEnabled_of_wellFormed_two hwf hi
      have hnot : i.size ≠ .four := by rw [hi]; nofun
      exact State.fetch_of_half hbytes (hsize.trans hi) (fun h3 => hnot (hlow.2 h3)) hc (hhalves hc).1
  exact (stepRunsDecoded s (encode i) i h.cfgValid hrun hfetch hdecode).1

/-- Settles O23: the step is a closed computation, and the two records are among what it gives. -/
theorem workedJalRecord : Obligations.WorkedJalRecord :=
  ⟨_, rfl, rfl, rfl, rfl, rfl⟩

end Sys2Proof.Machine
end

section
/-! Exceptions (60_exceptions.md R238 to R243): the fault of each stage of a step, the halted state, which reset alone leaves,
and what may raise UnsupportedOperation. -/

namespace Sys2Proof.Machine

open Sys2Proof

variable {s : State} {c : Cause} {raw : RawInsn}

/-! ### The fault of each stage, and the halted state -/

theorem step_of_fetch_error (hvalid : s.cfg.valid = true) (hrun : s.halt = .running) (hfetch : s.fetch = .error c) :
    step s = .next (s.haltWith c none) := by
  unfold step
  simp [hvalid, hrun, hfetch]

/-- Whatever decode answers for a word that it refuses, the step reports InvalidEncoding (60_exceptions.md R239). -/
theorem step_of_decode_error {e : DecodeError} (hvalid : s.cfg.valid = true) (hrun : s.halt = .running)
    (hfetch : s.fetch = .ok raw) (hdecode : decode s.cfg raw.bits = .error e) :
    step s = .next (s.haltWith .invalidEncoding (some raw)) := by
  obtain ⟨rfl, -⟩ := decode_error hdecode
  unfold step
  simp [hvalid, hrun, hfetch, hdecode, decodeCause, State.raise_beginStep]

/-- In the halted state no step is enabled (60_exceptions.md R243). -/
theorem step_of_halted {p : Word} {word : Option RawInsn} (hvalid : s.cfg.valid = true)
    (hhalt : s.halt = .halted c p word) : step s = .fault .noStepEnabled := by
  unfold step
  simp [hvalid, hhalt]

theorem State.hostReset_of_valid {cfg : Config} (hvalid : cfg.valid = true) (s : State) (memInit : List Host.Cell) :
    s.hostReset cfg memInit = .next (State.resetWith cfg memInit) :=
  if_pos hvalid

/-! ### The statements -/

/-- Settles O17: the fault of fetch and the fault of decode, each of which changes the halt state alone. -/
theorem fetchAndDecodeFaultsHalt : Obligations.FetchAndDecodeFaultsHalt := by
  intro s h hrun
  refine ⟨fun c hfetch => ?_, fun raw e hfetch hdecode => ?_⟩
  · rw [step_of_fetch_error h.cfgValid hrun hfetch, h.haltWith_eq]
  · rw [step_of_decode_error h.cfgValid hrun hfetch hdecode, h.haltWith_eq]

/-- Settles O19: a step that ends halted did not retire, and the state that its fault leaves is halted. -/
theorem faultIsPreciseAndFinal : Obligations.FaultIsPreciseAndFinal := by
  intro s t h hrun hstep hhalted
  obtain ⟨t', hstep', hends⟩ := stepRetiresOrHalts s h hrun
  cases hstep.symm.trans hstep'
  rcases hends with ⟨hrunning, -⟩ | ⟨c, word, -, rfl⟩
  · exact absurd hrunning hhalted
  · exact ⟨⟨c, word, rfl⟩, step_of_halted h.cfgValid rfl, fun _ memInit hvalid => State.hostReset_of_valid hvalid _ memInit⟩

/-- Settles O49: a strict stub is its fault under STRICT_SYSTEM, and an execution that halts took a fault that the
instruction may raise, which for this cause is a strict stub's. -/
theorem unsupportedOperationRule : Obligations.UnsupportedOperationRule := by
  intro i s hrun
  exact ⟨fun ⟨hstub, hstrict⟩ => exec_strictStub_halts hstub hstrict,
    fun _ _ _ hexec hhalt => mayRaise_of_exec_halted hrun hexec hhalt⟩

end Sys2Proof.Machine
end

section
/-! The host's reset (70_reset_and_hazards.md R253, R254; 00_scope.md R10): a valid configuration, MEM_INIT in memory, and the
reset state, from which the machine invariant starts. -/

namespace Sys2Proof

theorem Config.valid_iff (c : Config) :
    c.valid = true ↔ c.resetPc.toNat % c.ialignBytes = 0 ∧ c.xlen.wrap c.resetPc = c.resetPc := by
  simp [Config.valid]

end Sys2Proof

namespace Sys2Proof.Machine

open Sys2Proof

theorem State.hostReset_of_invalid {cfg : Config} (hinvalid : cfg.valid = false) (s : State) (memInit : List Host.Cell) :
    s.hostReset cfg memInit = .refused .invalidConfiguration :=
  if_neg (by simp [hinvalid])

/-! ### MEM_INIT in memory -/

@[simp] theorem Memory.ofCells_nil : Memory.ofCells [] = [] := rfl

/-- The cell listed last is the one written last. -/
@[simp] theorem Memory.ofCells_concat (cells : List Host.Cell) (c : Host.Cell) :
    Memory.ofCells (cells ++ [c]) = (Memory.ofCells cells).write c.1 c.2 := by
  simp [Memory.ofCells]

/-- An address that the host lists with one byte only reads that byte. -/
theorem Memory.read_ofCells {cells : List Host.Cell} {a : Nat} {b : Byte} (hmem : (a, b) ∈ cells)
    (huniq : ∀ b', (a, b') ∈ cells → b' = b) : (Memory.ofCells cells).read a = b := by
  induction cells using List.reverseRecOn with
  | nil => cases hmem
  | append_singleton cells c ih =>
    obtain ⟨k, d⟩ := c
    rw [Memory.ofCells_concat]
    by_cases hk : a = k
    · subst hk
      have hd : d = b := huniq d (by simp)
      rw [Memory.read_write_same, hd]
    · have hmem' : (a, b) ∈ cells := by simpa [hk] using hmem
      rw [Memory.read_write_ne _ _ hk]
      exact ih hmem' fun b' h => huniq b' (by simp [h])

/-- MEM_INIT's memory lists no address outside the space when MEM_INIT lists none. -/
theorem Memory.ofCells_inSpace {x : XLen} {cells : List Host.Cell} (h : ∀ c ∈ cells, c.1 < 2 ^ x.bits) :
    (Memory.ofCells cells).inSpace x = true := by
  induction cells using List.reverseRecOn with
  | nil => rfl
  | append_singleton cells c ih =>
    rw [Memory.ofCells_concat]
    exact Memory.write_inSpace x _ _ _ (h c (by simp)) (ih fun d hd => h d (by simp [hd]))

/-! ### The reset state -/

theorem State.resetWith_getElem (c : Config) (m : List Host.Cell) (i : Nat) (hi : i < 32) :
    (State.resetWith c m).regs[i] = 0#64 := by
  simp [State.resetWith]

@[simp] theorem State.resetWith_x (c : Config) (m : List Host.Cell) (r : RegIdx) : (State.resetWith c m).x r = 0#64 := by
  rw [State.x, State.resetWith_getElem, XLen.wrap_zero, ite_self]

theorem State.resetWith_regsOk (c : Config) (m : List Host.Cell) : (State.resetWith c m).RegsOk :=
  ⟨State.resetWith_getElem c m 0 (by decide), fun i hi => by rw [State.resetWith_getElem, XLen.wrap_zero]⟩

/-- The invariant at reset: RESET_PC is as the configuration's validity asks, memory as MEM_INIT, the rest zero or idle. -/
theorem State.resetWith_inv {c : Config} {m : List Host.Cell} (hvalid : c.valid = true)
    (hspace : ∀ e ∈ m, e.1 < 2 ^ c.xlen.bits) : (State.resetWith c m).Inv := by
  obtain ⟨haligned, hwidth⟩ := (Config.valid_iff c).1 hvalid
  exact {
    cfgValid := hvalid
    pcWidth := hwidth
    pcAligned := haligned
    regsOk := State.resetWith_regsOk c m
    memWf := Memory.ofCells_wf m
    memInSpace := Memory.ofCells_inSpace hspace
    stageIdle := rfl
    haltOk := trivial }

/-! ### The statements -/

/-- Settles O9, by the validity of the configuration: the reset state does not depend on the state it replaces. -/
theorem resetState : Obligations.ResetState := by
  intro s c m
  refine ⟨fun hvalid => ?_, fun hinvalid => State.hostReset_of_invalid hinvalid s m⟩
  exact ⟨_, State.hostReset_of_valid hvalid s m, rfl, State.resetWith_x c m, rfl, rfl, rfl, rfl,
    fun _ _ hmem huniq => Memory.read_ofCells hmem huniq⟩

/-- Settles O10: every reset state meets the invariant, and State.reset is the one with nothing in MEM_INIT. -/
theorem resetSatisfiesInvariant : Obligations.ResetSatisfiesInvariant :=
  ⟨fun _ _ hvalid hspace => State.resetWith_inv hvalid hspace, State.resetWith_inv (by decide) nofun⟩

end Sys2Proof.Machine
end

section
/-! The host's run (70_reset_and_hazards.md R257): what the host reads at a step boundary, and how the run goes on. -/

namespace Sys2Proof.Machine

open Sys2Proof

variable {s t : State} {n : Nat}

/-! ### The boundary between two steps -/

theorem State.boundary_of_end (hrun : s.halt = .running) (hend : s.cfg.endPc = some s.pc) :
    s.boundary = some (.reachedEnd s) := by
  simp [State.boundary, hrun, hend]

theorem State.boundary_of_halted (hhalt : s.halt ≠ .running) : s.boundary = some (.faulted s) := by
  cases h : s.halt with
  | running => exact absurd h hhalt
  | halted c p word => simp [State.boundary, h]

theorem State.boundary_of_not_end (hrun : s.halt = .running) (hend : s.cfg.endPc ≠ some s.pc) : s.boundary = none := by
  simp [State.boundary, hrun, hend]

/-! ### The run from a boundary -/

/-- What the boundary says ends the run, whatever number of steps is left. -/
theorem hostRun_of_boundary {e : RunEnd} (h : s.boundary = some e) : hostRun n s = e := by
  cases n with
  | zero => simp [hostRun, h]
  | succ n => simp [hostRun, h]

theorem hostRun_zero_of_boundary_none (h : s.boundary = none) : hostRun 0 s = .outOfFuel s := by
  simp [hostRun, h]

theorem hostRun_succ_of_boundary_none (h : s.boundary = none) (hstep : step s = .next t) :
    hostRun (n + 1) s = hostRun n t := by
  simp [hostRun, h, hstep]

/-- Settles O58, by what the boundary says: END_PC, a fault, or nothing, and then by the steps left. -/
theorem runEnds : Obligations.RunEnds := by
  intro n s t
  refine ⟨fun ⟨hrun, hend⟩ => ?_, fun hhalt => ?_, fun ⟨hrun, hend⟩ => ?_, fun ⟨hrun, hend, hstep⟩ => ?_⟩
  · exact hostRun_of_boundary (State.boundary_of_end hrun hend)
  · exact hostRun_of_boundary (State.boundary_of_halted hhalt)
  · exact hostRun_zero_of_boundary_none (State.boundary_of_not_end hrun hend)
  · exact hostRun_succ_of_boundary_none (State.boundary_of_not_end hrun hend) hstep

end Sys2Proof.Machine
end

section
/-! Words written out from the encodings (30_encoding.md §7), one of each family, decoded by their major opcode or their
quadrant. -/

namespace Sys2Proof

open Sys2Proof.Machine

/-- Settles O3: for each word, the opcode or the quadrant whose decoder it goes to, and that decoder's answer. -/
theorem writtenWordsDecode : Obligations.WrittenWordsDecode := by
  refine ⟨?addi, ?jal, ?beq, ?sd, ?ld, ?lui, ?sraw, ?csrrw, ?fence, ?cLi, ?cJal⟩
  case addi => exact decode_word _ _ _ 0b0010011#7 rfl rfl (by decide) rfl
  case jal => exact decode_word _ _ _ 0b1101111#7 rfl rfl (by decide) rfl
  case beq => exact decode_word _ _ _ 0b1100011#7 rfl rfl (by decide) rfl
  case sd => exact decode_word _ _ _ 0b0100011#7 rfl rfl (by decide) rfl
  case ld => exact decode_word _ _ _ 0b0000011#7 rfl rfl (by decide) rfl
  case lui => exact decode_word _ _ _ 0b0110111#7 rfl rfl (by decide) rfl
  case sraw => exact decode_word _ _ _ 0b0111011#7 rfl rfl (by decide) rfl
  case csrrw => exact decode_word _ _ _ 0b1110011#7 rfl rfl (by decide) rfl
  case fence => exact decode_word _ _ _ 0b0001111#7 rfl rfl (by decide) rfl
  case cLi => exact decode_half _ _ _ 0b01#2 rfl rfl (by decide) rfl
  case cJal => exact decode_half _ _ _ 0b01#2 rfl rfl (by decide) rfl

end Sys2Proof
end
